-- ==== Sys2Proof/Word.lean ====
section
/-! DEFINITION. The word types of CC608-CORE (00_scope R7, R8; decision D11 for the widths). -/

namespace Sys2Proof

/-- A byte of a source: 8 bits (20_memory R60). -/
abbrev Byte := BitVec 8

/-- A code point, `CP_W` = 21 bits (00_scope R7). -/
abbrev CodePoint := BitVec 21

/-- The `timestamp` operand, `TS_W` = 64 bits, opaque (00_scope R7). -/
abbrev Timestamp := BitVec 64

/-- The `size` operand, `SIZE_W` = 32 bits, two's complement (00_scope R7, R8). -/
abbrev SizeWord := BitVec 32

/-- A byte source: a finite sequence of bytes `S[0] .. S[len-1]` (00_scope R10). -/
abbrev Source := List Byte

end Sys2Proof
end

