-- ==== Sys2Proof/Config.lean ====
section
/-! DEFINITION. What an implementation of CC608-CORE fixes (00_scope R7) and the free values of the model. -/

namespace Sys2Proof.Config

/-- `N_BASIC`, entries of the basic table (00_scope R7). -/
def nBasic : Nat := 96

/-- `N_SPECIAL`, entries of the special table (00_scope R7). -/
def nSpecial : Nat := 16

/-- `READBITS_MAX`, the widest `BR.READBITS` (00_scope R7, 40_bit_reader R132). -/
def readBitsMax : Nat := 32

/-- `CC_HDR_BITS`, bits before the first entry (00_scope R7). -/
def ccHdrBits : Nat := 16

/-- `ENTRY_BITS`, bits of one entry (00_scope R7). -/
def entryBits : Nat := 24

/-- `SIG_BYTES`, signature bytes after `payload_size` (00_scope R7). -/
def sigBytes : Nat := 8

/-- `ACC_CAP`, the most code points `ACC` ever holds (00_scope R7, 44_caption_decoder R226). -/
def accCap : Nat := 62

/-- `MAX_EVENTS_PER_CALL` (00_scope R7, 44_caption_decoder R232). -/
def maxEventsPerCall : Nat := 31

/-- The largest value `MAX_BUF_BYTES` may have (00_scope R7, R12). -/
def maxBufLimit : Nat := 8421504

/-- The least value the model lets `MAX_BUF_BYTES` have: the 95 bytes of the longest buffer `CC_PARSE` consumes
(30_encoding R95). DESIGN CHOICE (log entry 10): the spec states no least value. -/
def minBufBytes : Nat := 95

/-- The implementation's choice of `MAX_BUF_BYTES`. A free value, log entry 10. -/
opaque maxBufOpen : Nat

/-- `MAX_BUF_BYTES`: a parameter of the block, at most 8 421 504 (00_scope R7). -/
def maxBufBytes : Nat := max minBufBytes (min maxBufOpen maxBufLimit)

/-- `n ≤ MAX_BUF_BYTES`, tested so that it evaluates wherever the parameter does not matter. -/
def bufferFits (n : Nat) : Bool :=
  if n ≤ minBufBytes then true else if maxBufLimit < n then false else decide (n ≤ maxBufOpen)

/-- The entries of `BASIC` the source does not fix, by index: a parameter of the block (00_scope R7, 42_char_tables
R176, R178). A free value, log entry 11. -/
opaque basicOpen : Nat → CodePoint

/-- The entries of `SPECIAL` the source does not fix, by index (00_scope R7, 42_char_tables R177, R178). A free value,
log entry 11. -/
opaque specialOpen : Nat → CodePoint

/-- `SUPPORTED_FORMAT_ID`, the identifier `CAN_PARSE` accepts: open (45_host_commands R256). A free value, log entry 12. -/
opaque supportedFormatId : String

/-- The `n`-th value the spec leaves unspecified (10_state R36, 60_exceptions R280): any natural number, cut to the width
of the register that takes it. A free value, log entries 5 and 7. -/
opaque freeNat : Nat → Nat

/-- The default of the open `BASIC` entries that 42_char_tables R176 offers, from general knowledge and not in the
source: the byte itself but at nine positions. Not used by the machine; for instantiating `basicOpen` in a claim. -/
def basicDefault (i : Nat) : CodePoint :=
  match i + 0x20 with
  | 0x5C => 0xE9
  | 0x5E => 0xED
  | 0x5F => 0xF3
  | 0x60 => 0xFA
  | 0x7B => 0xE7
  | 0x7C => 0xF7
  | 0x7D => 0xD1
  | 0x7E => 0xF1
  | 0x7F => 0x25A0
  | x => BitVec.ofNat 21 x

/-- The default of the open `SPECIAL` entries that 42_char_tables R177 offers, from general knowledge. Not used by the
machine. -/
def specialDefault (i : Nat) : CodePoint :=
  ([0xAE, 0xB0, 0xBD, 0xBF, 0x2122, 0xA2, 0xA3, 0x266A, 0xE0, 0x20, 0xE8, 0xE2, 0xEA, 0xEE, 0xF4, 0xFB] :
    List CodePoint).getD i 0

/-- The default of `SUPPORTED_FORMAT_ID` that 00_scope R7 offers, from general knowledge. Not used by the machine. -/
def formatIdDefault : String := "application/eia-608"

end Sys2Proof.Config
end

