-- ==== Sys2Proof/Syntax.lean ====
section
/-! DEFINITION. The instructions: one constructor per row of spec/opcode_table.json. The first sixteen are the stream
items of 30_encoding (a constructor holds every bit of its item, the ignored ones too, so that no bit is dropped); the
other fourteen are the host commands of 45_host_commands R251, which have no binary encoding (R250). -/

namespace Sys2Proof

inductive Instr where
  /-- `EXT.CONT`: a byte `0xFF` of an extended value (30_encoding R91, 43_sei_header R191). -/
  | extCont
  /-- `EXT.LAST`: the byte `b ≠ 0xFF` that ends an extended value (R91, R191). -/
  | extLast (b : BitVec 8)
  /-- `SEIHDR.MATCH`: the eight signature bytes, all as required (R92, R93). -/
  | seihdrMatch
  /-- `SEIHDR.MISMATCH`: eight bytes of which some field is not as required (R92). -/
  | seihdrMismatch (country : BitVec 8) (provider : BitVec 16) (userId : BitVec 32) (dataType : BitVec 8)
  /-- `CC.HDR`: the 16-bit caption header; `r` and `m` are skipped (R94). -/
  | ccHdr (r : BitVec 3) (ccCount : BitVec 5) (m : BitVec 8)
  /-- `ENTRY.INVALID`: `ccValid = 0`, the rest ignored (R96, R97). -/
  | entryInvalid (mk : BitVec 5) (ccType : BitVec 2) (p1 : BitVec 1) (d1 : BitVec 7) (p2 : BitVec 1) (d2 : BitVec 7)
  /-- `ENTRY.OTHER1`: `ccValid = 1`, `ccType = 1` (R97). -/
  | entryOther1 (mk : BitVec 5) (p1 : BitVec 1) (d1 : BitVec 7) (p2 : BitVec 1) (d2 : BitVec 7)
  /-- `ENTRY.OTHER2`: `ccValid = 1`, `ccType = 2` (R97). -/
  | entryOther2 (mk : BitVec 5) (p1 : BitVec 1) (d1 : BitVec 7) (p2 : BitVec 1) (d2 : BitVec 7)
  /-- `ENTRY.OTHER3`: `ccValid = 1`, `ccType = 3` (R97). -/
  | entryOther3 (mk : BitVec 5) (p1 : BitVec 1) (d1 : BitVec 7) (p2 : BitVec 1) (d2 : BitVec 7)
  /-- `PAIR.PAD`: a field-1 entry with both data values 0 (R98). -/
  | pairPad (mk : BitVec 5) (p1 : BitVec 1) (p2 : BitVec 1)
  /-- `PAIR.SPECIAL`: `ccData1 = 0x11`, `ccData2 = 0x30 + k` (R98). -/
  | pairSpecial (mk : BitVec 5) (p1 : BitVec 1) (p2 : BitVec 1) (k : BitVec 4)
  /-- `PAIR.CONTROL`: `ccData1 < 0x20`, neither padding nor special (R98). -/
  | pairControl (mk : BitVec 5) (p1 : BitVec 1) (d1 : BitVec 7) (p2 : BitVec 1) (d2 : BitVec 7)
  /-- `PAIR.BASIC1`: `ccData1 ≥ 0x20`, `ccData2 = 0` (R99 region f). -/
  | pairBasic1 (mk : BitVec 5) (p1 : BitVec 1) (d1 : BitVec 7) (p2 : BitVec 1)
  /-- `PAIR.BASIC2A`: `ccData1 ≥ 0x20`, `ccData2` in `0x40 .. 0x7F` (R99 region g, R106). -/
  | pairBasic2A (mk : BitVec 5) (p1 : BitVec 1) (d1 : BitVec 7) (p2 : BitVec 1) (d2 : BitVec 7)
  /-- `PAIR.BASIC2B`: `ccData1 ≥ 0x20`, `ccData2` in `0x20 .. 0x3F` (R99 region g, R106). -/
  | pairBasic2B (mk : BitVec 5) (p1 : BitVec 1) (d1 : BitVec 7) (p2 : BitVec 1) (d2 : BitVec 7)
  /-- `PAIR.ILLEGAL`: `ccData1 ≥ 0x20`, `ccData2` in `0x01 .. 0x1F` (R99 region h, R102). -/
  | pairIllegal (mk : BitVec 5) (p1 : BitVec 1) (d1 : BitVec 7) (p2 : BitVec 1) (d2 : BitVec 7)
  /-- `BR.RESET(S)` (40_bit_reader R130). -/
  | brReset (src : Source)
  /-- `BR.READBIT()` (R131). -/
  | brReadBit
  /-- `BR.READBITS(n)` (R132). -/
  | brReadBits (n : Nat)
  /-- `BR.SKIPBITS(n)` (R133). -/
  | brSkipBits (n : Nat)
  /-- `BY.BIND(S, p)` (41_byte_reader R150). -/
  | byBind (src : Source) (p : Nat)
  /-- `BY.READU8()` (R151). -/
  | byReadU8
  /-- `BY.READU16()` (R152). -/
  | byReadU16
  /-- `BY.READI32()` (R153). -/
  | byReadI32
  /-- `BY.POS()` (R155). -/
  | byPos
  /-- `GETBASIC(x)` (42_char_tables R171). -/
  | getBasic (x : Byte)
  /-- `GETSPECIAL(y)` (R172). -/
  | getSpecial (y : Byte)
  /-- `SEI_PARSE()` (43_sei_header R192). -/
  | seiParse
  /-- `CC_PARSE(buffer, size, timestamp)` (44_caption_decoder R229). -/
  | ccParse (buffer : Source) (size : SizeWord) (timestamp : Timestamp)
  /-- `CAN_PARSE(format_id)` (45_host_commands R256). -/
  | canParse (formatId : String)
  deriving DecidableEq, Repr

end Sys2Proof
end

