-- ==== Sys2Proof/Machine/State.lean ====
section
/-! DEFINITION. The state of one CC608-CORE instance (10_state R20 to R38) and its value after power-on reset
(70_reset_and_hazards R310). -/

namespace Sys2Proof.Machine

/-- The Bit Reader: `BR.src` and `BR.pos` (10_state R21, R22). Unbound is the empty source. -/
structure BitReader where
  src : Source
  pos : Nat
  deriving DecidableEq, Repr

/-- `BR.len`, the length of the bound source in bytes (R21). -/
def BitReader.len (r : BitReader) : Nat := r.src.length

/-- The Byte Reader: `BY.src` and `BY.pos` (10_state R23, R24). Unbound is the empty source. -/
structure ByteReader where
  src : Source
  pos : Nat
  deriving DecidableEq, Repr

/-- `BY.len` (R23). -/
def ByteReader.len (r : ByteReader) : Nat := r.src.length

/-- The Caption Decoder's working registers `W` (10_state R26). -/
structure CaptionRegs where
  size    : SizeWord
  ts      : Timestamp
  ccCount : BitVec 5
  i       : BitVec 5
  ccValid : BitVec 1
  ccType  : BitVec 2
  ccData1 : BitVec 7
  ccData2 : BitVec 7
  deriving DecidableEq, Repr

/-- The SEI Header Parser's working registers (10_state R27). -/
structure HeaderRegs where
  b                : BitVec 8
  payloadType      : Nat
  payloadSize      : Nat
  countryCode      : BitVec 8
  providerCode     : BitVec 16
  userIdentifier   : BitVec 32
  userDataTypeCode : BitVec 8
  deriving DecidableEq, Repr

/-- `RES.status` (10_state R31, 60_exceptions R272). -/
inductive Status where
  | ok
  | bufferUnderrun
  | malformedData
  deriving DecidableEq, Repr

/-- `RES.cause` (10_state R31, 60_exceptions R271). -/
inductive Cause where
  | none
  | bitUnderrun
  | byteUnderrun
  | tableIndexRange
  deriving DecidableEq, Repr

/-- The numbers 60_exceptions R272 assigns to the statuses. -/
def Status.code : Status → Nat
  | .ok => 0
  | .bufferUnderrun => 1
  | .malformedData => 2

/-- The numbers 60_exceptions R272 assigns to the causes. -/
def Cause.code : Cause → Nat
  | .none => 0
  | .bitUnderrun => 1
  | .byteUnderrun => 2
  | .tableIndexRange => 3

/-- The result register `RES` (10_state R31). -/
structure Result where
  status : Status
  cause  : Cause
  value  : Nat
  deriving DecidableEq, Repr

/-- A `ClosedCaption` event (30_encoding R108). Its layout on a port is open (log entry 18). -/
inductive Event where
  | text (content : List CodePoint) (timestamp : Timestamp)
  | control (byte1 byte2 : Byte) (timestamp : Timestamp)
  deriving DecidableEq, Repr

/-- Where the machine stands (10_state R29): `idle` between transactions; inside `SEI_PARSE` the field being read
(43_sei_header R192 steps 1 to 3); inside `CC_PARSE` the phases `HDR`, `ENTRY(i)` (with `i` in its register) and
`FINAL`. -/
inductive Phase where
  | idle
  | seiType
  | seiSize
  | seiSignature
  | ccHeader
  | ccEntry
  | ccFinal
  deriving DecidableEq, Repr

/-- The state. The tables `BASIC` and `SPECIAL` are constants, not state (10_state R32, R37). -/
structure State where
  /-- `BR` (10_state R21, R22) -/
  br    : BitReader
  /-- `BY` (10_state R23, R24) -/
  byr   : ByteReader
  /-- `ACC` (10_state R25) -/
  acc   : List CodePoint
  /-- `W` (10_state R26) -/
  w     : CaptionRegs
  /-- the header registers (10_state R27) -/
  hdr   : HeaderRegs
  /-- `RES` (10_state R31) -/
  res   : Result
  /-- `OUT` (10_state R33), oldest event first -/
  out   : List Event
  /-- the phase (10_state R29) -/
  phase : Phase
  /-- MODEL'S OWN (log entry 2): the commands the host has still to issue, in issue order -/
  cmds  : List Instr
  /-- MODEL'S OWN (log entry 5): how many free values have been drawn -/
  draws : Nat
  deriving DecidableEq, Repr

/-- What stops the machine with a fault: nothing. Every fault of the spec ends a transaction in `RES` and the machine
goes on (60_exceptions R280, R283), so this type has no constructor and no step raises one (safe). -/
inductive Fault where
  deriving DecidableEq, Repr

/-- Why a step is refused. -/
inductive Refusal where
  /-- Raised by an arm of `exec` for an instruction that has no meaning yet. Safe: nothing can be proved of it. -/
  | notModelled (mnemonic : String)
  /-- Raised by every host command issued while a transaction is in progress (45_host_commands R252: "the block accepts
  no other command"; 93_implementation_defined U14: refuse). Safe: such a run has no meaning in the spec. -/
  | busy
  /-- Raised by a stream item met in a phase that does not read its format (10_state R29). Safe: the block decodes an
  item only where R192 and R229 place it. -/
  | itemOutOfPhase
  /-- Raised by `step` when the host's command list holds a stream item (45_host_commands R250: commands are those of
  R251). Safe: no host can issue it. -/
  | notACommand
  /-- Raised by `step` when no row of the opcode table selects the item at the cursor. Safe, and never reached: the last
  rows of each format select what is left (30_encoding R106). -/
  | undecodable
  /-- Raised by `BR.READBITS(n)` with `n > 32` (40_bit_reader R135: "A model refuses it"). Safe. -/
  | readTooWide
  /-- Raised by `BY.BIND(S, p)` with `p > len(S)` (41_byte_reader R150: "a model refuses it"). Safe. -/
  | bindPastEnd
  /-- Raised by `BR.RESET`, `BY.BIND` and `CC_PARSE` on a source longer than `MAX_BUF_BYTES` (93_implementation_defined
  U18: refuse). Safe. -/
  | sourceTooLong
  deriving DecidableEq, Repr

/-- The machine right after power-on (70_reset_and_hazards R310, 10_state R38): both readers unbound, `ACC` empty,
`RES = (OK, NONE, 0)`, no transaction in progress. DESIGN CHOICE (log entries 4 and 13): the working registers, which
the spec leaves unspecified, hold 0, and `OUT`, which is the host's, is empty. -/
def State.reset : State where
  br := ⟨[], 0⟩
  byr := ⟨[], 0⟩
  acc := []
  w := ⟨0, 0, 0, 0, 0, 0, 0, 0⟩
  hdr := ⟨0, 0, 0, 0, 0, 0, 0⟩
  res := ⟨.ok, .none, 0⟩
  out := []
  phase := .idle
  cmds := []
  draws := 0

end Sys2Proof.Machine
end

