-- ==== Sys2Proof/Machine/Flags.lean ====
section
/-! DEFINITION. The predicates the block's control flow reads (10_state R30). The block has no condition-code register:
each is computed where it is read. -/

namespace Sys2Proof.Machine

/-- `size ≤ 0` on the two's complement operand (R30; 44_caption_decoder R211; 00_scope R12 (e)). -/
def sizeNotPositive (size : SizeWord) : Bool := decide (size.toInt ≤ 0)

/-- `b = 0xFF`: the extended value goes on (R30; 43_sei_header R191). -/
def continues (b : Byte) : Bool := b == 0xFF

/-- `ccValid` as a truth value (R30; 44_caption_decoder R215). -/
def validFlag (v : BitVec 1) : Bool := v == 1

/-- `ccType ≠ 0`: not an NTSC field-1 pair (R30; 44_caption_decoder R217). -/
def otherField (t : BitVec 2) : Bool := t != 0

/-- `ACC ≠ []` (R30; 44_caption_decoder R225). -/
def accHasText (s : State) : Bool := !s.acc.isEmpty

end Sys2Proof.Machine
end

