-- ==== Sys2Proof/WellFormed.lean ====
section
/-! DEFINITION. Which instructions are well-formed: a stream item holds field values its own row of the opcode table
selects (30_encoding R97 to R99, R106), a command's operands lie in the domain its rule gives. -/

namespace Sys2Proof

/-- A host command (45_host_commands R251), as opposed to a stream item (30_encoding R90). -/
def Instr.isCommand : Instr → Bool
  | .extCont | .extLast .. | .seihdrMatch | .seihdrMismatch .. | .ccHdr .. => false
  | .entryInvalid .. | .entryOther1 .. | .entryOther2 .. | .entryOther3 .. => false
  | .pairPad .. | .pairSpecial .. | .pairControl .. | .pairBasic1 .. => false
  | .pairBasic2A .. | .pairBasic2B .. | .pairIllegal .. => false
  | .brReset .. | .brReadBit | .brReadBits .. | .brSkipBits .. => true
  | .byBind .. | .byReadU8 | .byReadU16 | .byReadI32 | .byPos => true
  | .getBasic .. | .getSpecial .. | .seiParse | .ccParse .. | .canParse .. => true

/-- The pair is padding (30_encoding R98 line 1). -/
def isPad (d1 d2 : BitVec 7) : Bool := d1 == 0 && d2 == 0

/-- The pair is a special character (30_encoding R98 line 2). -/
def isSpecial (d1 d2 : BitVec 7) : Bool := d1 == 0x11 && d2 &&& 0x70 == 0x30

/-- The well-formedness check. -/
def Instr.wf : Instr → Bool
  | .extCont => true
  | .extLast b => b != 0xFF
  | .seihdrMatch => true
  | .seihdrMismatch c p u t => !(c == 0xB5 && p == 0x0031 && u == 0x47413934 && t == 3)
  | .ccHdr .. => true
  | .entryInvalid .. => true
  | .entryOther1 .. => true
  | .entryOther2 .. => true
  | .entryOther3 .. => true
  | .pairPad .. => true
  | .pairSpecial .. => true
  | .pairControl _ _ d1 _ d2 => decide (d1 < 0x20) && !isPad d1 d2 && !isSpecial d1 d2
  | .pairBasic1 _ _ d1 _ => decide (0x20 ≤ d1)
  | .pairBasic2A _ _ d1 _ d2 => decide (0x20 ≤ d1) && decide (0x40 ≤ d2)
  | .pairBasic2B _ _ d1 _ d2 => decide (0x20 ≤ d1) && decide (0x20 ≤ d2) && decide (d2 < 0x40)
  | .pairIllegal _ _ d1 _ d2 => decide (0x20 ≤ d1) && decide (0x01 ≤ d2) && decide (d2 < 0x20)
  | .brReset src => Config.bufferFits src.length
  | .brReadBit => true
  | .brReadBits n => decide (n ≤ Config.readBitsMax)
  | .brSkipBits _ => true
  | .byBind src p => Config.bufferFits src.length && decide (p ≤ src.length)
  | .byReadU8 => true
  | .byReadU16 => true
  | .byReadI32 => true
  | .byPos => true
  | .getBasic _ => true
  | .getSpecial _ => true
  | .seiParse => true
  | .ccParse buffer _ _ => Config.bufferFits buffer.length
  | .canParse _ => true

end Sys2Proof
end

