-- ==== Sys2Proof/Decode.lean ====
section
/-! DEFINITION. Reading bits and bytes of a source (00_scope R10, R11), the decoder of the stream items by the mask and
match rows of 30_encoding R106 in priority order, and the encoder written from the layouts of R91 to R96. -/

namespace Sys2Proof

/-! ## Bits and bytes of a source -/

/-- Byte `a` of a source. Past the end it reads 0: the admission tests of 20_memory R67 keep every operation of the
block off those, and only the item fetch looks there (log entry 16). -/
def srcByte (src : Source) (a : Nat) : Byte := src.getD a 0

/-- `SrcBit(S, p)`: bit `7 - (p mod 8)` of byte `p div 8` (00_scope R10). -/
def srcBit (src : Source) (p : Nat) : Bool := (srcByte src (p / 8)).getLsbD (7 - p % 8)

/-- `SrcBits(S, p, n)`: the first bit read is the most significant (00_scope R10). -/
def srcBits (src : Source) (p : Nat) : Nat → Nat
  | 0 => 0
  | n + 1 => 2 * srcBits src p n + (srcBit src (p + n)).toNat

/-- `MemRead(S, a, n)`: `n` bytes from `a`, big-endian (00_scope R11, 20_memory R62). -/
def memRead (src : Source) (a : Nat) : Nat → Nat
  | 0 => 0
  | n + 1 => 256 * memRead src a n + (srcByte src (a + n)).toNat

/-- The `n` bytes of `v`, big-endian: the inverse of `MemRead` on `n` bytes. -/
def bytesOf : Nat → Nat → Source
  | 0, _ => []
  | n + 1, v => bytesOf n (v / 256) ++ [BitVec.ofNat 8 v]

/-! ## Fields of a 24-bit entry (30_encoding R96) -/

def entryMk (e : BitVec 24) : BitVec 5 := e.extractLsb' 19 5
def entryValid (e : BitVec 24) : BitVec 1 := e.extractLsb' 18 1
def entryType (e : BitVec 24) : BitVec 2 := e.extractLsb' 16 2
def entryP1 (e : BitVec 24) : BitVec 1 := e.extractLsb' 15 1
def entryD1 (e : BitVec 24) : BitVec 7 := e.extractLsb' 8 7
def entryP2 (e : BitVec 24) : BitVec 1 := e.extractLsb' 7 1
def entryD2 (e : BitVec 24) : BitVec 7 := e.extractLsb' 0 7

/-! ## The opcode table (30_encoding R106) -/

/-- One row of the table for items of `w` bits: it selects the values `v` with `v &&& mask = pattern`, and `build`
takes the item's fields out of `v`. -/
structure ItemRow (w : Nat) where
  mask : BitVec w
  pattern : BitVec w
  build : BitVec w → Instr

/-- The first row that selects `v` (30_encoding R106: "the first row whose (value & mask) = match holds"). -/
def firstRow {w : Nat} : List (ItemRow w) → BitVec w → Option Instr
  | [], _ => none
  | r :: rs, v => if v &&& r.mask = r.pattern then some (r.build v) else firstRow rs v

def ext8Rows : List (ItemRow 8) :=
  [⟨0xFF, 0xFF, fun _ => .extCont⟩,
   ⟨0x00, 0x00, fun b => .extLast b⟩]

def sig64Rows : List (ItemRow 64) :=
  [⟨0xFFFFFFFFFFFFFFFF, 0xB500314741393403, fun _ => .seihdrMatch⟩,
   ⟨0x0000000000000000, 0x0000000000000000, fun v => .seihdrMismatch (v.extractLsb' 56 8) (v.extractLsb' 40 16)
      (v.extractLsb' 8 32) (v.extractLsb' 0 8)⟩]

def ccHdr16Rows : List (ItemRow 16) :=
  [⟨0x0000, 0x0000, fun h => .ccHdr (h.extractLsb' 13 3) (h.extractLsb' 8 5) (h.extractLsb' 0 8)⟩]

def entry24Rows : List (ItemRow 24) :=
  [⟨0x040000, 0x000000, fun e => .entryInvalid (entryMk e) (entryType e) (entryP1 e) (entryD1 e) (entryP2 e) (entryD2 e)⟩,
   ⟨0x070000, 0x050000, fun e => .entryOther1 (entryMk e) (entryP1 e) (entryD1 e) (entryP2 e) (entryD2 e)⟩,
   ⟨0x070000, 0x060000, fun e => .entryOther2 (entryMk e) (entryP1 e) (entryD1 e) (entryP2 e) (entryD2 e)⟩,
   ⟨0x070000, 0x070000, fun e => .entryOther3 (entryMk e) (entryP1 e) (entryD1 e) (entryP2 e) (entryD2 e)⟩,
   ⟨0x077F7F, 0x040000, fun e => .pairPad (entryMk e) (entryP1 e) (entryP2 e)⟩,
   ⟨0x077F70, 0x041130, fun e => .pairSpecial (entryMk e) (entryP1 e) (entryP2 e) (e.extractLsb' 0 4)⟩,
   ⟨0x076000, 0x040000, fun e => .pairControl (entryMk e) (entryP1 e) (entryD1 e) (entryP2 e) (entryD2 e)⟩,
   ⟨0x07007F, 0x040000, fun e => .pairBasic1 (entryMk e) (entryP1 e) (entryD1 e) (entryP2 e)⟩,
   ⟨0x070040, 0x040040, fun e => .pairBasic2A (entryMk e) (entryP1 e) (entryD1 e) (entryP2 e) (entryD2 e)⟩,
   ⟨0x070060, 0x040020, fun e => .pairBasic2B (entryMk e) (entryP1 e) (entryD1 e) (entryP2 e) (entryD2 e)⟩,
   ⟨0x070000, 0x040000, fun e => .pairIllegal (entryMk e) (entryP1 e) (entryD1 e) (entryP2 e) (entryD2 e)⟩]

/-! ## Decoding -/

/-- The four formats that have rows in the table (30_encoding R106). -/
inductive ItemFormat where
  | ext8
  | sig64
  | ccHdr16
  | entry24
  deriving DecidableEq, Repr

/-- The bytes of an item of a format (30_encoding R91, R92, R94, R96). -/
def ItemFormat.bytes : ItemFormat → Nat
  | .ext8 => 1
  | .sig64 => 8
  | .ccHdr16 => 2
  | .entry24 => 3

/-- Why bytes are no stream item. -/
inductive DecodeError where
  /-- fewer bytes than the format has -/
  | tooShort
  /-- no row of the format's table selects the value -/
  | noRow
  deriving DecidableEq, Repr

/-- The item of a format whose value, as the table numbers its bits, is `v`. -/
def decodeValue (f : ItemFormat) (v : Nat) : Except DecodeError Instr :=
  match f with
  | .ext8 => ((firstRow ext8Rows (BitVec.ofNat 8 v)).map .ok).getD (.error .noRow)
  | .sig64 => ((firstRow sig64Rows (BitVec.ofNat 64 v)).map .ok).getD (.error .noRow)
  | .ccHdr16 => ((firstRow ccHdr16Rows (BitVec.ofNat 16 v)).map .ok).getD (.error .noRow)
  | .entry24 => ((firstRow entry24Rows (BitVec.ofNat 24 v)).map .ok).getD (.error .noRow)

/-- Decode the item at the head of a byte list, and give the bytes after it. -/
def decode (f : ItemFormat) (bs : Source) : Except DecodeError (Instr × Source) :=
  if bs.length < f.bytes then .error .tooShort
  else
    match decodeValue f (memRead bs 0 f.bytes) with
    | .ok i => .ok (i, bs.drop f.bytes)
    | .error e => .error e

/-- The format that a width of the opcode table names: its four item formats have four widths. -/
def formatOfBits (nbits : Nat) : Option ItemFormat :=
  if nbits = 8 then some .ext8
  else if nbits = 16 then some .ccHdr16
  else if nbits = 24 then some .entry24
  else if nbits = 64 then some .sig64
  else none

/-- What the decoder reads from an item whose bits, as the opcode table numbers them, are `w`: the item is one word of
`nbits` bits, stored most significant byte first (20_memory R61, R62). A width no format has (a host command's, which
has no bits at all, 45_host_commands R250) gives none. -/
def decodeTableWord (nbits w : Nat) : Option Instr :=
  match formatOfBits nbits with
  | none => none
  | some f =>
    match decode f (bytesOf f.bytes w) with
    | .ok (i, _) => some i
    | .error _ => none

/-! ## Encoding (30_encoding R91, R92, R94, R96) -/

/-- The 24 bits of an entry, most significant field first (30_encoding R96). -/
def entryWord (mk : BitVec 5) (v : BitVec 1) (t : BitVec 2) (p1 : BitVec 1) (d1 : BitVec 7) (p2 : BitVec 1)
    (d2 : BitVec 7) : BitVec 24 :=
  mk ++ v ++ t ++ p1 ++ d1 ++ p2 ++ d2

/-- The format and the value of a stream item; a host command has none (45_host_commands R250). -/
def itemValue : Instr → Option (ItemFormat × Nat)
  | .extCont => some (.ext8, 0xFF)
  | .extLast b => some (.ext8, b.toNat)
  | .seihdrMatch => some (.sig64, 0xB500314741393403)
  | .seihdrMismatch c p u t => some (.sig64, (c ++ p ++ u ++ t).toNat)
  | .ccHdr r n m => some (.ccHdr16, (r ++ n ++ m).toNat)
  | .entryInvalid mk t p1 d1 p2 d2 => some (.entry24, (entryWord mk 0 t p1 d1 p2 d2).toNat)
  | .entryOther1 mk p1 d1 p2 d2 => some (.entry24, (entryWord mk 1 1 p1 d1 p2 d2).toNat)
  | .entryOther2 mk p1 d1 p2 d2 => some (.entry24, (entryWord mk 1 2 p1 d1 p2 d2).toNat)
  | .entryOther3 mk p1 d1 p2 d2 => some (.entry24, (entryWord mk 1 3 p1 d1 p2 d2).toNat)
  | .pairPad mk p1 p2 => some (.entry24, (entryWord mk 1 0 p1 0 p2 0).toNat)
  | .pairSpecial mk p1 p2 k => some (.entry24, (entryWord mk 1 0 p1 0x11 p2 (0b011#3 ++ k)).toNat)
  | .pairControl mk p1 d1 p2 d2 => some (.entry24, (entryWord mk 1 0 p1 d1 p2 d2).toNat)
  | .pairBasic1 mk p1 d1 p2 => some (.entry24, (entryWord mk 1 0 p1 d1 p2 0).toNat)
  | .pairBasic2A mk p1 d1 p2 d2 => some (.entry24, (entryWord mk 1 0 p1 d1 p2 d2).toNat)
  | .pairBasic2B mk p1 d1 p2 d2 => some (.entry24, (entryWord mk 1 0 p1 d1 p2 d2).toNat)
  | .pairIllegal mk p1 d1 p2 d2 => some (.entry24, (entryWord mk 1 0 p1 d1 p2 d2).toNat)
  | .brReset .. | .brReadBit | .brReadBits .. | .brSkipBits .. => none
  | .byBind .. | .byReadU8 | .byReadU16 | .byReadI32 | .byPos => none
  | .getBasic .. | .getSpecial .. | .seiParse | .ccParse .. | .canParse .. => none

/-- The format and the bytes of a stream item, in stream order; none for a host command. -/
def encode (i : Instr) : Option (ItemFormat × Source) :=
  (itemValue i).map fun fv => (fv.1, bytesOf fv.1.bytes fv.2)

end Sys2Proof
end

