-- ==== Sys2Proof/Machine/Operands.lean ====
section
/-! DEFINITION. How operands are assembled (30_encoding R100): table indices, the bytes of a control event, the widths
of the fields of each stream item in stream order, and the stream item at the cursor. -/

namespace Sys2Proof.Machine

/-- Index of a basic character: `x - 0x20`, read only for `0x20 ≤ x ≤ 0x7F` (30_encoding R100, 00_scope R12 (c)). -/
def basicIndex (x : Byte) : Nat := x.toNat - 0x20

/-- Index of a special character: `y & 0xF` (30_encoding R100, 42_char_tables R172). -/
def specialIndex (y : Byte) : Nat := (y &&& 0x0F).toNat

/-- A 7-bit data value carried as a byte, zero-extended (30_encoding R100, R108). -/
def dataByte (d : BitVec 7) : Byte := d.setWidth 8

/-- A boolean result in `RES.value`: true is 1 (40_bit_reader R131; log entry 8). -/
def boolValue (b : Bool) : Nat := if b then 1 else 0

/-! The bit widths, in stream order, of the reads and skips that consume each item of `CC_PARSE`. -/

/-- Header: skip 3, read 5, skip 8 (44_caption_decoder R213). -/
def headerWidths : List Nat := [3, 5, 8]

/-- Invalid entry: skip 5, read 1, skip 18 (R216). -/
def invalidWidths : List Nat := [5, 1, 18]

/-- Entry of another type: skip 5, read 1, read 2, skip 16 (R217). -/
def otherWidths : List Nat := [5, 1, 2, 16]

/-- Field-1 entry: skip 5, read 1, read 2, skip 1, read 7, skip 1, read 7 (R218). -/
def field1Widths : List Nat := [5, 1, 2, 1, 7, 1, 7]

/-- The format of the item that a phase reads next; none between transactions and in `FINAL` (10_state R28, R29). -/
def phaseFormat : Phase → Option ItemFormat
  | .idle => none
  | .seiType => some .ext8
  | .seiSize => some .ext8
  | .seiSignature => some .sig64
  | .ccHeader => some .ccHdr16
  | .ccEntry => some .entry24
  | .ccFinal => none

/-- The value of the item of format `f` at the cursor that reads it (10_state R28). Bits past the end of the source
read 0 here: they only choose among items that all underrun at the same read (log entry 16). -/
def itemBits (f : ItemFormat) (s : State) : Nat :=
  match f with
  | .ext8 => memRead s.byr.src s.byr.pos 1
  | .sig64 => memRead s.byr.src s.byr.pos 8
  | .ccHdr16 => srcBits s.br.src s.br.pos 16
  | .entry24 => srcBits s.br.src s.br.pos 24

/-- The stream item at the cursor, decoded by the format its phase reads. -/
def fetchItem (f : ItemFormat) (s : State) : Except DecodeError Instr := decodeValue f (itemBits f s)

end Sys2Proof.Machine
end

