-- ==== Sys2Proof/Machine/Ops.lean ====
section
/-! DEFINITION. The named operations on the state: one update per field, the reader primitives with their admission
tests (20_memory R67), appending and flushing text (44_caption_decoder R225), taking a fault (60_exceptions R280) and
ending a transaction. A primitive that can fault takes what follows it as an argument `k`, so that a fault ends the
transaction there and nothing later runs (60_exceptions R281). -/

namespace Sys2Proof.Machine

/-- What a step answers. -/
abbrev StepResult := Host.Outcome State Fault Refusal

/-! ## Updates, one per field -/

/-- Advance the bit cursor by `n` bits (10_state R22). -/
def State.moveBit (s : State) (n : Nat) : State := { s with br := { s.br with pos := s.br.pos + n } }

/-- Bind the Bit Reader, cursor at bit 0 (40_bit_reader R130). -/
def State.bindBit (s : State) (src : Source) : State := { s with br := ⟨src, 0⟩ }

/-- Advance the byte cursor by `n` bytes (10_state R24). -/
def State.moveByte (s : State) (n : Nat) : State := { s with byr := { s.byr with pos := s.byr.pos + n } }

/-- Bind the Byte Reader, cursor at byte `p` (41_byte_reader R150). -/
def State.bindByte (s : State) (src : Source) (p : Nat) : State := { s with byr := ⟨src, p⟩ }

def State.setAcc (s : State) (a : List CodePoint) : State := { s with acc := a }

def State.setW (s : State) (w : CaptionRegs) : State := { s with w := w }

def State.setHdr (s : State) (h : HeaderRegs) : State := { s with hdr := h }

def State.setRes (s : State) (r : Result) : State := { s with res := r }

def State.setPhase (s : State) (p : Phase) : State := { s with phase := p }

def State.setCmds (s : State) (c : List Instr) : State := { s with cmds := c }

/-- `Emit(e)`: append after every event already in `OUT` (20_memory R68). -/
def State.emit (s : State) (e : Event) : State := { s with out := s.out ++ [e] }

/-- Count `n` free values as drawn (log entry 5). -/
def State.draw (s : State) (n : Nat) : State := { s with draws := s.draws + n }

/-! ## Free values: registers outside a transaction and after a fault (10_state R36, 93_implementation_defined U12) -/

/-- `W` with every register at a value nothing constrains. -/
def freeCaptionRegs (n : Nat) : CaptionRegs where
  size := BitVec.ofNat 32 (Config.freeNat n)
  ts := BitVec.ofNat 64 (Config.freeNat (n + 1))
  ccCount := BitVec.ofNat 5 (Config.freeNat (n + 2))
  i := BitVec.ofNat 5 (Config.freeNat (n + 3))
  ccValid := BitVec.ofNat 1 (Config.freeNat (n + 4))
  ccType := BitVec.ofNat 2 (Config.freeNat (n + 5))
  ccData1 := BitVec.ofNat 7 (Config.freeNat (n + 6))
  ccData2 := BitVec.ofNat 7 (Config.freeNat (n + 7))

/-- The header registers, each at a value nothing constrains but its width or bound (10_state R27). -/
def freeHeaderRegs (n : Nat) : HeaderRegs where
  b := BitVec.ofNat 8 (Config.freeNat n)
  payloadType := Config.freeNat (n + 1) % 2 ^ 31
  payloadSize := Config.freeNat (n + 2) % 2 ^ 31
  countryCode := BitVec.ofNat 8 (Config.freeNat (n + 3))
  providerCode := BitVec.ofNat 16 (Config.freeNat (n + 4))
  userIdentifier := BitVec.ofNat 32 (Config.freeNat (n + 5))
  userDataTypeCode := BitVec.ofNat 8 (Config.freeNat (n + 6))

/-- `W` becomes unspecified. -/
def State.dropW (s : State) : State := (s.setW (freeCaptionRegs s.draws)).draw 8

/-- The header registers become unspecified. -/
def State.dropHdr (s : State) : State := (s.setHdr (freeHeaderRegs s.draws)).draw 7

/-! ## Taking a fault, and ending a transaction -/

/-- The status under which a fault of a host's reader or lookup command is surfaced (60_exceptions R270, R280). -/
def statusOf : Cause → Status
  | .none => .ok
  | .bitUnderrun => .bufferUnderrun
  | .byteUnderrun => .bufferUnderrun
  | .tableIndexRange => .malformedData

/-- Take a fault with cause `c`, wherever it is raised (60_exceptions R280). In `CC_PARSE`: `ACC` is cleared without
being emitted and the status is `MALFORMED_DATA`. In `SEI_PARSE`: the status is `BUFFER_UNDERRUN`. Either ends the
transaction and leaves the working registers unspecified. In a command of its own: `RES` is written and nothing else.
The cursors stay where the failing operation found them. There is no return from a fault (R283): the next command just
runs. -/
def raise (c : Cause) (s : State) : State :=
  match s.phase with
  | .idle => s.setRes ⟨statusOf c, c, 0⟩
  | .seiType | .seiSize | .seiSignature =>
    (((s.setRes ⟨.bufferUnderrun, c, 0⟩).setPhase .idle).dropW).dropHdr
  | .ccHeader | .ccEntry | .ccFinal =>
    ((((s.setAcc []).setRes ⟨.malformedData, c, 0⟩).setPhase .idle).dropW).dropHdr

/-- The result of a command that returns `v` (10_state R31). -/
def answer (v : Nat) (s : State) : State := s.setRes ⟨.ok, .none, v⟩

/-- The result of a command that reports a status and returns no value (45_host_commands R251, `BR.SKIPBITS`): the
spec does not say what `RES.value` then holds, so it is a free value (log entry 7). -/
def answerNoValue (s : State) : State := (s.setRes ⟨.ok, .none, Config.freeNat s.draws⟩).draw 1

/-- `SEI_PARSE` returns `v` (43_sei_header R192); its registers mean nothing afterwards (10_state R27). -/
def returnSei (v : Nat) (s : State) : State := ((s.setRes ⟨.ok, .none, v⟩).setPhase .idle).dropHdr

/-- `FLUSH()` (44_caption_decoder R225). -/
def flush (s : State) : State :=
  if accHasText s then (s.emit (.text s.acc s.w.ts)).setAcc [] else s

/-- Step 7 and the end of a fault-free `CC_PARSE` (44_caption_decoder R227, R229). -/
def finishCaption (s : State) : State := (((flush s).setRes ⟨.ok, .none, 0⟩).setPhase .idle).dropW

/-! ## Reader primitives -/

/-- A request for `n` bits is admitted (20_memory R67, 40_bit_reader R134). -/
def bitsFit (n : Nat) (s : State) : Bool := decide (s.br.pos + n ≤ 8 * s.br.len)

/-- A request for `n` bytes is admitted (20_memory R67, 41_byte_reader R154). -/
def bytesFit (n : Nat) (s : State) : Bool := decide (s.byr.pos + n ≤ s.byr.len)

/-- `BR.SKIPBITS(n)` (40_bit_reader R133). -/
def skipBits (n : Nat) (s : State) (k : State → State) : State :=
  if bitsFit n s then k (s.moveBit n) else raise .bitUnderrun s

/-- `BR.READBITS(n)` (40_bit_reader R132). -/
def readBits (n : Nat) (s : State) (k : Nat → State → State) : State :=
  if bitsFit n s then k (srcBits s.br.src s.br.pos n) (s.moveBit n) else raise .bitUnderrun s

/-- `BR.READBIT()` (40_bit_reader R131). -/
def readBit (s : State) (k : Bool → State → State) : State :=
  if bitsFit 1 s then k (srcBit s.br.src s.br.pos) (s.moveBit 1) else raise .bitUnderrun s

/-- `BY.READU8()`, `BY.READU16()`, `BY.READI32()` for `n` = 1, 2, 4 (41_byte_reader R151 to R153). -/
def readBytes (n : Nat) (s : State) (k : Nat → State → State) : State :=
  if bytesFit n s then k (memRead s.byr.src s.byr.pos n) (s.moveByte n) else raise .byteUnderrun s

/-- Consume the reads and skips of an item whose bits are already decoded, one after the other: the first that is not
admitted faults (44_caption_decoder R231). -/
def takeBits : List Nat → State → (State → State) → State
  | [], s, k => k s
  | n :: ns, s, k => skipBits n s fun s => takeBits ns s k

/-- Consume `n` bytes of an item whose bytes are already decoded. -/
def takeBytes (n : Nat) (s : State) (k : State → State) : State :=
  if bytesFit n s then k (s.moveByte n) else raise .byteUnderrun s

/-- `ACC ++ [c]` (00_scope R11). -/
def appendChar (c : CodePoint) (s : State) : State := s.setAcc (s.acc ++ [c])

/-! ## Where instructions may run -/

/-- A host command: admitted between transactions only (45_host_commands R252). -/
def whenIdle (s : State) (k : State → StepResult) : StepResult :=
  if s.phase = .idle then k s else .refused .busy

/-- A stream item: met only in the phase that reads it (10_state R29). -/
def inPhase (p : Phase) (s : State) (k : State → State) : StepResult :=
  if s.phase = p then .next (k s) else .refused .itemOutOfPhase

end Sys2Proof.Machine
end

