-- ==== Sys2Proof/Machine/BitReader.lean ====
section
/-! DEFINITION. The Bit Reader commands (40_bit_reader). -/

namespace Sys2Proof.Machine

/-- `BR.RESET(S)` (R130): bind, cursor to bit 0, nothing else; `RES` is kept (10_state R38; log entry 6). -/
def execBrReset (src : Source) (s : State) : StepResult :=
  whenIdle s fun s =>
    if Config.bufferFits src.length then .next (s.bindBit src) else .refused .sourceTooLong

/-- `BR.READBIT()` (R131). -/
def execBrReadBit (s : State) : StepResult :=
  whenIdle s fun s => .next (readBit s fun b s => answer (boolValue b) s)

/-- `BR.READBITS(n)` (R132); `n > 32` is no operation of the block (R135). -/
def execBrReadBits (n : Nat) (s : State) : StepResult :=
  whenIdle s fun s =>
    if n ≤ Config.readBitsMax then .next (readBits n s answer) else .refused .readTooWide

/-- `BR.SKIPBITS(n)` (R133). -/
def execBrSkipBits (n : Nat) (s : State) : StepResult :=
  whenIdle s fun s => .next (skipBits n s answerNoValue)

end Sys2Proof.Machine
end

