-- ==== Sys2Proof/Machine/ByteReader.lean ====
section
/-! DEFINITION. The Byte Reader commands (41_byte_reader). -/

namespace Sys2Proof.Machine

/-- `BY.BIND(S, p)` (R150): bind, cursor at byte `p`. The transaction ends as every one does but `BR.RESET`, with `RES`
written (10_state R31, R38; log entry 6): `OK`, and no value (log entry 7). -/
def execByBind (src : Source) (p : Nat) (s : State) : StepResult :=
  whenIdle s fun s =>
    if Config.bufferFits src.length then
      if p ≤ src.length then .next (answerNoValue (s.bindByte src p)) else .refused .bindPastEnd
    else .refused .sourceTooLong

/-- `BY.READU8()` (R151). -/
def execByReadU8 (s : State) : StepResult :=
  whenIdle s fun s => .next (readBytes 1 s answer)

/-- `BY.READU16()` (R152). -/
def execByReadU16 (s : State) : StepResult :=
  whenIdle s fun s => .next (readBytes 2 s answer)

/-- `BY.READI32()`, the unsigned view (R153). -/
def execByReadI32 (s : State) : StepResult :=
  whenIdle s fun s => .next (readBytes 4 s answer)

/-- `BY.POS()` (R155): the host reads the byte cursor. -/
def execByPos (s : State) : StepResult :=
  whenIdle s fun s => .next (answer s.byr.pos s)

end Sys2Proof.Machine
end

