-- ==== Sys2Proof/Machine/CharTables.lean ====
section
/-! DEFINITION. The character tables and their lookups (42_char_tables). -/

namespace Sys2Proof.Machine

/-- The basic table with `rest` for the entries the source does not fix: `'A'` to `'Z'` map to themselves and byte
`0x2A` to `0xE1` (R174). -/
def basicWith (rest : Nat → CodePoint) (i : Nat) : CodePoint :=
  if 33 ≤ i ∧ i ≤ 58 then BitVec.ofNat 21 (i + 0x20) else if i = 10 then 0xE1 else rest i

/-- The special table with `rest` for the entries the source does not fix: index 0 is `0xAE`, index 9 a space (R175). -/
def specialWith (rest : Nat → CodePoint) (i : Nat) : CodePoint :=
  if i = 0 then 0xAE else if i = 9 then 0x20 else rest i

/-- `BASIC[i]` (R170, R176); the 69 open entries are a parameter (log entry 11). -/
def basicTable (i : Nat) : CodePoint := basicWith Config.basicOpen i

/-- `SPECIAL[i]` (R170, R177); the 14 open entries are a parameter (log entry 11). -/
def specialTable (i : Nat) : CodePoint := specialWith Config.specialOpen i

/-- The entry for byte `x`, if the table has one (R171, R173). -/
def lookupBasic (x : Byte) : Option CodePoint :=
  if 0x20 ≤ x ∧ x ≤ 0x7F then some (basicTable (basicIndex x)) else none

/-- The entry for byte `y`: there always is one (R172). -/
def lookupSpecial (y : Byte) : CodePoint := specialTable (specialIndex y)

/-- `GETBASIC(x)` as a micro-operation: a value, or the fault `TableIndexRange` (R171, R173). -/
def getBasicChar (x : Byte) (s : State) (k : CodePoint → State → State) : State :=
  match lookupBasic x with
  | some c => k c s
  | none => raise .tableIndexRange s

/-- `GETBASIC(x)` as a command (R171, 45_host_commands R251). -/
def execGetBasic (x : Byte) (s : State) : StepResult :=
  whenIdle s fun s => .next (getBasicChar x s fun c s => answer c.toNat s)

/-- `GETSPECIAL(y)` as a command (R172, 45_host_commands R251). -/
def execGetSpecial (y : Byte) (s : State) : StepResult :=
  whenIdle s fun s => .next (answer (lookupSpecial y).toNat s)

end Sys2Proof.Machine
end

