-- ==== Sys2Proof/Machine/CaptionDecoder.lean ====
section
/-! DEFINITION. The Caption Decoder (44_caption_decoder): the command `CC_PARSE` as R229 writes it, and the stream items
it reads, one at a time. -/

namespace Sys2Proof.Machine

/-! ## Effects shared by the command and the items -/

/-- A transaction of `CC_PARSE` with `size > 0` starts (R211, R212): the operands are taken, `ACC` is cleared, the Bit
Reader bound to `buffer`. The other registers of `W` are unspecified from here until the transaction writes them
(10_state R36, R38): free values (log entry 5). -/
def beginCaption (buffer : Source) (size : SizeWord) (ts : Timestamp) (s : State) : State :=
  (((s.dropW.setW { s.dropW.w with size := size, ts := ts }).setAcc []).bindBit buffer).setPhase .ccHeader

/-- `ENTRY(i)` while entries remain, then `FINAL` (R214, 10_state R29). -/
def entryOrFinal (i count : Nat) : Phase := if i < count then .ccEntry else .ccFinal

/-- The header is read: the loop starts at entry 0 (R213, R214). -/
def startEntries (count : BitVec 5) (s : State) : State :=
  (s.setW { s.w with ccCount := count, i := 0 }).setPhase (entryOrFinal 0 count.toNat)

/-- An entry is done: the next one, or `FINAL` after the last (R214). -/
def nextEntry (s : State) : State :=
  (s.setW { s.w with i := s.w.i + 1 }).setPhase (entryOrFinal (s.w.i.toNat + 1) s.w.ccCount.toNat)

/-- Emit a `Control` event with both values unchanged (R223, 30_encoding R108). -/
def emitControl (d1 d2 : BitVec 7) (s : State) : State :=
  s.emit (.control (dataByte d1) (dataByte d2) s.w.ts)

/-- `PAIR.SPECIAL` (R222). -/
def specialPair (d2 : BitVec 7) (s : State) : State := appendChar (lookupSpecial (dataByte d2)) s

/-- `PAIR.CONTROL` (R223): flush, then the event. -/
def controlPair (d1 d2 : BitVec 7) (s : State) : State := emitControl d1 d2 (flush s)

/-- `PAIR.BASIC` (R224): one character, and a second unless `ccData2 = 0`; a second value below `0x20` has no table
entry and faults, after the first character was appended. -/
def basicPair (d1 d2 : BitVec 7) (s : State) (k : State → State) : State :=
  getBasicChar (dataByte d1) s fun c s =>
  let s := appendChar c s
  if d2 = 0 then k s else
  getBasicChar (dataByte d2) s fun c s => k (appendChar c s)

/-! ## The command -/

/-- Interpret a pair: the first condition that holds (R220). -/
def interpretPair (d1 d2 : BitVec 7) (s : State) (k : State → State) : State :=
  if d1 = 0 ∧ d2 = 0 then k s
  else if d1 = 0x11 ∧ d2 &&& 0x70 = 0x30 then k (specialPair d2 s)
  else if d1 < 0x20 then k (controlPair d1 d2 s)
  else basicPair d1 d2 s k

/-- `CC.ENTRY`, one iteration of the loop (R215), then `k`. -/
def parseEntry (s : State) (k : State → State) : State :=
  skipBits 5 s fun s =>
  readBit s fun v s =>
  let s := s.setW { s.w with ccValid := if v then 1 else 0 }
  if !validFlag s.w.ccValid then skipBits 18 s k else
  readBits 2 s fun t s =>
  let s := s.setW { s.w with ccType := BitVec.ofNat 2 t }
  if otherField s.w.ccType then skipBits 16 s k else
  skipBits 1 s fun s =>
  readBits 7 s fun d1 s =>
  let s := s.setW { s.w with ccData1 := BitVec.ofNat 7 d1 }
  skipBits 1 s fun s =>
  readBits 7 s fun d2 s =>
  let s := s.setW { s.w with ccData2 := BitVec.ofNat 7 d2 }
  interpretPair (BitVec.ofNat 7 d1) (BitVec.ofNat 7 d2) s k

/-- The loop over `n` entries and step 7 (R214, R227). -/
def parseEntries : Nat → State → State
  | 0, s => finishCaption s
  | n + 1, s => parseEntry s fun s => parseEntries n (nextEntry s)

/-- Steps 3 to 7 (R213, R229). -/
def parseCaption (s : State) : State :=
  skipBits 3 s fun s =>
  readBits 5 s fun n s =>
  skipBits 8 s fun s =>
  parseEntries n (startEntries (BitVec.ofNat 5 n) s)

/-- `CC_PARSE(buffer, size, timestamp)` (R210, R229): one transaction, run to its end. With `size ≤ 0` only `RES` is
written (R211). -/
def execCcParse (buffer : Source) (size : SizeWord) (ts : Timestamp) (s : State) : StepResult :=
  whenIdle s fun s =>
    if sizeNotPositive size then .next (s.setRes ⟨.ok, .none, 0⟩)
    else if Config.bufferFits buffer.length then .next (parseCaption (beginCaption buffer size ts s))
    else .refused .sourceTooLong

/-! ## The stream items -/

/-- `CC.HDR` (R213). -/
def execCcHdr (_r : BitVec 3) (ccCount : BitVec 5) (_m : BitVec 8) (s : State) : StepResult :=
  inPhase .ccHeader s fun s => takeBits headerWidths s (startEntries ccCount)

/-- An entry of another type: `ccValid` and `ccType` are read, the rest skipped (R217). -/
def otherEntry (t : BitVec 2) (s : State) : State :=
  takeBits otherWidths s fun s => nextEntry (s.setW { s.w with ccValid := 1, ccType := t })

/-- A field-1 entry: its 24 bits are read, then the pair is interpreted by `k` (R218). -/
def field1Entry (d1 d2 : BitVec 7) (s : State) (k : State → State) : State :=
  takeBits field1Widths s fun s =>
    k (s.setW { s.w with ccValid := 1, ccType := 0, ccData1 := d1, ccData2 := d2 })

/-- `ENTRY.INVALID` (R216). -/
def execEntryInvalid (_mk : BitVec 5) (_t : BitVec 2) (_p1 : BitVec 1) (_d1 : BitVec 7) (_p2 : BitVec 1) (_d2 : BitVec 7)
    (s : State) : StepResult :=
  inPhase .ccEntry s fun s =>
    takeBits invalidWidths s fun s => nextEntry (s.setW { s.w with ccValid := 0 })

/-- `ENTRY.OTHER` with `ccType = 1` (R217). -/
def execEntryOther1 (_mk : BitVec 5) (_p1 : BitVec 1) (_d1 : BitVec 7) (_p2 : BitVec 1) (_d2 : BitVec 7) (s : State) :
    StepResult :=
  inPhase .ccEntry s (otherEntry 1)

/-- `ENTRY.OTHER` with `ccType = 2` (R217). -/
def execEntryOther2 (_mk : BitVec 5) (_p1 : BitVec 1) (_d1 : BitVec 7) (_p2 : BitVec 1) (_d2 : BitVec 7) (s : State) :
    StepResult :=
  inPhase .ccEntry s (otherEntry 2)

/-- `ENTRY.OTHER` with `ccType = 3` (R217). -/
def execEntryOther3 (_mk : BitVec 5) (_p1 : BitVec 1) (_d1 : BitVec 7) (_p2 : BitVec 1) (_d2 : BitVec 7) (s : State) :
    StepResult :=
  inPhase .ccEntry s (otherEntry 3)

/-- `PAIR.PAD` (R221): the 24 bits, nothing else. -/
def execPairPad (_mk : BitVec 5) (_p1 : BitVec 1) (_p2 : BitVec 1) (s : State) : StepResult :=
  inPhase .ccEntry s fun s => field1Entry 0 0 s nextEntry

/-- `PAIR.SPECIAL` (R222): `ccData2 = 0x30 + k`. -/
def execPairSpecial (_mk : BitVec 5) (_p1 : BitVec 1) (_p2 : BitVec 1) (k : BitVec 4) (s : State) : StepResult :=
  inPhase .ccEntry s fun s => field1Entry 0x11 (0b011#3 ++ k) s fun s => nextEntry (specialPair (0b011#3 ++ k) s)

/-- `PAIR.CONTROL` (R223). -/
def execPairControl (_mk : BitVec 5) (_p1 : BitVec 1) (d1 : BitVec 7) (_p2 : BitVec 1) (d2 : BitVec 7) (s : State) :
    StepResult :=
  inPhase .ccEntry s fun s => field1Entry d1 d2 s fun s => nextEntry (controlPair d1 d2 s)

/-- `PAIR.BASIC` with one character (R224). -/
def execPairBasic1 (_mk : BitVec 5) (_p1 : BitVec 1) (d1 : BitVec 7) (_p2 : BitVec 1) (s : State) : StepResult :=
  inPhase .ccEntry s fun s => field1Entry d1 0 s fun s => basicPair d1 0 s nextEntry

/-- `PAIR.BASIC` with two characters, the second in `0x40 .. 0x7F` (R224). -/
def execPairBasic2A (_mk : BitVec 5) (_p1 : BitVec 1) (d1 : BitVec 7) (_p2 : BitVec 1) (d2 : BitVec 7) (s : State) :
    StepResult :=
  inPhase .ccEntry s fun s => field1Entry d1 d2 s fun s => basicPair d1 d2 s nextEntry

/-- `PAIR.BASIC` with two characters, the second in `0x20 .. 0x3F` (R224). -/
def execPairBasic2B (_mk : BitVec 5) (_p1 : BitVec 1) (d1 : BitVec 7) (_p2 : BitVec 1) (d2 : BitVec 7) (s : State) :
    StepResult :=
  inPhase .ccEntry s fun s => field1Entry d1 d2 s fun s => basicPair d1 d2 s nextEntry

/-- A basic pair whose second value has no table entry (30_encoding R102; R224, R231): the fault `TableIndexRange` is
taken, and the first character is discarded with the rest of `ACC`. -/
def execPairIllegal (_mk : BitVec 5) (_p1 : BitVec 1) (d1 : BitVec 7) (_p2 : BitVec 1) (d2 : BitVec 7) (s : State) :
    StepResult :=
  inPhase .ccEntry s fun s => field1Entry d1 d2 s fun s => basicPair d1 d2 s nextEntry

end Sys2Proof.Machine
end

