-- ==== Sys2Proof/Machine/HostCommands.lean ====
section
/-! DEFINITION. The capability predicate (45_host_commands R256). -/

namespace Sys2Proof.Machine

/-- `format_id = SUPPORTED_FORMAT_ID`, exact equality of strings (R256). The identifier is open (log entry 12). -/
def canParse (formatId : String) : Bool := decide (formatId = Config.supportedFormatId)

/-- `CAN_PARSE(format_id)` (R256): true is 1 (log entry 8). -/
def execCanParse (formatId : String) (s : State) : StepResult :=
  whenIdle s fun s => .next (answer (boolValue (canParse formatId)) s)

end Sys2Proof.Machine
end

