-- ==== Sys2Proof/Machine/SeiHeader.lean ====
section
/-! DEFINITION. The SEI Header Parser (43_sei_header): the command `SEI_PARSE` as R192 writes it, and the stream items it
reads, one at a time. -/

namespace Sys2Proof.Machine

/-! ## The command -/

/-- A transaction of `SEI_PARSE` starts: the type field is read first, its accumulator at 0 (R191, R192). The other header
registers hold nothing until the transaction writes them (10_state R27, R36): free values (log entry 5). -/
def beginSei (s : State) : State := (s.setPhase .seiType).dropHdr.setHdr { s.dropHdr.hdr with payloadType := 0 }

/-- The bytes left to the Byte Reader. -/
def bytesLeft (s : State) : Nat := s.byr.len - s.byr.pos

/-- `READEXT()` (R191): add bytes up to and with the first that is not `0xFF`. `fuel` is the number of bytes left; with
none left the read of the next byte is an underrun. -/
def readExt : Nat → Nat → State → (Nat → State → State) → State
  | 0, _, s, _ => raise .byteUnderrun s
  | fuel + 1, acc, s, k =>
    readBytes 1 s fun v s =>
      let b := BitVec.ofNat 8 v
      let s := s.setHdr { s.hdr with b := b }
      if continues b then readExt fuel (acc + v) s k else k (acc + v) s

/-- Step 3 of `SEI_PARSE` (R195): four fields, each read whole and then compared, the first unequal one ending the
operation; then step 4 (R196). -/
def readSignature (s : State) : State :=
  readBytes 1 s fun v s =>
  let s := s.setHdr { s.hdr with countryCode := BitVec.ofNat 8 v }
  if v ≠ 0xB5 then returnSei 0 s else
  readBytes 2 s fun v s =>
  let s := s.setHdr { s.hdr with providerCode := BitVec.ofNat 16 v }
  if v ≠ 0x0031 then returnSei 0 s else
  readBytes 4 s fun v s =>
  let s := s.setHdr { s.hdr with userIdentifier := BitVec.ofNat 32 v }
  if v ≠ 0x47413934 then returnSei 0 s else
  readBytes 1 s fun v s =>
  let s := s.setHdr { s.hdr with userDataTypeCode := BitVec.ofNat 8 v }
  if v ≠ 3 then returnSei 0 s else
  returnSei s.hdr.payloadSize s

/-- The whole operation (R192). -/
def parseSei (s : State) : State :=
  readExt (bytesLeft s) 0 s fun v s =>
  let s := s.setHdr { s.hdr with payloadType := v }
  if v ≠ 4 then returnSei 0 s else
  readExt (bytesLeft s) 0 s fun v s =>
  let s := s.setHdr { s.hdr with payloadSize := v }
  if v ≤ 0 then returnSei 0 s else
  readSignature s

/-- `SEI_PARSE()` (R192, 45_host_commands R253): one transaction, run to its end. -/
def execSeiParse (s : State) : StepResult :=
  whenIdle s fun s => .next (parseSei (beginSei s))

/-! ## The stream items -/

/-- Add an extended-value byte to the field being read (R191); `payload_type` and `payload_size` are their own
accumulators (10_state R27; log entry 17). -/
def addToField (b : Byte) (s : State) : State :=
  match s.phase with
  | .seiType => s.setHdr { s.hdr with b := b, payloadType := s.hdr.payloadType + b.toNat }
  | _ => s.setHdr { s.hdr with b := b, payloadSize := s.hdr.payloadSize + b.toNat }

/-- The field is complete: test it, and go on to the next one (R193, R194). -/
def endField (s : State) : State :=
  match s.phase with
  | .seiType =>
    if s.hdr.payloadType ≠ 4 then returnSei 0 s
    else (s.setPhase .seiSize).setHdr { s.hdr with payloadSize := 0 }
  | _ => if s.hdr.payloadSize ≤ 0 then returnSei 0 s else s.setPhase .seiSignature

/-- An extended-value byte is met while a type or size field is being read. -/
def inField (s : State) (k : State → State) : StepResult :=
  if s.phase = .seiType ∨ s.phase = .seiSize then .next (k s) else .refused .itemOutOfPhase

/-- `EXT.CONT` (R191): add 255, read on. -/
def execExtCont (s : State) : StepResult :=
  inField s fun s => takeBytes 1 s fun s => addToField 0xFF s

/-- `EXT.LAST` (R191): add `b`, the field ends. -/
def execExtLast (b : BitVec 8) (s : State) : StepResult :=
  inField s fun s => takeBytes 1 s fun s => endField (addToField b s)

/-- The signature fields, read one by one with early exit (R195, R197). -/
def takeSignature (c : BitVec 8) (p : BitVec 16) (u : BitVec 32) (t : BitVec 8) (s : State) : State :=
  takeBytes 1 s fun s =>
  let s := s.setHdr { s.hdr with countryCode := c }
  if c ≠ 0xB5 then returnSei 0 s else
  takeBytes 2 s fun s =>
  let s := s.setHdr { s.hdr with providerCode := p }
  if p ≠ 0x0031 then returnSei 0 s else
  takeBytes 4 s fun s =>
  let s := s.setHdr { s.hdr with userIdentifier := u }
  if u ≠ 0x47413934 then returnSei 0 s else
  takeBytes 1 s fun s =>
  let s := s.setHdr { s.hdr with userDataTypeCode := t }
  if t ≠ 3 then returnSei 0 s else
  returnSei s.hdr.payloadSize s

/-- `SEIHDR.MATCH` (R195, R196): the size read in step 2 is returned, the signature's bytes included in it. -/
def execSeihdrMatch (s : State) : StepResult :=
  inPhase .seiSignature s fun s => takeSignature 0xB5 0x0031 0x47413934 3 s

/-- `SEIHDR.MISMATCH` (R195, R199): the sentinel 0 at the first unequal field. -/
def execSeihdrMismatch (c : BitVec 8) (p : BitVec 16) (u : BitVec 32) (t : BitVec 8) (s : State) : StepResult :=
  inPhase .seiSignature s fun s => takeSignature c p u t s

end Sys2Proof.Machine
end

