-- ==== Sys2Proof/Machine/Dispatch.lean ====
section
/-! DEFINITION. The meaning of every instruction, one arm per row of spec/opcode_table.json. -/

namespace Sys2Proof.Machine

def exec (i : Instr) (s : State) : Host.Outcome State Fault Refusal :=
  match i with
  -- stream items of SEI_PARSE (43_sei_header)
  | .extCont => Sys2Proof.Machine.execExtCont s
  | .extLast b => Sys2Proof.Machine.execExtLast b s
  | .seihdrMatch => Sys2Proof.Machine.execSeihdrMatch s
  | .seihdrMismatch c p u t => Sys2Proof.Machine.execSeihdrMismatch c p u t s
  -- stream items of CC_PARSE (44_caption_decoder)
  | .ccHdr r n m => Sys2Proof.Machine.execCcHdr r n m s
  | .entryInvalid mk t p1 d1 p2 d2 => Sys2Proof.Machine.execEntryInvalid mk t p1 d1 p2 d2 s
  | .entryOther1 mk p1 d1 p2 d2 => Sys2Proof.Machine.execEntryOther1 mk p1 d1 p2 d2 s
  | .entryOther2 mk p1 d1 p2 d2 => Sys2Proof.Machine.execEntryOther2 mk p1 d1 p2 d2 s
  | .entryOther3 mk p1 d1 p2 d2 => Sys2Proof.Machine.execEntryOther3 mk p1 d1 p2 d2 s
  | .pairPad mk p1 p2 => Sys2Proof.Machine.execPairPad mk p1 p2 s
  | .pairSpecial mk p1 p2 k => Sys2Proof.Machine.execPairSpecial mk p1 p2 k s
  | .pairControl mk p1 d1 p2 d2 => Sys2Proof.Machine.execPairControl mk p1 d1 p2 d2 s
  | .pairBasic1 mk p1 d1 p2 => Sys2Proof.Machine.execPairBasic1 mk p1 d1 p2 s
  | .pairBasic2A mk p1 d1 p2 d2 => Sys2Proof.Machine.execPairBasic2A mk p1 d1 p2 d2 s
  | .pairBasic2B mk p1 d1 p2 d2 => Sys2Proof.Machine.execPairBasic2B mk p1 d1 p2 d2 s
  | .pairIllegal mk p1 d1 p2 d2 => Sys2Proof.Machine.execPairIllegal mk p1 d1 p2 d2 s
  -- host commands (45_host_commands R251)
  | .brReset src => Sys2Proof.Machine.execBrReset src s
  | .brReadBit => Sys2Proof.Machine.execBrReadBit s
  | .brReadBits n => Sys2Proof.Machine.execBrReadBits n s
  | .brSkipBits n => Sys2Proof.Machine.execBrSkipBits n s
  | .byBind src p => Sys2Proof.Machine.execByBind src p s
  | .byReadU8 => Sys2Proof.Machine.execByReadU8 s
  | .byReadU16 => Sys2Proof.Machine.execByReadU16 s
  | .byReadI32 => Sys2Proof.Machine.execByReadI32 s
  | .byPos => Sys2Proof.Machine.execByPos s
  | .getBasic x => Sys2Proof.Machine.execGetBasic x s
  | .getSpecial y => Sys2Proof.Machine.execGetSpecial y s
  | .seiParse => Sys2Proof.Machine.execSeiParse s
  | .ccParse buffer size ts => Sys2Proof.Machine.execCcParse buffer size ts s
  | .canParse formatId => Sys2Proof.Machine.execCanParse formatId s

end Sys2Proof.Machine
end

