-- ==== Sys2Proof/Machine/Step.lean ====
section
/-! DEFINITION. One step. Between transactions it takes the host's next command (45_host_commands R250, R252); with none
to take, the block waits (70_reset_and_hazards R310). Inside a transaction it runs the stream item at the cursor of the
phase (10_state R28, R29); in `FINAL` it performs step 7 of `CC_PARSE`. -/

namespace Sys2Proof.Machine

def step (s : State) : Host.Outcome State Fault Refusal :=
  match phaseFormat s.phase with
  | some f =>
    match fetchItem f s with
    | .ok i => exec i s
    | .error _ => .refused .undecodable
  | none =>
    if s.phase = .ccFinal then .next (finishCaption s)
    else
      match s.cmds with
      | [] => .next s
      | i :: rest => if i.isCommand then exec i (s.setCmds rest) else .refused .notACommand

/-- `s` with one stream item placed where `step` fetches next: the item's bytes bound to the reader of its format, the
cursor at it, and the phase that reads it with the count and the accumulators that phase goes with (log entry 20). A
host command has no bits to place (45_host_commands R250): no width of the table names one, and `s` is unchanged. -/
def State.withFetchWord (s : State) (nbits w : Nat) : State :=
  match formatOfBits nbits with
  | none => s
  | some .ext8 => ((s.bindByte (bytesOf 1 w) 0).setHdr { s.hdr with payloadType := 0 }).setPhase .seiType
  | some .sig64 =>
    ((s.bindByte ([0x04, 0x08] ++ bytesOf 8 w) 2).setHdr { s.hdr with payloadType := 4, payloadSize := 8 }).setPhase
      .seiSignature
  | some .ccHdr16 => (s.bindBit (bytesOf 2 w)).setPhase .ccHeader
  | some .entry24 =>
    (((s.bindBit ([0x01, 0x00] ++ bytesOf 3 w)).moveBit 16).setW { s.w with ccCount := 1, i := 0 }).setPhase .ccEntry

end Sys2Proof.Machine
end

