-- ==== Sys2Proof/Safety.lean ====
section
/-! DEFINITION. What a good state is, in the terms claims use: the bounds of the readers (10_state R21 to R24), what each
phase keeps (10_state R28, R29), the bound of `ACC` (44_caption_decoder R226) and the form of events (30_encoding R108,
R109). -/

namespace Sys2Proof.Machine

/-- A source within `MAX_BUF_BYTES` (00_scope R7): the well-formedness of the memory a reader reads. A source is a list
of bytes, so equal sources are equal data and nothing else has to be kept canonical (log entry 14). -/
abbrev Memory.wf (src : Source) : Prop := Config.bufferFits src.length = true

/-- Both cursors lie within their sources, and both sources within the bound (10_state R21 to R24). -/
def State.ReadersInv (s : State) : Prop :=
  Memory.wf s.br.src ∧ s.br.pos ≤ 8 * s.br.len ∧ Memory.wf s.byr.src ∧ s.byr.pos ≤ s.byr.len

/-- What holds in each phase: `ACC` is empty outside the loop (45_host_commands R254), the accumulators of the header
parser are bounded by the bytes read (00_scope R12 (a)), and in the loop the bit cursor is at `16 + 24·i` with at most
two characters collected per entry (44_caption_decoder R219, R226). -/
def State.PhaseInv (s : State) : Prop :=
  match s.phase with
  | .idle => s.acc = []
  | .seiType => s.acc = [] ∧ s.hdr.payloadType ≤ 255 * s.byr.pos
  | .seiSize => s.acc = [] ∧ s.hdr.payloadType = 4 ∧ s.hdr.payloadSize ≤ 255 * s.byr.pos
  | .seiSignature =>
    s.acc = [] ∧ s.hdr.payloadType = 4 ∧ 0 < s.hdr.payloadSize ∧ s.hdr.payloadSize ≤ 255 * s.byr.pos
  | .ccHeader => s.acc = [] ∧ s.br.pos = 0
  | .ccEntry =>
    s.w.i.toNat < s.w.ccCount.toNat ∧ s.br.pos = 16 + 24 * s.w.i.toNat ∧ s.acc.length ≤ 2 * s.w.i.toNat
  | .ccFinal =>
    s.w.i = s.w.ccCount ∧ s.br.pos = 16 + 24 * s.w.i.toNat ∧ s.acc.length ≤ 2 * s.w.i.toNat

/-- An event as the block emits it: text of 1 to 62 code points, a control pair with `byte1 < 0x20` and both bytes
below `0x80` (30_encoding R108, R109). -/
def Event.wf : Event → Prop
  | .text content _ => content ≠ [] ∧ content.length ≤ Config.accCap
  | .control byte1 byte2 _ => byte1.toNat < 0x20 ∧ byte2.toNat < 0x80

/-- Every event of `OUT` has that form. -/
def State.OutInv (s : State) : Prop := ∀ e ∈ s.out, e.wf

/-- The accumulators of the header parser fit their registers (10_state R27, 00_scope R12 (a)). -/
def State.HeaderInv (s : State) : Prop := s.hdr.payloadType < 2 ^ 31 ∧ s.hdr.payloadSize < 2 ^ 31

/-- The invariant every step keeps. -/
def State.Inv (s : State) : Prop := s.ReadersInv ∧ s.PhaseInv ∧ s.HeaderInv ∧ s.OutInv

/-- A `Text` event (30_encoding R108). -/
def Event.isText : Event → Bool
  | .text .. => true
  | .control .. => false

/-- No two neighbouring events are both `Text` (44_caption_decoder R228). -/
def noAdjacentText : List Event → Bool
  | a :: b :: es => !(a.isText && b.isText) && noAdjacentText (b :: es)
  | _ => true

/-! ## The spec's own words as functions, for claims to compare the machine with -/

/-- The state after an entry of 24 bits that left the working registers at `w` but for `i` (44_caption_decoder R214,
R219): the cursor 24 bits on, one more entry consumed, and `FINAL` next if it was the last. -/
def State.pastEntry (s : State) (w : CaptionRegs) : State :=
  { s with
    br := ⟨s.br.src, s.br.pos + 24⟩
    w := { w with i := s.w.i + 1 }
    phase := if s.w.i.toNat + 1 < s.w.ccCount.toNat then .ccEntry else .ccFinal }

/-- What a flush emits: the collected text if there is any (44_caption_decoder R225). -/
def textEvents (acc : List CodePoint) (ts : Timestamp) : List Event := if acc = [] then [] else [.text acc ts]

/-- The bytes of an extended value with `k` continuation bytes (30_encoding R91). -/
def extBytes (k : Nat) (b : Byte) : Source := List.replicate k 0xFF ++ [b]

/-- The eight signature bytes of a caption header (30_encoding R93). -/
def signatureBytes : Source := [0xB5, 0x00, 0x31, 0x47, 0x41, 0x39, 0x34, 0x03]

/-- A pair read as two bytes below `0x80` (44_caption_decoder R220 to R224): the text after it and the events it emits;
none when it faults. -/
def bytePair (ts : Timestamp) (x y : Byte) (acc : List CodePoint) : Option (List CodePoint × List Event) :=
  if x = 0 ∧ y = 0 then some (acc, [])
  else if x = 0x11 ∧ y &&& 0x70 = 0x30 then some (acc ++ [specialTable (y &&& 0x0F).toNat], [])
  else if x < 0x20 then some ([], textEvents acc ts ++ [.control x y ts])
  else if y = 0 then some (acc ++ [basicTable (x.toNat - 0x20)], [])
  else if y < 0x20 then none
  else some (acc ++ [basicTable (x.toNat - 0x20), basicTable (y.toNat - 0x20)], [])

/-- An entry read as three bytes (44_caption_decoder R230). -/
def byteEntry (ts : Timestamp) (b0 b1 b2 : Byte) (acc : List CodePoint) : Option (List CodePoint × List Event) :=
  if b0 &&& 0x04 = 0 then some (acc, [])
  else if b0 &&& 0x03 ≠ 0 then some (acc, [])
  else bytePair ts (b1 &&& 0x7F) (b2 &&& 0x7F) acc

/-- What the byte-level reading gives: the events, the entries consumed, and whether no table lookup faulted. -/
structure ByteReading where
  events   : List Event
  entries  : Nat
  complete : Bool
  deriving DecidableEq, Repr

/-- The fold over `n` entries of three bytes, and the final flush (44_caption_decoder R227, R230). A list that ends
before the `n`-th entry is not given a reading here. -/
def byteEntries (ts : Timestamp) : Nat → Source → List CodePoint → ByteReading
  | 0, _, acc => ⟨textEvents acc ts, 0, true⟩
  | n + 1, b0 :: b1 :: b2 :: bs, acc =>
    match byteEntry ts b0 b1 b2 acc with
    | none => ⟨[], 1, false⟩
    | some (acc', es) =>
      let rest := byteEntries ts n bs acc'
      ⟨es ++ rest.events, rest.entries + 1, rest.complete⟩
  | _ + 1, _, _ => ⟨[], 0, false⟩

/-- `ccCount` of a buffer read as bytes: `buffer[0] & 0x1F` (30_encoding R94). -/
def byteCount (buffer : Source) : Nat := (buffer.getD 0 0 &&& 0x1F).toNat

/-- The bits of byte `j` of a caption buffer that are not ignored (30_encoding R101): of the header the count; of an
entry `ccValid`, of a valid one `ccType` too, of a valid field-1 one both data values too. -/
def readMask (src : Source) (j : Nat) : Byte :=
  if j = 0 then 0x1F
  else if j = 1 then 0x00
  else
    let head := src.getD (2 + 3 * ((j - 2) / 3)) 0
    if j % 3 = 2 then (if head &&& 0x04 = 0 then 0x04 else 0x07)
    else if head &&& 0x07 = 0x04 then 0x7F
    else 0x00

/-- Two buffers that differ in ignored bits only (30_encoding R101). -/
def SameReadBits (a b : Source) : Prop :=
  a.length = b.length ∧ ∀ j, j < a.length → a.getD j 0 &&& readMask a j = b.getD j 0 &&& readMask a j

/-- The widths of the reads and skips that consume an item of `CC_PARSE`, in stream order (44_caption_decoder R213, R216
to R218); none for the other instructions. -/
def captionWidths : Instr → Option (List Nat)
  | .ccHdr .. => some headerWidths
  | .entryInvalid .. => some invalidWidths
  | .entryOther1 .. | .entryOther2 .. | .entryOther3 .. => some otherWidths
  | .pairPad .. | .pairSpecial .. | .pairControl .. | .pairBasic1 .. => some field1Widths
  | .pairBasic2A .. | .pairBasic2B .. | .pairIllegal .. => some field1Widths
  | .extCont | .extLast .. | .seihdrMatch | .seihdrMismatch .. => none
  | .brReset .. | .brReadBit | .brReadBits .. | .brSkipBits .. => none
  | .byBind .. | .byReadU8 | .byReadU16 | .byReadI32 | .byPos => none
  | .getBasic .. | .getSpecial .. | .seiParse | .ccParse .. | .canParse .. => none

/-- What is consumed of successive requests when `left` remains: those before the first that exceeds what is left
(44_caption_decoder R231, 43_sei_header R198). -/
def admitted : List Nat → Nat → Nat
  | [], _ => 0
  | n :: ns, left => if n ≤ left then n + admitted ns (left - n) else 0

/-- The bytes of each field of the signature (43_sei_header R195). -/
def signatureWidths : List Nat := [1, 2, 4, 1]

/-- The bytes that the header parser reads of a signature: up to and with the first field that differs from what is
required, all eight if none does (43_sei_header R195, R197). -/
def signatureEnd (c : BitVec 8) (p : BitVec 16) (u : BitVec 32) : Nat :=
  if c ≠ 0xB5 then 1 else if p ≠ 0x0031 then 3 else if u ≠ 0x47413934 then 7 else 8

end Sys2Proof.Machine
end

