-- ==== Sys2Proof/Certificates/Slice0/Obligations.lean ====
section
/-! DEFINITION. The statements about the model. Each docstring names the rule of spec/ it follows, and says where a clause
is the model's choice (a log entry) or an inference the spec marks as its own. A next state is given whole where it can
be: `{ s with … }` says that every other field is unchanged, and `w := t.w` (with `draws := t.draws`) leaves a register
that the spec leaves unspecified unconstrained. -/

open Sys2Proof Sys2Proof.Machine

/-! ## Encoding -/

/-- 30_encoding R91 to R98: decoding the bytes of a well-formed item, whatever follows them, gives the item back and what
follows. No bit of an item is dropped. -/
def Obligations.DecodeEncodeAgree : Prop :=
  ∀ (i : Instr) (f : ItemFormat) (bs rest : Source),
    i.wf = true → encode i = some (f, bs) → decode f (bs ++ rest) = .ok (i, rest)

/-- 30_encoding R96, R97: what the decoder gives is well-formed, and its encoding is the bytes it was read from: no two
byte patterns are read as one item. -/
def Obligations.EncodeDecodeAgree : Prop :=
  ∀ (f : ItemFormat) (bs rest : Source) (i : Instr),
    decode f bs = .ok (i, rest) → i.wf = true ∧ ∃ item, bs = item ++ rest ∧ encode i = some (f, item)

/-- 30_encoding R97, R106: the rows of each format select every value, and fewer bytes than the format has are refused. -/
def Obligations.EveryItemValueDecodes : Prop :=
  ∀ (f : ItemFormat) (bs : Source),
    (f.bytes ≤ bs.length → ∃ i, decode f bs = .ok (i, bs.drop f.bytes)) ∧
    (bs.length < f.bytes → decode f bs = .error .tooShort)

/-- 30_encoding R97, R98, R106: over all 24-bit values the first matching row of the table is the class that the fields
of the entry select, with the ignored fields carried along. -/
def Obligations.EntryTableMatchesPairMap : Prop :=
  ∀ e : BitVec 24,
    let mk := e.extractLsb' 19 5
    let p1 := e.extractLsb' 15 1
    let d1 := e.extractLsb' 8 7
    let p2 := e.extractLsb' 7 1
    let d2 := e.extractLsb' 0 7
    firstRow entry24Rows e =
      some
        (if e.getLsbD 18 = false then .entryInvalid mk (e.extractLsb' 16 2) p1 d1 p2 d2
        else if e.extractLsb' 16 2 = 1 then .entryOther1 mk p1 d1 p2 d2
        else if e.extractLsb' 16 2 = 2 then .entryOther2 mk p1 d1 p2 d2
        else if e.extractLsb' 16 2 = 3 then .entryOther3 mk p1 d1 p2 d2
        else if d1 = 0 ∧ d2 = 0 then .pairPad mk p1 p2
        else if d1 = 0x11 ∧ 0x30 ≤ d2 ∧ d2 ≤ 0x3F then .pairSpecial mk p1 p2 (d2.extractLsb' 0 4)
        else if d1 < 0x20 then .pairControl mk p1 d1 p2 d2
        else if d2 = 0 then .pairBasic1 mk p1 d1 p2
        else if 0x40 ≤ d2 then .pairBasic2A mk p1 d1 p2 d2
        else if 0x20 ≤ d2 then .pairBasic2B mk p1 d1 p2 d2
        else .pairIllegal mk p1 d1 p2 d2)

/-- Words written out from 30_encoding R93, R94, R96 and the examples of 44_caption_decoder decode to what they stand
for. -/
def Obligations.SpecWordsDecode : Prop :=
  decodeTableWord 8 0xFF = some .extCont ∧
  decodeTableWord 8 0x04 = some (.extLast 0x04) ∧
  decodeTableWord 64 0xB500314741393403 = some .seihdrMatch ∧
  decodeTableWord 64 0xB400314741393403 = some (.seihdrMismatch 0xB4 0x0031 0x47413934 3) ∧
  decodeTableWord 16 0xC3FF = some (.ccHdr 0b110 3 0xFF) ∧
  decodeTableWord 24 0x004849 = some (.entryInvalid 0 0 0 0x48 0 0x49) ∧
  decodeTableWord 24 0x05142C = some (.entryOther1 0 0 0x14 0 0x2C) ∧
  decodeTableWord 24 0xFC8080 = some (.pairPad 0b11111 1 1) ∧
  decodeTableWord 24 0x041130 = some (.pairSpecial 0 0 0 0) ∧
  decodeTableWord 24 0xFC94AC = some (.pairControl 0b11111 1 0x14 1 0x2C) ∧
  decodeTableWord 24 0x045800 = some (.pairBasic1 0 0 0x58 0) ∧
  decodeTableWord 24 0xFCC849 = some (.pairBasic2A 0b11111 1 0x48 0 0x49) ∧
  decodeTableWord 24 0x042020 = some (.pairBasic2B 0 0 0x20 0 0x20) ∧
  decodeTableWord 24 0x04411F = some (.pairIllegal 0 0 0x41 0 0x1F)

/-- 20_memory R63: a byte-aligned read of `8n` bits gives the same integer as the big-endian read of the `n` bytes. -/
def Obligations.BitAndByteReadsAgree : Prop :=
  ∀ (src : Source) (a n : Nat), a + n ≤ src.length → srcBits src (8 * a) (8 * n) = memRead src a n

/-! ## The step -/

/-- 10_state R28, R29: inside a transaction, when the bytes at the cursor that the phase reads decode to an item `i`, the
step is `exec i`. The Byte Reader's cursor is read for the two header formats, the Bit Reader's (at a byte boundary, as
R28 says it is) for the two caption formats. -/
def Obligations.StepRunsStreamItem : Prop :=
  ∀ (s : State) (f : ItemFormat) (i : Instr) (rest : Source), phaseFormat s.phase = some f →
    (f = .ext8 ∨ f = .sig64 → decode f (s.byr.src.drop s.byr.pos) = .ok (i, rest) → step s = exec i s) ∧
    (f = .ccHdr16 ∨ f = .entry24 →
      ∀ a, s.br.pos = 8 * a → decode f (s.br.src.drop a) = .ok (i, rest) → step s = exec i s)

/-- 45_host_commands R250, R252, and log entry 2: between transactions the step takes the host's next command out of the
list and runs it; with no command the block waits. -/
def Obligations.StepTakesHostCommand : Prop :=
  ∀ s : State, s.phase = .idle →
    (s.cmds = [] → step s = .next s) ∧
    (∀ i rest, s.cmds = i :: rest → i.isCommand = true → step s = exec i { s with cmds := rest })

/-- 44_caption_decoder R225, R227, R229: in `FINAL` (10_state R29) the collected text, if any, is emitted with the call's
timestamp, `ACC` is cleared and the transaction ends with `RES = (OK, NONE, 0)`. That step 7 is a step of its own is the
model's finer view of a transaction (log entry 1). -/
def Obligations.FinalPhaseFlushes : Prop :=
  ∀ s : State, s.phase = .ccFinal →
    ∃ t, step s = .next t ∧
      t = { s with
        out := s.out ++ textEvents s.acc s.w.ts
        acc := []
        res := ⟨.ok, .none, 0⟩
        phase := .idle
        w := t.w
        draws := t.draws }

/-- 45_host_commands R252, 93_implementation_defined U14: a command issued while a transaction is in progress is refused.
That an item of another format than the phase reads (10_state R29) is refused is the model's choice (log entry 3): the
spec never has such an item interpreted. -/
def Obligations.RefusedOutOfTurn : Prop :=
  ∀ (i : Instr) (s : State),
    (i.isCommand = true → s.phase ≠ .idle → exec i s = .refused .busy) ∧
    (∀ f bs, encode i = some (f, bs) → phaseFormat s.phase ≠ some f → exec i s = .refused .itemOutOfPhase)

/-! ## Reset and invariants -/

/-- 70_reset_and_hazards R310 (the spec's decision D12): the readers unbound, `ACC` empty, `RES = (OK, NONE, 0)`, no
transaction in progress. The empty `OUT` and the empty command list are the model's choice (log entries 13 and 2); the
working registers, which the spec leaves unspecified, are not spoken of. -/
def Obligations.ResetLeavesReadersUnbound : Prop :=
  State.reset.br = ⟨[], 0⟩ ∧ State.reset.br.len = 0 ∧ State.reset.byr = ⟨[], 0⟩ ∧ State.reset.byr.len = 0 ∧
  State.reset.acc = [] ∧ State.reset.res = ⟨.ok, .none, 0⟩ ∧ State.reset.phase = .idle ∧
  State.reset.out = [] ∧ State.reset.cmds = []

/-- 70_reset_and_hazards R310 (the spec's decision D12): a reader command issued before any bind, for one bit or byte or
more, faults, and only `RES` changes. -/
def Obligations.UnboundReadersUnderrun : Prop :=
  (∀ i, i = .brReadBit ∨ (∃ n, 1 ≤ n ∧ n ≤ 32 ∧ i = .brReadBits n) ∨ (∃ n, 1 ≤ n ∧ i = .brSkipBits n) →
    exec i State.reset = .next { State.reset with res := ⟨.bufferUnderrun, .bitUnderrun, 0⟩ }) ∧
  (∀ i, i = .byReadU8 ∨ i = .byReadU16 ∨ i = .byReadI32 →
    exec i State.reset = .next { State.reset with res := ⟨.bufferUnderrun, .byteUnderrun, 0⟩ })

/-- The invariant of `Safety.lean` (10_state R21 to R24, R27, R28; 44_caption_decoder R219, R226; 30_encoding R108, R109)
holds at reset; that `OUT` is empty and the working registers are 0 there is the model's choice (log entries 13, 4). -/
def Obligations.ResetMeetsInvariant : Prop := State.reset.Inv

/-- Every step from a state that meets the invariant ends in a state that meets it: cursors inside their sources, sources
within the bound, `ACC` empty between transactions and at most two characters per entry in the loop, the bit cursor at
`16 + 24·i`, the header parser's accumulators below `2^31`, `Text` events non-empty with at most 62 code points,
`Control` events with `byte1 < 0x20`. -/
def Obligations.StepKeepsInvariant : Prop :=
  ∀ s t : State, s.Inv → step s = .next t → t.Inv

/-- 10_state R33, 20_memory R68, 60_exceptions R282: no step changes, removes or reorders an event of `OUT`. -/
def Obligations.OutputOnlyGrows : Prop :=
  ∀ s t : State, step s = .next t → ∃ es, t.out = s.out ++ es

/-- 10_state R22, 70_reset_and_hazards R311: only `BR.RESET`, issued by the host or as step 2 of `CC_PARSE`, rebinds the
Bit Reader or moves the bit cursor backwards. -/
def Obligations.BitCursorOnlyAdvances : Prop :=
  ∀ (i : Instr) (s t : State), (∀ src, i ≠ .brReset src) → (∀ b z ts, i ≠ .ccParse b z ts) → exec i s = .next t →
    t.br.src = s.br.src ∧ s.br.pos ≤ t.br.pos

/-- 60_exceptions R283 (the spec's decision D22): a fault status is not sticky. No command depends on the `RES` it finds;
`BR.RESET` alone keeps it (10_state R38; log entry 6). -/
def Obligations.FaultStatusNotSticky : Prop :=
  ∀ (i : Instr) (s : State) (r : Result), i.isCommand = true → (∀ src, i ≠ .brReset src) →
    exec i { s with res := r } = exec i s

/-! ## Bit Reader commands -/

/-- 40_bit_reader R130, 10_state R38: the new source is bound with the cursor at bit 0, and no other state changes, `RES`
not either (log entry 6). -/
def Obligations.BrResetBindsSource : Prop :=
  ∀ (src : Source) (s : State), s.phase = .idle → src.length ≤ Config.maxBufBytes →
    exec (.brReset src) s = .next { s with br := ⟨src, 0⟩ }

/-- 40_bit_reader R131: the bit returned is bit `7 - (pos mod 8)` of byte `pos div 8`, and the cursor advances by one. In
`RES.value` true is 1 (log entry 8). -/
def Obligations.BrReadBitReturnsNextBit : Prop :=
  ∀ (s : State) (byte : Byte), s.phase = .idle → s.br.src[s.br.pos / 8]? = some byte →
    exec .brReadBit s =
      .next { s with
        br := ⟨s.br.src, s.br.pos + 1⟩
        res := ⟨.ok, .none, (byte.getLsbD (7 - s.br.pos % 8)).toNat⟩ }

/-- 40_bit_reader R132: the value is the sum over `k < n` of bit `pos + k` times `2^(n-1-k)`, below `2^n`; the cursor
advances by exactly `n`; `n = 0` gives 0. -/
def Obligations.BrReadBitsMsbFirst : Prop :=
  ∀ (n : Nat) (s : State), s.phase = .idle → n ≤ 32 → s.br.pos + n ≤ 8 * s.br.src.length →
    ∃ v, v = Finset.sum (Finset.range n) (fun k => (srcBit s.br.src (s.br.pos + k)).toNat * 2 ^ (n - 1 - k)) ∧
      v < 2 ^ n ∧
      exec (.brReadBits n) s = .next { s with br := ⟨s.br.src, s.br.pos + n⟩, res := ⟨.ok, .none, v⟩ }

/-- 40_bit_reader R133: the cursor advances by exactly `n` bits and nothing is read. What `RES.value` holds after a
command that returns no value is left free (log entry 7). -/
def Obligations.BrSkipBitsAdvances : Prop :=
  ∀ (n : Nat) (s : State), s.phase = .idle → s.br.pos + n ≤ 8 * s.br.src.length →
    ∃ t, exec (.brSkipBits n) s = .next t ∧
      t = { s with br := ⟨s.br.src, s.br.pos + n⟩, res := ⟨.ok, .none, t.res.value⟩, draws := t.draws }

/-- 40_bit_reader R134, 60_exceptions R280 (that the cursor is unchanged is the spec's own decision D5): a request beyond
the end reports `(BUFFER_UNDERRUN, BIT_UNDERRUN, 0)` and changes nothing else. -/
def Obligations.BitUnderrunTouchesNothing : Prop :=
  ∀ (n : Nat) (s : State), s.phase = .idle → 8 * s.br.src.length < s.br.pos + n →
    (n = 1 → exec .brReadBit s = .next { s with res := ⟨.bufferUnderrun, .bitUnderrun, 0⟩ }) ∧
    (n ≤ 32 → exec (.brReadBits n) s = .next { s with res := ⟨.bufferUnderrun, .bitUnderrun, 0⟩ }) ∧
    exec (.brSkipBits n) s = .next { s with res := ⟨.bufferUnderrun, .bitUnderrun, 0⟩ }

/-- 40_bit_reader R136 (b): reading `a` bits and then `b` gives the parts of the one read of `a + b` bits. -/
def Obligations.ConsecutiveReadsConcatenate : Prop :=
  ∀ (a b : Nat) (s t u : State), a + b ≤ 32 → exec (.brReadBits a) s = .next t → t.res.status = .ok →
    exec (.brReadBits b) t = .next u → u.res.status = .ok →
    exec (.brReadBits (a + b)) s = .next { u with res := ⟨.ok, .none, t.res.value * 2 ^ b + u.res.value⟩ }

/-! ## Byte Reader commands -/

/-- 41_byte_reader R150 (the spec's decision D13), 10_state R31: the source is bound with the cursor at byte `p`. `RES` is
written `OK` as at the end of every transaction (log entry 6), with no value (left free: log entry 7). -/
def Obligations.ByBindPositionsReader : Prop :=
  ∀ (src : Source) (p : Nat) (s : State), s.phase = .idle → src.length ≤ Config.maxBufBytes → p ≤ src.length →
    ∃ t, exec (.byBind src p) s = .next t ∧
      t = { s with byr := ⟨src, p⟩, res := ⟨.ok, .none, t.res.value⟩, draws := t.draws }

/-- 41_byte_reader R151 to R153, 20_memory R62: one, two or four bytes from the cursor, big-endian; the cursor advances by
as many. That `BY.READI32` gives the unsigned view is the spec's own decision D11 (log entry 19). -/
def Obligations.ByReadsBigEndian : Prop :=
  ∀ (s : State) (pre rest : Source) (b0 b1 b2 b3 : Byte), s.phase = .idle → s.byr.pos = pre.length →
    (s.byr.src = pre ++ b0 :: rest →
      exec .byReadU8 s =
        .next { s with byr := ⟨s.byr.src, s.byr.pos + 1⟩, res := ⟨.ok, .none, b0.toNat⟩ }) ∧
    (s.byr.src = pre ++ b0 :: b1 :: rest →
      exec .byReadU16 s =
        .next { s with byr := ⟨s.byr.src, s.byr.pos + 2⟩, res := ⟨.ok, .none, b0.toNat * 256 + b1.toNat⟩ }) ∧
    (s.byr.src = pre ++ b0 :: b1 :: b2 :: b3 :: rest →
      exec .byReadI32 s =
        .next { s with
          byr := ⟨s.byr.src, s.byr.pos + 4⟩
          res := ⟨.ok, .none, b0.toNat * 2 ^ 24 + b1.toNat * 2 ^ 16 + b2.toNat * 2 ^ 8 + b3.toNat⟩ })

/-- 41_byte_reader R154 (that the cursor is unchanged is the spec's own decision D5): a read beyond the end reports
`(BUFFER_UNDERRUN, BYTE_UNDERRUN, 0)` and changes nothing else, also when some of its bytes remain. -/
def Obligations.ByteUnderrunTouchesNothing : Prop :=
  ∀ s : State, s.phase = .idle →
    (s.byr.src.length < s.byr.pos + 1 →
      exec .byReadU8 s = .next { s with res := ⟨.bufferUnderrun, .byteUnderrun, 0⟩ }) ∧
    (s.byr.src.length < s.byr.pos + 2 →
      exec .byReadU16 s = .next { s with res := ⟨.bufferUnderrun, .byteUnderrun, 0⟩ }) ∧
    (s.byr.src.length < s.byr.pos + 4 →
      exec .byReadI32 s = .next { s with res := ⟨.bufferUnderrun, .byteUnderrun, 0⟩ })

/-- 41_byte_reader R155: the host reads `BY.pos`; no state but the result register changes. -/
def Obligations.ByPosReportsCursor : Prop :=
  ∀ s : State, s.phase = .idle → exec .byPos s = .next { s with res := ⟨.ok, .none, s.byr.pos⟩ }

/-- 40_bit_reader R135, 41_byte_reader R150, 93_implementation_defined U11, U18: operands outside an operation's domain are
refused, each by its own name (log entry 21). -/
def Obligations.OutOfDomainRefused : Prop :=
  ∀ (s : State) (src : Source) (n : Nat) (size : SizeWord) (ts : Timestamp), s.phase = .idle →
    (32 < n → exec (.brReadBits n) s = .refused .readTooWide) ∧
    (src.length ≤ Config.maxBufBytes → src.length < n → exec (.byBind src n) s = .refused .bindPastEnd) ∧
    (Config.maxBufBytes < src.length →
      exec (.brReset src) s = .refused .sourceTooLong ∧ exec (.byBind src n) s = .refused .sourceTooLong ∧
      (0 < size.toInt → exec (.ccParse src size ts) s = .refused .sourceTooLong))

/-! ## Character tables and the capability predicate -/

/-- 42_char_tables R171, R173 (the fault is the spec's decision D7): a byte in `0x20 .. 0x7F` gives its entry, any other
the fault; nothing but `RES` is written (10_state R31; log entry 9). -/
def Obligations.GetBasicReadsTable : Prop :=
  ∀ (x : Byte) (s : State), s.phase = .idle →
    (0x20 ≤ x.toNat ∧ x.toNat ≤ 0x7F →
      exec (.getBasic x) s = .next { s with res := ⟨.ok, .none, (basicTable (x.toNat - 0x20)).toNat⟩ }) ∧
    (x.toNat < 0x20 ∨ 0x7F < x.toNat →
      exec (.getBasic x) s = .next { s with res := ⟨.malformedData, .tableIndexRange, 0⟩ })

/-- 42_char_tables R174: the 27 basic entries the source fixes. That the answer is in `RES` and nothing else is written is
the model's reading of 10_state R31 and 45_host_commands R251 (log entry 9). -/
def Obligations.BasicFixedEntries : Prop :=
  ∀ s : State, s.phase = .idle →
    (∀ x : Byte, 0x41 ≤ x.toNat → x.toNat ≤ 0x5A →
      exec (.getBasic x) s = .next { s with res := ⟨.ok, .none, x.toNat⟩ }) ∧
    exec (.getBasic 0x2A) s = .next { s with res := ⟨.ok, .none, 0xE1⟩ }

/-- 42_char_tables R172: the entry at the low four bits of `y`, whatever its high bits; it never faults. That
the answer is in `RES` and nothing else is written is the model's reading of R31 and R251 (log entry 9). -/
def Obligations.GetSpecialReadsTable : Prop :=
  ∀ (y : Byte) (s : State), s.phase = .idle →
    exec (.getSpecial y) s = .next { s with res := ⟨.ok, .none, (specialTable (y.toNat % 16)).toNat⟩ }

/-- 42_char_tables R175: the two special entries the source fixes. That the answer is in `RES` and nothing else is written
is the model's reading of 10_state R31 and 45_host_commands R251 (log entry 9). -/
def Obligations.SpecialFixedEntries : Prop :=
  ∀ s : State, s.phase = .idle →
    exec (.getSpecial 0x30) s = .next { s with res := ⟨.ok, .none, 0xAE⟩ } ∧
    exec (.getSpecial 0x39) s = .next { s with res := ⟨.ok, .none, 0x20⟩ }

/-- 45_host_commands R256: the answer is whether the identifier equals the one the block supports, whatever that is; in
`RES.value` true is 1 and false 0 (log entry 8). -/
def Obligations.CanParseComparesIdentifiers : Prop :=
  ∀ (formatId : String) (s : State), s.phase = .idle →
    (formatId = Config.supportedFormatId →
      exec (.canParse formatId) s = .next { s with res := ⟨.ok, .none, 1⟩ }) ∧
    (formatId ≠ Config.supportedFormatId →
      exec (.canParse formatId) s = .next { s with res := ⟨.ok, .none, 0⟩ })

/-! ## The SEI Header Parser -/

/-- 43_sei_header R191: a byte `0xFF` of the type or size field adds 255, and the field goes on. That the sum is kept in the
field's own register is the model's choice (log entry 17). -/
def Obligations.ExtContAccumulates : Prop :=
  ∀ s : State, s.byr.pos < s.byr.src.length →
    (s.phase = .seiType →
      exec .extCont s =
        .next { s with
          byr := ⟨s.byr.src, s.byr.pos + 1⟩
          hdr := { s.hdr with b := 0xFF, payloadType := s.hdr.payloadType + 255 } }) ∧
    (s.phase = .seiSize →
      exec .extCont s =
        .next { s with
          byr := ⟨s.byr.src, s.byr.pos + 1⟩
          hdr := { s.hdr with b := 0xFF, payloadSize := s.hdr.payloadSize + 255 } })

/-- 43_sei_header R191, R193, R194: the byte that ends a field adds its value. A complete type other than 4 and a complete
size of 0 return the sentinel 0; type 4 is followed by the size field, a positive size by the signature. That the sum is
kept in the field's own register, and `payload_size` starts at 0, is the model's choice (log entry 17). -/
def Obligations.ExtLastEndsField : Prop :=
  ∀ (b : Byte) (s : State), b ≠ 0xFF → s.byr.pos < s.byr.src.length →
    (s.phase = .seiType →
      (s.hdr.payloadType + b.toNat = 4 →
        exec (.extLast b) s =
          .next { s with
            byr := ⟨s.byr.src, s.byr.pos + 1⟩
            hdr := { s.hdr with b := b, payloadType := 4, payloadSize := 0 }
            phase := .seiSize }) ∧
      (s.hdr.payloadType + b.toNat ≠ 4 →
        ∃ t, exec (.extLast b) s = .next t ∧
          t = { s with
            byr := ⟨s.byr.src, s.byr.pos + 1⟩
            res := ⟨.ok, .none, 0⟩
            phase := .idle
            hdr := t.hdr
            draws := t.draws })) ∧
    (s.phase = .seiSize →
      (0 < s.hdr.payloadSize + b.toNat →
        exec (.extLast b) s =
          .next { s with
            byr := ⟨s.byr.src, s.byr.pos + 1⟩
            hdr := { s.hdr with b := b, payloadSize := s.hdr.payloadSize + b.toNat }
            phase := .seiSignature }) ∧
      (s.hdr.payloadSize + b.toNat = 0 →
        ∃ t, exec (.extLast b) s = .next t ∧
          t = { s with
            byr := ⟨s.byr.src, s.byr.pos + 1⟩
            res := ⟨.ok, .none, 0⟩
            phase := .idle
            hdr := t.hdr
            draws := t.draws }))

/-- 43_sei_header R195, R196: on a full match the size read in step 2 is returned, not reduced by 8, and eight bytes are
consumed. -/
def Obligations.SignatureMatchReturnsSize : Prop :=
  ∀ s : State, s.phase = .seiSignature → s.byr.pos + 8 ≤ s.byr.src.length →
    ∃ t, exec .seihdrMatch s = .next t ∧
      t = { s with
        byr := ⟨s.byr.src, s.byr.pos + 8⟩
        res := ⟨.ok, .none, s.hdr.payloadSize⟩
        phase := .idle
        hdr := t.hdr
        draws := t.draws }

/-- 43_sei_header R195, R197, R199: the first field that differs returns 0; it was read whole and the later ones were not
read. `n` is the number of bytes up to and with that field. -/
def Obligations.SignatureMismatchReturnsSentinel : Prop :=
  ∀ (c : BitVec 8) (p : BitVec 16) (u : BitVec 32) (d : BitVec 8) (n : Nat) (s : State), s.phase = .seiSignature →
    ((c ≠ 0xB5 ∧ n = 1) ∨ (c = 0xB5 ∧ p ≠ 0x0031 ∧ n = 3) ∨ (c = 0xB5 ∧ p = 0x0031 ∧ u ≠ 0x47413934 ∧ n = 7) ∨
      (c = 0xB5 ∧ p = 0x0031 ∧ u = 0x47413934 ∧ d ≠ 3 ∧ n = 8)) →
    s.byr.pos + n ≤ s.byr.src.length →
    ∃ t, exec (.seihdrMismatch c p u d) s = .next t ∧
      t = { s with
        byr := ⟨s.byr.src, s.byr.pos + n⟩
        res := ⟨.ok, .none, 0⟩
        phase := .idle
        hdr := t.hdr
        draws := t.draws }

/-- 43_sei_header R192, R194, R196, R197: from the first byte of a caption header (type 4, a positive size of `k + 1`
bytes, the signature), whatever precedes and follows it, `SEI_PARSE` returns that size with the cursor after the
signature. -/
def Obligations.SeiParseAcceptsCaptionHeader : Prop :=
  ∀ (s : State) (pre rest : Source) (k : Nat) (b : Byte), s.phase = .idle → b ≠ 0xFF → 0 < 255 * k + b.toNat →
    s.byr.src = pre ++ 0x04 :: extBytes k b ++ signatureBytes ++ rest → s.byr.pos = pre.length →
    ∃ t, exec .seiParse s = .next t ∧
      t = { s with
        byr := ⟨s.byr.src, s.byr.pos + 1 + (k + 1) + 8⟩
        res := ⟨.ok, .none, 255 * k + b.toNat⟩
        hdr := t.hdr
        draws := t.draws }

/-- 43_sei_header R193, R194: a type other than 4 returns 0 with only the type field consumed; type 4 with size 0 returns
0 with two bytes consumed. -/
def Obligations.SeiParseTypeAndSizeExits : Prop :=
  ∀ (s : State) (pre rest : Source) (k : Nat) (b : Byte), s.phase = .idle → s.byr.pos = pre.length → b ≠ 0xFF →
    (s.byr.src = pre ++ extBytes k b ++ rest → 255 * k + b.toNat ≠ 4 →
      ∃ t, exec .seiParse s = .next t ∧
        t = { s with
          byr := ⟨s.byr.src, s.byr.pos + (k + 1)⟩, res := ⟨.ok, .none, 0⟩, hdr := t.hdr, draws := t.draws }) ∧
    (s.byr.src = pre ++ 0x04 :: 0x00 :: rest →
      ∃ t, exec .seiParse s = .next t ∧
        t = { s with
          byr := ⟨s.byr.src, s.byr.pos + 2⟩, res := ⟨.ok, .none, 0⟩, hdr := t.hdr, draws := t.draws })

/-- 43_sei_header R198: a caption header cut short anywhere is an underrun, not the sentinel. -/
def Obligations.SeiParseTruncatedHeaderUnderruns : Prop :=
  ∀ (s : State) (pre : Source) (k m : Nat) (b : Byte), s.phase = .idle → b ≠ 0xFF → 0 < 255 * k + b.toNat →
    m < 1 + (k + 1) + 8 → s.byr.src = pre ++ (0x04 :: extBytes k b ++ signatureBytes).take m → s.byr.pos = pre.length →
    ∃ t, exec .seiParse s = .next t ∧ t.res = ⟨.bufferUnderrun, .byteUnderrun, 0⟩ ∧ t.phase = .idle ∧
      s.byr.pos ≤ t.byr.pos ∧ t.byr.pos ≤ s.byr.src.length

/-- 43_sei_header R192, R198, R200: `SEI_PARSE` always completes, is a function of the Byte Reader alone, and touches
neither the Bit Reader nor `ACC` nor `OUT` nor a source; the byte cursor never moves back or past the end. -/
def Obligations.SeiParseTouchesOnlyByteReader : Prop :=
  ∀ s : State, s.phase = .idle → s.byr.pos ≤ s.byr.src.length →
    ∃ t, exec .seiParse s = .next t ∧
      t = { s with byr := t.byr, res := t.res, w := t.w, hdr := t.hdr, draws := t.draws } ∧
      (t.res.status = .ok → t.w = s.w) ∧
      t.byr.src = s.byr.src ∧ s.byr.pos ≤ t.byr.pos ∧ t.byr.pos ≤ s.byr.src.length ∧
      (∀ s' t' : State, s'.phase = .idle → s'.byr = s.byr → exec .seiParse s' = .next t' →
        t'.res = t.res ∧ t'.byr = t.byr)

/-- 43_sei_header R191, R192, 10_state R28: the transaction of `SEI_PARSE` is the run of single steps that reads its stream
items one by one from the state the transaction starts in. That items run as steps is the model's finer view of a
transaction (log entry 1). -/
def Obligations.SeiParseIsItsStreamItems : Prop :=
  ∀ s : State, s.phase = .idle →
    ∃ k t, exec .seiParse s = .next t ∧ t.phase = .idle ∧ core.run k (beginSei s) = .next t ∧
      (beginSei s).phase = .seiType ∧ (beginSei s).byr = s.byr ∧
      ∀ j u, j < k → core.run j (beginSei s) = .next u → u.phase ≠ .idle

/-! ## The Caption Decoder's stream items -/

/-- 44_caption_decoder R213, R214: 16 bits are consumed, the 5-bit count is taken, and the loop starts at entry 0, or ends
at once when the count is 0. -/
def Obligations.CcHdrStartsLoop : Prop :=
  ∀ (r : BitVec 3) (n : BitVec 5) (m : BitVec 8) (s : State), s.phase = .ccHeader →
    s.br.pos + 16 ≤ 8 * s.br.src.length →
    exec (.ccHdr r n m) s =
      .next { s with
        br := ⟨s.br.src, s.br.pos + 16⟩
        w := { s.w with ccCount := n, i := 0 }
        phase := if n = 0 then .ccFinal else .ccEntry }

/-- 44_caption_decoder R216, R217, R221: an invalid entry, an entry of another type and a padding entry consume 24 bits and
do nothing else: no event, `ACC` unchanged, no flush, whatever their other bits. -/
def Obligations.NoEffectEntriesConsumeOnly : Prop :=
  ∀ (mk : BitVec 5) (t : BitVec 2) (p1 : BitVec 1) (d1 : BitVec 7) (p2 : BitVec 1) (d2 : BitVec 7) (s : State),
    s.phase = .ccEntry → s.br.pos + 24 ≤ 8 * s.br.src.length →
    exec (.entryInvalid mk t p1 d1 p2 d2) s = .next (s.pastEntry { s.w with ccValid := 0 }) ∧
    exec (.entryOther1 mk p1 d1 p2 d2) s = .next (s.pastEntry { s.w with ccValid := 1, ccType := 1 }) ∧
    exec (.entryOther2 mk p1 d1 p2 d2) s = .next (s.pastEntry { s.w with ccValid := 1, ccType := 2 }) ∧
    exec (.entryOther3 mk p1 d1 p2 d2) s = .next (s.pastEntry { s.w with ccValid := 1, ccType := 3 }) ∧
    exec (.pairPad mk p1 p2) s =
      .next (s.pastEntry { s.w with ccValid := 1, ccType := 0, ccData1 := 0, ccData2 := 0 })

/-- 44_caption_decoder R222: the special-table entry at the low four bits is appended; no event, no flush. -/
def Obligations.SpecialPairAppends : Prop :=
  ∀ (mk : BitVec 5) (p1 p2 : BitVec 1) (k : BitVec 4) (s : State),
    s.phase = .ccEntry → s.br.pos + 24 ≤ 8 * s.br.src.length →
    exec (.pairSpecial mk p1 p2 k) s =
      .next { s.pastEntry
          { s.w with ccValid := 1, ccType := 0, ccData1 := 0x11, ccData2 := BitVec.ofNat 7 (0x30 + k.toNat) } with
        acc := s.acc ++ [specialTable k.toNat] }

/-- 44_caption_decoder R223, R225: the collected text, if any, is emitted first, then one `Control` event with both values
unchanged, each with the call's timestamp; `ACC` is empty afterwards. -/
def Obligations.ControlPairFlushesAndEmits : Prop :=
  ∀ (mk : BitVec 5) (p1 : BitVec 1) (d1 : BitVec 7) (p2 : BitVec 1) (d2 : BitVec 7) (s : State),
    (Instr.pairControl mk p1 d1 p2 d2).wf = true → s.phase = .ccEntry → s.br.pos + 24 ≤ 8 * s.br.src.length →
    exec (.pairControl mk p1 d1 p2 d2) s =
      .next { s.pastEntry { s.w with ccValid := 1, ccType := 0, ccData1 := d1, ccData2 := d2 } with
        acc := []
        out := s.out ++ textEvents s.acc s.w.ts ++
          [.control (BitVec.ofNat 8 d1.toNat) (BitVec.ofNat 8 d2.toNat) s.w.ts] }

/-- 44_caption_decoder R224: one character for `ccData2 = 0`, two for `ccData2 ≥ 0x20`, in order; no event, no flush. -/
def Obligations.BasicPairsAppend : Prop :=
  ∀ (mk : BitVec 5) (p1 : BitVec 1) (d1 : BitVec 7) (p2 : BitVec 1) (d2 : BitVec 7) (s : State),
    s.phase = .ccEntry → s.br.pos + 24 ≤ 8 * s.br.src.length → 0x20 ≤ d1.toNat →
    exec (.pairBasic1 mk p1 d1 p2) s =
      .next { s.pastEntry { s.w with ccValid := 1, ccType := 0, ccData1 := d1, ccData2 := 0 } with
        acc := s.acc ++ [basicTable (d1.toNat - 0x20)] } ∧
    (0x40 ≤ d2.toNat →
      exec (.pairBasic2A mk p1 d1 p2 d2) s =
        .next { s.pastEntry { s.w with ccValid := 1, ccType := 0, ccData1 := d1, ccData2 := d2 } with
          acc := s.acc ++ [basicTable (d1.toNat - 0x20), basicTable (d2.toNat - 0x20)] }) ∧
    (0x20 ≤ d2.toNat → d2.toNat < 0x40 →
      exec (.pairBasic2B mk p1 d1 p2 d2) s =
        .next { s.pastEntry { s.w with ccValid := 1, ccType := 0, ccData1 := d1, ccData2 := d2 } with
          acc := s.acc ++ [basicTable (d1.toNat - 0x20), basicTable (d2.toNat - 0x20)] })

/-- 30_encoding R102, 44_caption_decoder R231, 60_exceptions R280 (the fault is the spec's own decision D7): a basic pair
with its second value in `0x01 .. 0x1F` ends the transaction with `(MALFORMED_DATA, TABLE_INDEX_RANGE, 0)`, the 24 bits
consumed, the collected text discarded and no event added. -/
def Obligations.IllegalPairAborts : Prop :=
  ∀ (mk : BitVec 5) (p1 : BitVec 1) (d1 : BitVec 7) (p2 : BitVec 1) (d2 : BitVec 7) (s : State),
    (Instr.pairIllegal mk p1 d1 p2 d2).wf = true → s.phase = .ccEntry → s.br.pos + 24 ≤ 8 * s.br.src.length →
    ∃ t, exec (.pairIllegal mk p1 d1 p2 d2) s = .next t ∧
      t = { s with
        br := ⟨s.br.src, s.br.pos + 24⟩
        acc := []
        res := ⟨.malformedData, .tableIndexRange, 0⟩
        phase := .idle
        w := t.w
        hdr := t.hdr
        draws := t.draws }

/-- 44_caption_decoder R231, 60_exceptions R280 (decisions D4, D5 and D9 of the spec): a header or an entry some of whose
bits are missing ends the transaction with `(MALFORMED_DATA, BIT_UNDERRUN, 0)`; text collected is discarded, `OUT` kept,
and the cursor stays at the first read or skip that was not admitted, after those before it. -/
def Obligations.TruncatedItemAborts : Prop :=
  ∀ (i : Instr) (f : ItemFormat) (bs : Source) (widths : List Nat) (s : State), encode i = some (f, bs) →
    phaseFormat s.phase = some f → captionWidths i = some widths → s.br.pos ≤ 8 * s.br.src.length →
    8 * s.br.src.length < s.br.pos + 8 * f.bytes →
    ∃ t, exec i s = .next t ∧
      t = { s with
        br := ⟨s.br.src, s.br.pos + admitted widths (8 * s.br.src.length - s.br.pos)⟩
        acc := []
        res := ⟨.malformedData, .bitUnderrun, 0⟩
        phase := .idle
        w := t.w
        hdr := t.hdr
        draws := t.draws }

/-- 60_exceptions R280, 43_sei_header R197, R198 (decision D5 of the spec): an item of `SEI_PARSE` whose bytes are missing
ends the transaction with `(BUFFER_UNDERRUN, BYTE_UNDERRUN, 0)` and touches nothing else. A byte of a type or size field is
missing when none is left; a signature, when it ends before its first field that differs does, or anywhere if it matches.
The fields before the failing read stay consumed, and the cursor is where that read found it. -/
def Obligations.TruncatedHeaderItemAborts : Prop :=
  ∀ (i : Instr) (k : Nat) (s : State),
    ((i = .extCont ∨ ∃ b, i = .extLast b) ∧ (s.phase = .seiType ∨ s.phase = .seiSize) ∧
        s.byr.src.length = s.byr.pos ∧ k = 0) ∨
      ((i = .seihdrMatch ∧ s.byr.src.length < s.byr.pos + 8 ∨
          ∃ c p u d, i = .seihdrMismatch c p u d ∧ s.byr.src.length < s.byr.pos + signatureEnd c p u) ∧
        s.phase = .seiSignature ∧ s.byr.pos ≤ s.byr.src.length ∧
        k = admitted signatureWidths (s.byr.src.length - s.byr.pos)) →
    ∃ t, exec i s = .next t ∧
      t = { s with
        byr := ⟨s.byr.src, s.byr.pos + k⟩
        res := ⟨.bufferUnderrun, .byteUnderrun, 0⟩
        phase := .idle
        w := t.w
        hdr := t.hdr
        draws := t.draws }

/-- 10_state R20, 45_host_commands R255: an item of `SEI_PARSE` touches no Bit Reader, `ACC` or `OUT`; an item of `CC_PARSE`
touches no Byte Reader and only appends to `OUT`; neither touches a source or the host's commands. -/
def Obligations.StreamItemFrame : Prop :=
  ∀ (i : Instr) (f : ItemFormat) (bs : Source) (s t : State), encode i = some (f, bs) → exec i s = .next t →
    t.br.src = s.br.src ∧ t.byr.src = s.byr.src ∧ t.cmds = s.cmds ∧
    (f = .ext8 ∨ f = .sig64 → t.br = s.br ∧ t.acc = s.acc ∧ t.out = s.out) ∧
    (f = .ccHdr16 ∨ f = .entry24 → t.byr = s.byr ∧ ∃ es, t.out = s.out ++ es)

/-- 45_host_commands R255: a command other than `SEI_PARSE` and `CC_PARSE` leaves `ACC`, `OUT`, every working register, the
phase and the host's commands as they were; only the Bit Reader commands change `BR`, only the Byte Reader commands `BY`. -/
def Obligations.ComponentCommandFrame : Prop :=
  ∀ (i : Instr) (s t : State), i.isCommand = true → i ≠ .seiParse → (∀ b z ts, i ≠ .ccParse b z ts) →
    exec i s = .next t →
    t.acc = s.acc ∧ t.out = s.out ∧ t.w = s.w ∧ t.hdr = s.hdr ∧ t.phase = s.phase ∧ t.cmds = s.cmds ∧
    ((∀ src, i ≠ .brReset src) → i ≠ .brReadBit → (∀ n, i ≠ .brReadBits n) → (∀ n, i ≠ .brSkipBits n) → t.br = s.br) ∧
    ((∀ src p, i ≠ .byBind src p) → i ≠ .byReadU8 → i ≠ .byReadU16 → i ≠ .byReadI32 → t.byr = s.byr)

/-! ## The whole `CC_PARSE` -/

/-- 44_caption_decoder R211: with `size ≤ 0` nothing changes but `RES`, which reports `OK` (R229). -/
def Obligations.CcParseWithoutSizeDoesNothing : Prop :=
  ∀ (buffer : Source) (size : SizeWord) (ts : Timestamp) (s : State), s.phase = .idle → size.toInt ≤ 0 →
    exec (.ccParse buffer size ts) s = .next { s with res := ⟨.ok, .none, 0⟩ }

/-- 44_caption_decoder R230 with R212, R219, R227, R231: on a buffer that holds the header and all `ccCount` entries,
`CC_PARSE` emits what the fold over the entries' bytes gives, in order, and ends `OK` with the cursor after the last
entry, or, when a lookup has no table entry, `MALFORMED_DATA` after the entry that asked for it (the spec's decisions D7
and D9). -/
def Obligations.CcParseReadsEntriesAsBytes : Prop :=
  ∀ (buffer : Source) (size : SizeWord) (ts : Timestamp) (s : State), s.phase = .idle → 0 < size.toInt →
    buffer.length ≤ Config.maxBufBytes → 2 + 3 * byteCount buffer ≤ buffer.length →
    let r := byteEntries ts (byteCount buffer) (buffer.drop 2) []
    ∃ t, exec (.ccParse buffer size ts) s = .next t ∧
      t = { s with
        br := ⟨buffer, 16 + 24 * r.entries⟩
        acc := []
        out := s.out ++ r.events
        res := if r.complete then ⟨.ok, .none, 0⟩ else ⟨.malformedData, .tableIndexRange, 0⟩
        w := t.w
        hdr := t.hdr
        draws := t.draws } ∧
      (r.complete = true → t.hdr = s.hdr ∧ r.entries = byteCount buffer)

/-- 44_caption_decoder R229, 10_state R28, R29: the transaction of `CC_PARSE` is the run of single steps that reads its
stream items one by one from the state of step 2. That items run as steps is the model's finer view of a transaction (log
entry 1). -/
def Obligations.CcParseIsItsStreamItems : Prop :=
  ∀ (buffer : Source) (size : SizeWord) (ts : Timestamp) (s : State), s.phase = .idle → 0 < size.toInt →
    buffer.length ≤ Config.maxBufBytes →
    ∃ k t, exec (.ccParse buffer size ts) s = .next t ∧ t.phase = .idle ∧ k ≤ 33 ∧
      core.run k (beginCaption buffer size ts s) = .next t ∧
      ∀ j u, j < k → core.run j (beginCaption buffer size ts s) = .next u → u.phase ≠ .idle

/-- 44_caption_decoder R213, R231: a buffer shorter than its header and its declared entries ends `MALFORMED_DATA`. -/
def Obligations.CcParseTruncatedIsMalformed : Prop :=
  ∀ (buffer : Source) (size : SizeWord) (ts : Timestamp) (s : State), s.phase = .idle → 0 < size.toInt →
    buffer.length ≤ Config.maxBufBytes → buffer.length < 2 + 3 * byteCount buffer →
    ∃ t c, exec (.ccParse buffer size ts) s = .next t ∧ t.res = ⟨.malformedData, c, 0⟩ ∧
      (c = .bitUnderrun ∨ c = .tableIndexRange) ∧ t.acc = [] ∧ t.br.src = buffer ∧ t.br.pos ≤ 8 * buffer.length

/-- 44_caption_decoder R228, R232, 60_exceptions R282: faulting or not, `CC_PARSE` only appends to `OUT`, at most `ccCount`
events, no two neighbouring ones both `Text`, each carrying the call's timestamp; `ACC` is empty at the end. -/
def Obligations.CcParseEventsOrdered : Prop :=
  ∀ (buffer : Source) (size : SizeWord) (ts : Timestamp) (s t : State), s.phase = .idle → 0 < size.toInt →
    exec (.ccParse buffer size ts) s = .next t →
    ∃ es, t.out = s.out ++ es ∧ es.length ≤ byteCount buffer ∧ noAdjacentText es = true ∧
      (∀ e ∈ es, (∃ c, e = .text c ts) ∨ ∃ x y, e = .control x y ts) ∧
      t.acc = [] ∧ t.phase = .idle ∧ t.byr = s.byr ∧ t.cmds = s.cmds

/-- 44_caption_decoder R234: the events, the result and the Bit Reader after a `CC_PARSE` with `size > 0` depend on the
buffer and the timestamp alone, not on the size, on `OUT`, on `ACC` or on anything earlier. -/
def Obligations.CcParseForgetsHistory : Prop :=
  ∀ (buffer : Source) (z z' : SizeWord) (ts : Timestamp) (s s' t t' : State), s.phase = .idle → s'.phase = .idle →
    0 < z.toInt → 0 < z'.toInt → exec (.ccParse buffer z ts) s = .next t → exec (.ccParse buffer z' ts) s' = .next t' →
    t.res = t'.res ∧ t.br = t'.br ∧ ∃ es, t.out = s.out ++ es ∧ t'.out = s'.out ++ es

/-- 30_encoding R101: buffers that differ only in bits the decoder ignores (skipped bits of the header and of every entry,
all but `ccValid` of an invalid entry, all but `ccValid` and `ccType` of an entry of another type) give the same events,
result and cursor. -/
def Obligations.CcParseIgnoresSkippedBits : Prop :=
  ∀ (a b : Source) (z : SizeWord) (ts : Timestamp) (s t u : State), SameReadBits a b → s.phase = .idle → 0 < z.toInt →
    exec (.ccParse a z ts) s = .next t → exec (.ccParse b z ts) s = .next u →
    u.out = t.out ∧ u.res = t.res ∧ u.br.pos = t.br.pos
end

