-- ==== Sys2Proof/Laws/Decode.lean ====
section
/-! SUPPORT. The 24-bit entry as its seven fields (30_encoding R96): a row's mask test is a test of the fields; bits and
bytes of a source; and bytes of a value. -/

namespace Sys2Proof

variable (mk mk' : BitVec 5) (v v' : BitVec 1) (t t' : BitVec 2) (p1 p1' : BitVec 1) (d1 d1' : BitVec 7)
  (p2 p2' : BitVec 1) (d2 d2' : BitVec 7)

/-! ## Fields of an entry word -/

theorem entryWord_and :
    entryWord mk v t p1 d1 p2 d2 &&& entryWord mk' v' t' p1' d1' p2' d2' =
      entryWord (mk &&& mk') (v &&& v') (t &&& t') (p1 &&& p1') (d1 &&& d1') (p2 &&& p2') (d2 &&& d2') := by
  have h : ((mk ++ v ++ t ++ p1 ++ d1 ++ p2 ++ d2 : BitVec (5 + 1 + 2 + 1 + 7 + 1 + 7)) &&&
      (mk' ++ v' ++ t' ++ p1' ++ d1' ++ p2' ++ d2' : BitVec (5 + 1 + 2 + 1 + 7 + 1 + 7))) =
      ((mk &&& mk') ++ (v &&& v') ++ (t &&& t') ++ (p1 &&& p1') ++ (d1 &&& d1') ++ (p2 &&& p2') ++ (d2 &&& d2')) := by
    simp only [BitVec.and_append]
  exact h

/-- Bit `i` of an entry word, by the field it lies in. -/
theorem entryWord_getLsbD (i : Nat) :
    (entryWord mk v t p1 d1 p2 d2).getLsbD i =
      if i < 7 then d2.getLsbD i else if i < 8 then p2.getLsbD (i - 7) else if i < 15 then d1.getLsbD (i - 8)
      else if i < 16 then p1.getLsbD (i - 15) else if i < 18 then t.getLsbD (i - 16)
      else if i < 19 then v.getLsbD (i - 18) else mk.getLsbD (i - 19) := by
  have h : (mk ++ v ++ t ++ p1 ++ d1 ++ p2 ++ d2 : BitVec (5 + 1 + 2 + 1 + 7 + 1 + 7)).getLsbD i =
      if i < 7 then d2.getLsbD i else if i < 8 then p2.getLsbD (i - 7) else if i < 15 then d1.getLsbD (i - 8)
      else if i < 16 then p1.getLsbD (i - 15) else if i < 18 then t.getLsbD (i - 16)
      else if i < 19 then v.getLsbD (i - 18) else mk.getLsbD (i - 19) := by
    simp only [BitVec.getLsbD_append]
    grind
  exact h

@[simp] theorem entryMk_entryWord : entryMk (entryWord mk v t p1 d1 p2 d2) = mk := by
  apply BitVec.eq_of_getLsbD_eq
  intro i hi
  simp only [entryMk, BitVec.getLsbD_extractLsb', entryWord_getLsbD]
  grind

@[simp] theorem entryValid_entryWord : entryValid (entryWord mk v t p1 d1 p2 d2) = v := by
  apply BitVec.eq_of_getLsbD_eq
  intro i hi
  simp only [entryValid, BitVec.getLsbD_extractLsb', entryWord_getLsbD]
  grind

@[simp] theorem entryType_entryWord : entryType (entryWord mk v t p1 d1 p2 d2) = t := by
  apply BitVec.eq_of_getLsbD_eq
  intro i hi
  simp only [entryType, BitVec.getLsbD_extractLsb', entryWord_getLsbD]
  grind

@[simp] theorem entryP1_entryWord : entryP1 (entryWord mk v t p1 d1 p2 d2) = p1 := by
  apply BitVec.eq_of_getLsbD_eq
  intro i hi
  simp only [entryP1, BitVec.getLsbD_extractLsb', entryWord_getLsbD]
  grind

@[simp] theorem entryD1_entryWord : entryD1 (entryWord mk v t p1 d1 p2 d2) = d1 := by
  apply BitVec.eq_of_getLsbD_eq
  intro i hi
  simp only [entryD1, BitVec.getLsbD_extractLsb', entryWord_getLsbD]
  grind

@[simp] theorem entryP2_entryWord : entryP2 (entryWord mk v t p1 d1 p2 d2) = p2 := by
  apply BitVec.eq_of_getLsbD_eq
  intro i hi
  simp only [entryP2, BitVec.getLsbD_extractLsb', entryWord_getLsbD]
  grind

@[simp] theorem entryD2_entryWord : entryD2 (entryWord mk v t p1 d1 p2 d2) = d2 := by
  apply BitVec.eq_of_getLsbD_eq
  intro i hi
  simp only [entryD2, BitVec.getLsbD_extractLsb', entryWord_getLsbD]
  grind

/-- Every 24-bit value is the word of its fields. -/
theorem entryWord_fields (e : BitVec 24) :
    entryWord (entryMk e) (entryValid e) (entryType e) (entryP1 e) (entryD1 e) (entryP2 e) (entryD2 e) = e := by
  apply BitVec.eq_of_getLsbD_eq
  intro i hi
  simp only [entryMk, entryValid, entryType, entryP1, entryD1, entryP2, entryD2, BitVec.getLsbD_extractLsb',
    entryWord_getLsbD]
  grind

/-- Two entry words are equal when all their fields are. -/
theorem entryWord_inj :
    entryWord mk v t p1 d1 p2 d2 = entryWord mk' v' t' p1' d1' p2' d2' ↔
      mk = mk' ∧ v = v' ∧ t = t' ∧ p1 = p1' ∧ d1 = d1' ∧ p2 = p2' ∧ d2 = d2' := by
  constructor
  · intro h
    exact ⟨by simpa using congrArg entryMk h, by simpa using congrArg entryValid h, by simpa using congrArg entryType h,
      by simpa using congrArg entryP1 h, by simpa using congrArg entryD1 h, by simpa using congrArg entryP2 h,
      by simpa using congrArg entryD2 h⟩
  · rintro ⟨rfl, rfl, rfl, rfl, rfl, rfl, rfl⟩
    rfl

@[simp] theorem entryWord_low4 : (entryWord mk v t p1 d1 p2 d2).extractLsb' 0 4 = d2.extractLsb' 0 4 := by
  apply BitVec.eq_of_getLsbD_eq
  intro i hi
  simp only [BitVec.getLsbD_extractLsb', entryWord_getLsbD]
  grind

/-! ## The entry table as tests of the fields -/

/-- A row's mask and pattern, given as the fields they cover, test those fields. -/
theorem entryRow_iff (mv : BitVec 1) (mt : BitVec 2) (m1 m2 : BitVec 7) (cv : BitVec 1) (ct : BitVec 2)
    (c1 c2 : BitVec 7) :
    entryWord mk v t p1 d1 p2 d2 &&& entryWord 0 mv mt 0 m1 0 m2 = entryWord 0 cv ct 0 c1 0 c2 ↔
      v &&& mv = cv ∧ t &&& mt = ct ∧ d1 &&& m1 = c1 ∧ d2 &&& m2 = c2 := by
  rw [entryWord_and, entryWord_inj]
  simp

/-- The first matching row of the entry table, by the fields of the word. -/
theorem firstRow_entryWord :
    firstRow entry24Rows (entryWord mk v t p1 d1 p2 d2) =
      if v = 0 then some (.entryInvalid mk t p1 d1 p2 d2)
      else if t = 1 then some (.entryOther1 mk p1 d1 p2 d2)
      else if t = 2 then some (.entryOther2 mk p1 d1 p2 d2)
      else if t = 3 then some (.entryOther3 mk p1 d1 p2 d2)
      else if d1 = 0 ∧ d2 = 0 then some (.pairPad mk p1 p2)
      else if d1 = 0x11 ∧ d2 &&& 0x70 = 0x30 then some (.pairSpecial mk p1 p2 (d2.extractLsb' 0 4))
      else if d1 &&& 0x60 = 0 then some (.pairControl mk p1 d1 p2 d2)
      else if d2 = 0 then some (.pairBasic1 mk p1 d1 p2)
      else if d2 &&& 0x40 = 0x40 then some (.pairBasic2A mk p1 d1 p2 d2)
      else if d2 &&& 0x60 = 0x20 then some (.pairBasic2B mk p1 d1 p2 d2)
      else some (.pairIllegal mk p1 d1 p2 d2) := by
  have e1 : (0x040000 : BitVec 24) = entryWord 0 1 0 0 0 0 0 := by decide
  have e2 : (0x000000 : BitVec 24) = entryWord 0 0 0 0 0 0 0 := by decide
  have e3 : (0x070000 : BitVec 24) = entryWord 0 1 3 0 0 0 0 := by decide
  have e4 : (0x050000 : BitVec 24) = entryWord 0 1 1 0 0 0 0 := by decide
  have e5 : (0x060000 : BitVec 24) = entryWord 0 1 2 0 0 0 0 := by decide
  have e6 : (0x077F7F : BitVec 24) = entryWord 0 1 3 0 0x7F 0 0x7F := by decide
  have e7 : (0x077F70 : BitVec 24) = entryWord 0 1 3 0 0x7F 0 0x70 := by decide
  have e8 : (0x041130 : BitVec 24) = entryWord 0 1 0 0 0x11 0 0x30 := by decide
  have e9 : (0x076000 : BitVec 24) = entryWord 0 1 3 0 0x60 0 0 := by decide
  have e10 : (0x07007F : BitVec 24) = entryWord 0 1 3 0 0 0 0x7F := by decide
  have e11 : (0x070040 : BitVec 24) = entryWord 0 1 3 0 0 0 0x40 := by decide
  have e12 : (0x040040 : BitVec 24) = entryWord 0 1 0 0 0 0 0x40 := by decide
  have e13 : (0x070060 : BitVec 24) = entryWord 0 1 3 0 0 0 0x60 := by decide
  have e14 : (0x040020 : BitVec 24) = entryWord 0 1 0 0 0 0 0x20 := by decide
  have a1 : ∀ x : BitVec 1, x &&& 1 = x := by decide
  have a2 : ∀ x : BitVec 2, x &&& 3 = x := by decide
  have a7 : ∀ x : BitVec 7, x &&& 0x7F = x := by decide
  have c1 : ∀ x : BitVec 1, x = 0 ∨ x = 1 := by decide
  have c2 : ∀ x : BitVec 2, x = 0 ∨ x = 1 ∨ x = 2 ∨ x = 3 := by decide
  simp only [entry24Rows, firstRow, e1, e2, e3, e4, e5, e6, e7, e8, e9, e10, e11, e12, e13, e14, entryRow_iff, a1, a2, a7,
    entryMk_entryWord, entryType_entryWord, entryP1_entryWord, entryD1_entryWord, entryP2_entryWord,
    entryD2_entryWord, entryWord_low4]
  rcases c1 v with rfl | rfl <;> rcases c2 t with rfl | rfl | rfl | rfl <;> simp

/-! ## Bits and bytes of a source (00_scope R10, R11) -/

theorem srcBits_lt (src : Source) (p n : Nat) : srcBits src p n < 2 ^ n := by
  induction n with
  | zero => simp [srcBits]
  | succ n ih =>
    have : (srcBit src (p + n)).toNat ≤ 1 := Bool.toNat_le _
    rw [srcBits, Nat.pow_succ]
    omega

theorem memRead_lt (src : Source) (a n : Nat) : memRead src a n < 256 ^ n := by
  induction n with
  | zero => simp [memRead]
  | succ n ih =>
    have : (srcByte src (a + n)).toNat < 256 := (srcByte src (a + n)).isLt
    rw [memRead, Nat.pow_succ]
    omega

@[simp] theorem bytesOf_length (n v : Nat) : (bytesOf n v).length = n := by
  induction n generalizing v with
  | zero => rfl
  | succ n ih => simp [bytesOf, ih]

theorem srcByte_append_left (a b : Source) (i : Nat) (h : i < a.length) : srcByte (a ++ b) i = srcByte a i := by
  simp [srcByte, List.getD, List.getElem?_append_left h]

theorem memRead_append_left (a b : Source) (i n : Nat) (h : i + n ≤ a.length) :
    memRead (a ++ b) i n = memRead a i n := by
  induction n with
  | zero => rfl
  | succ n ih => rw [memRead, memRead, ih (by omega), srcByte_append_left _ _ _ (by omega)]

/-- Reading back the bytes of a value. -/
theorem memRead_bytesOf (n v : Nat) : memRead (bytesOf n v) 0 n = v % 256 ^ n := by
  induction n generalizing v with
  | zero => simp [memRead, Nat.mod_one]
  | succ n ih =>
    have hb : srcByte (bytesOf n (v / 256) ++ [BitVec.ofNat 8 v]) (0 + n) = BitVec.ofNat 8 v := by
      simp [srcByte, List.getD]
    rw [bytesOf, memRead, memRead_append_left _ _ _ _ (by simp), ih, hb, Nat.pow_succ, Nat.mul_comm (256 ^ n) 256,
      Nat.mod_mul]
    simp
    omega

/-- A read of `a + b` bits is the read of the first `a` and then of `b` (40_bit_reader R136). -/
theorem srcBits_add (src : Source) (p a b : Nat) :
    srcBits src p (a + b) = srcBits src p a * 2 ^ b + srcBits src (p + a) b := by
  induction b with
  | zero => simp [srcBits]
  | succ b ih =>
    rw [← Nat.add_assoc, srcBits, ih, srcBits, Nat.add_assoc p a b, Nat.pow_succ]
    ring

/-- An entry word as a number. -/
theorem entryWord_toNat (mk : BitVec 5) (v : BitVec 1) (t : BitVec 2) (p1 : BitVec 1) (d1 : BitVec 7) (p2 : BitVec 1)
    (d2 : BitVec 7) :
    (entryWord mk v t p1 d1 p2 d2).toNat =
      (((((mk.toNat * 2 + v.toNat) * 4 + t.toNat) * 2 + p1.toNat) * 128 + d1.toNat) * 2 + p2.toNat) * 128 + d2.toNat := by
  have h : (mk ++ v ++ t ++ p1 ++ d1 ++ p2 ++ d2 : BitVec (5 + 1 + 2 + 1 + 7 + 1 + 7)).toNat =
      (((((mk.toNat * 2 + v.toNat) * 4 + t.toNat) * 2 + p1.toNat) * 128 + d1.toNat) * 2 + p2.toNat) * 128 + d2.toNat := by
    have a : ∀ {n m : Nat} (x : BitVec n) (y : BitVec m), (x ++ y).toNat = x.toNat * 2 ^ m + y.toNat := by
      intro n m x y
      rw [BitVec.toNat_append, ← Nat.shiftLeft_add_eq_or_of_lt y.isLt, Nat.shiftLeft_eq]
    simp only [a]
    norm_num
  exact h

/-- The 24 bits at a position are the entry word of the fields read one after the other. -/
theorem entryWord_srcBits (src : Source) (p : Nat) :
    BitVec.ofNat 24 (srcBits src p 24) =
      entryWord (BitVec.ofNat 5 (srcBits src p 5)) (BitVec.ofBool (srcBit src (p + 5)))
        (BitVec.ofNat 2 (srcBits src (p + 6) 2)) (BitVec.ofNat 1 (srcBits src (p + 8) 1))
        (BitVec.ofNat 7 (srcBits src (p + 9) 7)) (BitVec.ofNat 1 (srcBits src (p + 16) 1))
        (BitVec.ofNat 7 (srcBits src (p + 17) 7)) := by
  apply BitVec.eq_of_toNat_eq
  rw [entryWord_toNat]
  have e : srcBits src p 24 =
      (((((srcBits src p 5 * 2 + (srcBit src (p + 5)).toNat) * 4 + srcBits src (p + 6) 2) * 2 + srcBits src (p + 8) 1) * 128 +
        srcBits src (p + 9) 7) * 2 + srcBits src (p + 16) 1) * 128 + srcBits src (p + 17) 7 := by
    rw [show 24 = 17 + 7 from rfl, srcBits_add, show 17 = 16 + 1 from rfl, srcBits_add, show 16 = 9 + 7 from rfl,
      srcBits_add, show 9 = 8 + 1 from rfl, srcBits_add, show 8 = 6 + 2 from rfl, srcBits_add, show 6 = 5 + 1 from rfl,
      srcBits_add]
    simp [srcBits]
  have b5 := srcBits_lt src p 5
  have b2 := srcBits_lt src (p + 6) 2
  have b8 := srcBits_lt src (p + 8) 1
  have b9 := srcBits_lt src (p + 9) 7
  have b16 := srcBits_lt src (p + 16) 1
  have b17 := srcBits_lt src (p + 17) 7
  have bb : (srcBit src (p + 5)).toNat ≤ 1 := Bool.toNat_le _
  simp only [BitVec.toNat_ofNat, BitVec.toNat_ofBool]
  omega

/-- A read of `m + n` bytes is the read of the first `m` and then of `n` (41_byte_reader R156). -/
theorem memRead_add (src : Source) (a m n : Nat) :
    memRead src a (m + n) = memRead src a m * 256 ^ n + memRead src (a + m) n := by
  induction n with
  | zero => simp [memRead]
  | succ n ih =>
    rw [← Nat.add_assoc, memRead, ih, memRead, Nat.add_assoc a m n, Nat.pow_succ]
    ring

end Sys2Proof
end

