-- ==== Sys2Proof/Laws/State.lean ====
section
/-! SUPPORT. One lemma per field per update of the state, so that no proof unfolds a record update. -/

namespace Sys2Proof.Machine

variable (s : State)

@[simp] theorem State.moveBit_br (n : Nat) : (s.moveBit n).br = ⟨s.br.src, s.br.pos + n⟩ := rfl
@[simp] theorem State.moveBit_byr (n : Nat) : (s.moveBit n).byr = s.byr := rfl
@[simp] theorem State.moveBit_acc (n : Nat) : (s.moveBit n).acc = s.acc := rfl
@[simp] theorem State.moveBit_w (n : Nat) : (s.moveBit n).w = s.w := rfl
@[simp] theorem State.moveBit_hdr (n : Nat) : (s.moveBit n).hdr = s.hdr := rfl
@[simp] theorem State.moveBit_res (n : Nat) : (s.moveBit n).res = s.res := rfl
@[simp] theorem State.moveBit_out (n : Nat) : (s.moveBit n).out = s.out := rfl
@[simp] theorem State.moveBit_phase (n : Nat) : (s.moveBit n).phase = s.phase := rfl
@[simp] theorem State.moveBit_cmds (n : Nat) : (s.moveBit n).cmds = s.cmds := rfl
@[simp] theorem State.moveBit_draws (n : Nat) : (s.moveBit n).draws = s.draws := rfl

@[simp] theorem State.bindBit_br (src : Source) : (s.bindBit src).br = ⟨src, 0⟩ := rfl
@[simp] theorem State.bindBit_byr (src : Source) : (s.bindBit src).byr = s.byr := rfl
@[simp] theorem State.bindBit_acc (src : Source) : (s.bindBit src).acc = s.acc := rfl
@[simp] theorem State.bindBit_w (src : Source) : (s.bindBit src).w = s.w := rfl
@[simp] theorem State.bindBit_hdr (src : Source) : (s.bindBit src).hdr = s.hdr := rfl
@[simp] theorem State.bindBit_res (src : Source) : (s.bindBit src).res = s.res := rfl
@[simp] theorem State.bindBit_out (src : Source) : (s.bindBit src).out = s.out := rfl
@[simp] theorem State.bindBit_phase (src : Source) : (s.bindBit src).phase = s.phase := rfl
@[simp] theorem State.bindBit_cmds (src : Source) : (s.bindBit src).cmds = s.cmds := rfl
@[simp] theorem State.bindBit_draws (src : Source) : (s.bindBit src).draws = s.draws := rfl

@[simp] theorem State.moveByte_br (n : Nat) : (s.moveByte n).br = s.br := rfl
@[simp] theorem State.moveByte_byr (n : Nat) : (s.moveByte n).byr = ⟨s.byr.src, s.byr.pos + n⟩ := rfl
@[simp] theorem State.moveByte_acc (n : Nat) : (s.moveByte n).acc = s.acc := rfl
@[simp] theorem State.moveByte_w (n : Nat) : (s.moveByte n).w = s.w := rfl
@[simp] theorem State.moveByte_hdr (n : Nat) : (s.moveByte n).hdr = s.hdr := rfl
@[simp] theorem State.moveByte_res (n : Nat) : (s.moveByte n).res = s.res := rfl
@[simp] theorem State.moveByte_out (n : Nat) : (s.moveByte n).out = s.out := rfl
@[simp] theorem State.moveByte_phase (n : Nat) : (s.moveByte n).phase = s.phase := rfl
@[simp] theorem State.moveByte_cmds (n : Nat) : (s.moveByte n).cmds = s.cmds := rfl
@[simp] theorem State.moveByte_draws (n : Nat) : (s.moveByte n).draws = s.draws := rfl

@[simp] theorem State.bindByte_br (src : Source) (p : Nat) : (s.bindByte src p).br = s.br := rfl
@[simp] theorem State.bindByte_byr (src : Source) (p : Nat) : (s.bindByte src p).byr = ⟨src, p⟩ := rfl
@[simp] theorem State.bindByte_acc (src : Source) (p : Nat) : (s.bindByte src p).acc = s.acc := rfl
@[simp] theorem State.bindByte_w (src : Source) (p : Nat) : (s.bindByte src p).w = s.w := rfl
@[simp] theorem State.bindByte_hdr (src : Source) (p : Nat) : (s.bindByte src p).hdr = s.hdr := rfl
@[simp] theorem State.bindByte_res (src : Source) (p : Nat) : (s.bindByte src p).res = s.res := rfl
@[simp] theorem State.bindByte_out (src : Source) (p : Nat) : (s.bindByte src p).out = s.out := rfl
@[simp] theorem State.bindByte_phase (src : Source) (p : Nat) : (s.bindByte src p).phase = s.phase := rfl
@[simp] theorem State.bindByte_cmds (src : Source) (p : Nat) : (s.bindByte src p).cmds = s.cmds := rfl
@[simp] theorem State.bindByte_draws (src : Source) (p : Nat) : (s.bindByte src p).draws = s.draws := rfl

@[simp] theorem State.setAcc_br (a : List CodePoint) : (s.setAcc a).br = s.br := rfl
@[simp] theorem State.setAcc_byr (a : List CodePoint) : (s.setAcc a).byr = s.byr := rfl
@[simp] theorem State.setAcc_acc (a : List CodePoint) : (s.setAcc a).acc = a := rfl
@[simp] theorem State.setAcc_w (a : List CodePoint) : (s.setAcc a).w = s.w := rfl
@[simp] theorem State.setAcc_hdr (a : List CodePoint) : (s.setAcc a).hdr = s.hdr := rfl
@[simp] theorem State.setAcc_res (a : List CodePoint) : (s.setAcc a).res = s.res := rfl
@[simp] theorem State.setAcc_out (a : List CodePoint) : (s.setAcc a).out = s.out := rfl
@[simp] theorem State.setAcc_phase (a : List CodePoint) : (s.setAcc a).phase = s.phase := rfl
@[simp] theorem State.setAcc_cmds (a : List CodePoint) : (s.setAcc a).cmds = s.cmds := rfl
@[simp] theorem State.setAcc_draws (a : List CodePoint) : (s.setAcc a).draws = s.draws := rfl

@[simp] theorem State.setW_br (w : CaptionRegs) : (s.setW w).br = s.br := rfl
@[simp] theorem State.setW_byr (w : CaptionRegs) : (s.setW w).byr = s.byr := rfl
@[simp] theorem State.setW_acc (w : CaptionRegs) : (s.setW w).acc = s.acc := rfl
@[simp] theorem State.setW_w (w : CaptionRegs) : (s.setW w).w = w := rfl
@[simp] theorem State.setW_hdr (w : CaptionRegs) : (s.setW w).hdr = s.hdr := rfl
@[simp] theorem State.setW_res (w : CaptionRegs) : (s.setW w).res = s.res := rfl
@[simp] theorem State.setW_out (w : CaptionRegs) : (s.setW w).out = s.out := rfl
@[simp] theorem State.setW_phase (w : CaptionRegs) : (s.setW w).phase = s.phase := rfl
@[simp] theorem State.setW_cmds (w : CaptionRegs) : (s.setW w).cmds = s.cmds := rfl
@[simp] theorem State.setW_draws (w : CaptionRegs) : (s.setW w).draws = s.draws := rfl

@[simp] theorem State.setHdr_br (h : HeaderRegs) : (s.setHdr h).br = s.br := rfl
@[simp] theorem State.setHdr_byr (h : HeaderRegs) : (s.setHdr h).byr = s.byr := rfl
@[simp] theorem State.setHdr_acc (h : HeaderRegs) : (s.setHdr h).acc = s.acc := rfl
@[simp] theorem State.setHdr_w (h : HeaderRegs) : (s.setHdr h).w = s.w := rfl
@[simp] theorem State.setHdr_hdr (h : HeaderRegs) : (s.setHdr h).hdr = h := rfl
@[simp] theorem State.setHdr_res (h : HeaderRegs) : (s.setHdr h).res = s.res := rfl
@[simp] theorem State.setHdr_out (h : HeaderRegs) : (s.setHdr h).out = s.out := rfl
@[simp] theorem State.setHdr_phase (h : HeaderRegs) : (s.setHdr h).phase = s.phase := rfl
@[simp] theorem State.setHdr_cmds (h : HeaderRegs) : (s.setHdr h).cmds = s.cmds := rfl
@[simp] theorem State.setHdr_draws (h : HeaderRegs) : (s.setHdr h).draws = s.draws := rfl

@[simp] theorem State.setRes_br (r : Result) : (s.setRes r).br = s.br := rfl
@[simp] theorem State.setRes_byr (r : Result) : (s.setRes r).byr = s.byr := rfl
@[simp] theorem State.setRes_acc (r : Result) : (s.setRes r).acc = s.acc := rfl
@[simp] theorem State.setRes_w (r : Result) : (s.setRes r).w = s.w := rfl
@[simp] theorem State.setRes_hdr (r : Result) : (s.setRes r).hdr = s.hdr := rfl
@[simp] theorem State.setRes_res (r : Result) : (s.setRes r).res = r := rfl
@[simp] theorem State.setRes_out (r : Result) : (s.setRes r).out = s.out := rfl
@[simp] theorem State.setRes_phase (r : Result) : (s.setRes r).phase = s.phase := rfl
@[simp] theorem State.setRes_cmds (r : Result) : (s.setRes r).cmds = s.cmds := rfl
@[simp] theorem State.setRes_draws (r : Result) : (s.setRes r).draws = s.draws := rfl

@[simp] theorem State.setPhase_br (p : Phase) : (s.setPhase p).br = s.br := rfl
@[simp] theorem State.setPhase_byr (p : Phase) : (s.setPhase p).byr = s.byr := rfl
@[simp] theorem State.setPhase_acc (p : Phase) : (s.setPhase p).acc = s.acc := rfl
@[simp] theorem State.setPhase_w (p : Phase) : (s.setPhase p).w = s.w := rfl
@[simp] theorem State.setPhase_hdr (p : Phase) : (s.setPhase p).hdr = s.hdr := rfl
@[simp] theorem State.setPhase_res (p : Phase) : (s.setPhase p).res = s.res := rfl
@[simp] theorem State.setPhase_out (p : Phase) : (s.setPhase p).out = s.out := rfl
@[simp] theorem State.setPhase_phase (p : Phase) : (s.setPhase p).phase = p := rfl
@[simp] theorem State.setPhase_cmds (p : Phase) : (s.setPhase p).cmds = s.cmds := rfl
@[simp] theorem State.setPhase_draws (p : Phase) : (s.setPhase p).draws = s.draws := rfl

@[simp] theorem State.setCmds_br (c : List Instr) : (s.setCmds c).br = s.br := rfl
@[simp] theorem State.setCmds_byr (c : List Instr) : (s.setCmds c).byr = s.byr := rfl
@[simp] theorem State.setCmds_acc (c : List Instr) : (s.setCmds c).acc = s.acc := rfl
@[simp] theorem State.setCmds_w (c : List Instr) : (s.setCmds c).w = s.w := rfl
@[simp] theorem State.setCmds_hdr (c : List Instr) : (s.setCmds c).hdr = s.hdr := rfl
@[simp] theorem State.setCmds_res (c : List Instr) : (s.setCmds c).res = s.res := rfl
@[simp] theorem State.setCmds_out (c : List Instr) : (s.setCmds c).out = s.out := rfl
@[simp] theorem State.setCmds_phase (c : List Instr) : (s.setCmds c).phase = s.phase := rfl
@[simp] theorem State.setCmds_cmds (c : List Instr) : (s.setCmds c).cmds = c := rfl
@[simp] theorem State.setCmds_draws (c : List Instr) : (s.setCmds c).draws = s.draws := rfl

@[simp] theorem State.emit_br (e : Event) : (s.emit e).br = s.br := rfl
@[simp] theorem State.emit_byr (e : Event) : (s.emit e).byr = s.byr := rfl
@[simp] theorem State.emit_acc (e : Event) : (s.emit e).acc = s.acc := rfl
@[simp] theorem State.emit_w (e : Event) : (s.emit e).w = s.w := rfl
@[simp] theorem State.emit_hdr (e : Event) : (s.emit e).hdr = s.hdr := rfl
@[simp] theorem State.emit_res (e : Event) : (s.emit e).res = s.res := rfl
@[simp] theorem State.emit_out (e : Event) : (s.emit e).out = s.out ++ [e] := rfl
@[simp] theorem State.emit_phase (e : Event) : (s.emit e).phase = s.phase := rfl
@[simp] theorem State.emit_cmds (e : Event) : (s.emit e).cmds = s.cmds := rfl
@[simp] theorem State.emit_draws (e : Event) : (s.emit e).draws = s.draws := rfl

@[simp] theorem State.draw_br (n : Nat) : (s.draw n).br = s.br := rfl
@[simp] theorem State.draw_byr (n : Nat) : (s.draw n).byr = s.byr := rfl
@[simp] theorem State.draw_acc (n : Nat) : (s.draw n).acc = s.acc := rfl
@[simp] theorem State.draw_w (n : Nat) : (s.draw n).w = s.w := rfl
@[simp] theorem State.draw_hdr (n : Nat) : (s.draw n).hdr = s.hdr := rfl
@[simp] theorem State.draw_res (n : Nat) : (s.draw n).res = s.res := rfl
@[simp] theorem State.draw_out (n : Nat) : (s.draw n).out = s.out := rfl
@[simp] theorem State.draw_phase (n : Nat) : (s.draw n).phase = s.phase := rfl
@[simp] theorem State.draw_cmds (n : Nat) : (s.draw n).cmds = s.cmds := rfl
@[simp] theorem State.draw_draws (n : Nat) : (s.draw n).draws = s.draws + n := rfl

@[simp] theorem State.dropW_br : (s.dropW).br = s.br := rfl
@[simp] theorem State.dropW_byr : (s.dropW).byr = s.byr := rfl
@[simp] theorem State.dropW_acc : (s.dropW).acc = s.acc := rfl
@[simp] theorem State.dropW_w : (s.dropW).w = freeCaptionRegs s.draws := rfl
@[simp] theorem State.dropW_hdr : (s.dropW).hdr = s.hdr := rfl
@[simp] theorem State.dropW_res : (s.dropW).res = s.res := rfl
@[simp] theorem State.dropW_out : (s.dropW).out = s.out := rfl
@[simp] theorem State.dropW_phase : (s.dropW).phase = s.phase := rfl
@[simp] theorem State.dropW_cmds : (s.dropW).cmds = s.cmds := rfl
@[simp] theorem State.dropW_draws : (s.dropW).draws = s.draws + 8 := rfl

@[simp] theorem State.dropHdr_br : (s.dropHdr).br = s.br := rfl
@[simp] theorem State.dropHdr_byr : (s.dropHdr).byr = s.byr := rfl
@[simp] theorem State.dropHdr_acc : (s.dropHdr).acc = s.acc := rfl
@[simp] theorem State.dropHdr_w : (s.dropHdr).w = s.w := rfl
@[simp] theorem State.dropHdr_hdr : (s.dropHdr).hdr = freeHeaderRegs s.draws := rfl
@[simp] theorem State.dropHdr_res : (s.dropHdr).res = s.res := rfl
@[simp] theorem State.dropHdr_out : (s.dropHdr).out = s.out := rfl
@[simp] theorem State.dropHdr_phase : (s.dropHdr).phase = s.phase := rfl
@[simp] theorem State.dropHdr_cmds : (s.dropHdr).cmds = s.cmds := rfl
@[simp] theorem State.dropHdr_draws : (s.dropHdr).draws = s.draws + 7 := rfl

@[simp] theorem BitReader.len_mk (src : Source) (p : Nat) : (BitReader.mk src p).len = src.length := rfl

@[simp] theorem ByteReader.len_mk (src : Source) (p : Nat) : (ByteReader.mk src p).len = src.length := rfl

end Sys2Proof.Machine
end

