-- ==== Sys2Proof/Laws/Ops.lean ====
section
/-! SUPPORT. What each shared operation of Machine/Ops.lean can do, said once: a reader primitive goes on or underruns, a
fault leaves what 60_exceptions R280 lists, a guard admits or refuses. -/

namespace Sys2Proof.Machine

variable {s t : State}

/-! ## Admission tests -/

theorem bitsFit_iff (n : Nat) : bitsFit n s = true ↔ s.br.pos + n ≤ 8 * s.br.len := by simp [bitsFit]

theorem bytesFit_iff (n : Nat) : bytesFit n s = true ↔ s.byr.pos + n ≤ s.byr.len := by simp [bytesFit]

theorem bitsFit_false_iff (n : Nat) : bitsFit n s = false ↔ 8 * s.br.len < s.br.pos + n := by simp [bitsFit]

theorem bytesFit_false_iff (n : Nat) : bytesFit n s = false ↔ s.byr.len < s.byr.pos + n := by simp [bytesFit]

/-! ## Reader primitives -/

theorem skipBits_fits {n : Nat} (h : bitsFit n s = true) (k : State → State) : skipBits n s k = k (s.moveBit n) := by
  simp [skipBits, h]

theorem skipBits_underrun {n : Nat} (h : bitsFit n s = false) (k : State → State) :
    skipBits n s k = raise .bitUnderrun s := by
  simp [skipBits, h]

theorem readBits_fits {n : Nat} (h : bitsFit n s = true) (k : Nat → State → State) :
    readBits n s k = k (srcBits s.br.src s.br.pos n) (s.moveBit n) := by
  simp [readBits, h]

theorem readBits_underrun {n : Nat} (h : bitsFit n s = false) (k : Nat → State → State) :
    readBits n s k = raise .bitUnderrun s := by
  simp [readBits, h]

theorem readBit_fits (h : bitsFit 1 s = true) (k : Bool → State → State) :
    readBit s k = k (srcBit s.br.src s.br.pos) (s.moveBit 1) := by
  simp [readBit, h]

theorem readBit_underrun (h : bitsFit 1 s = false) (k : Bool → State → State) : readBit s k = raise .bitUnderrun s := by
  simp [readBit, h]

theorem readBytes_fits {n : Nat} (h : bytesFit n s = true) (k : Nat → State → State) :
    readBytes n s k = k (memRead s.byr.src s.byr.pos n) (s.moveByte n) := by
  simp [readBytes, h]

theorem readBytes_underrun {n : Nat} (h : bytesFit n s = false) (k : Nat → State → State) :
    readBytes n s k = raise .byteUnderrun s := by
  simp [readBytes, h]

theorem takeBytes_fits {n : Nat} (h : bytesFit n s = true) (k : State → State) : takeBytes n s k = k (s.moveByte n) := by
  simp [takeBytes, h]

theorem takeBytes_underrun {n : Nat} (h : bytesFit n s = false) (k : State → State) :
    takeBytes n s k = raise .byteUnderrun s := by
  simp [takeBytes, h]

theorem moveBit_moveBit (m n : Nat) : (s.moveBit m).moveBit n = s.moveBit (m + n) := by
  simp [State.moveBit, Nat.add_assoc]

theorem moveByte_moveByte (m n : Nat) : (s.moveByte m).moveByte n = s.moveByte (m + n) := by
  simp [State.moveByte, Nat.add_assoc]

theorem moveBit_zero : s.moveBit 0 = s := rfl

/-- An item whose bits are all there is consumed whole. -/
theorem takeBits_fits (ws : List Nat) (s : State) (h : s.br.pos + ws.sum ≤ 8 * s.br.len) (k : State → State) :
    takeBits ws s k = k (s.moveBit ws.sum) := by
  induction ws generalizing s with
  | nil => rfl
  | cons n ns ih =>
    have hn : bitsFit n s = true := (bitsFit_iff n).2 (by simp at h; omega)
    rw [takeBits, skipBits_fits hn, ih _ (by simp [BitReader.len] at h ⊢; omega), moveBit_moveBit, List.sum_cons]

/-- An item some of whose bits are missing faults, with the cursor after the reads and skips that were admitted. -/
theorem takeBits_underrun (ws : List Nat) (s : State) (hp : s.br.pos ≤ 8 * s.br.len)
    (h : 8 * s.br.len < s.br.pos + ws.sum) (k : State → State) :
    ∃ n, s.br.pos + n ≤ 8 * s.br.len ∧ takeBits ws s k = raise .bitUnderrun (s.moveBit n) := by
  induction ws generalizing s with
  | nil => simp at h; omega
  | cons n ns ih =>
    rcases hn : bitsFit n s with _ | _
    · exact ⟨0, hp, by rw [takeBits, skipBits_underrun hn, moveBit_zero]⟩
    · have hf := (bitsFit_iff n).1 hn
      obtain ⟨m, hm, he⟩ := ih (s.moveBit n) hf (by simp [BitReader.len] at h ⊢; omega)
      refine ⟨n + m, by simpa [BitReader.len, Nat.add_assoc] using hm, ?_⟩
      rw [takeBits, skipBits_fits hn, he, moveBit_moveBit]

/-! ## Taking a fault (60_exceptions R280) -/

theorem raise_idle (h : s.phase = .idle) (c : Cause) : raise c s = s.setRes ⟨statusOf c, c, 0⟩ := by
  simp [raise, h]

theorem raise_sei (h : s.phase = .seiType ∨ s.phase = .seiSize ∨ s.phase = .seiSignature) (c : Cause) :
    raise c s = (((s.setRes ⟨.bufferUnderrun, c, 0⟩).setPhase .idle).dropW).dropHdr := by
  rcases h with h | h | h <;> simp [raise, h]

theorem raise_caption (h : s.phase = .ccHeader ∨ s.phase = .ccEntry ∨ s.phase = .ccFinal) (c : Cause) :
    raise c s = ((((s.setAcc []).setRes ⟨.malformedData, c, 0⟩).setPhase .idle).dropW).dropHdr := by
  rcases h with h | h | h <;> simp [raise, h]

@[simp] theorem raise_br (c : Cause) (s : State) : (raise c s).br = s.br := by
  unfold raise; split <;> rfl

@[simp] theorem raise_byr (c : Cause) (s : State) : (raise c s).byr = s.byr := by
  unfold raise; split <;> rfl

@[simp] theorem raise_out (c : Cause) (s : State) : (raise c s).out = s.out := by
  unfold raise; split <;> rfl

@[simp] theorem raise_cmds (c : Cause) (s : State) : (raise c s).cmds = s.cmds := by
  unfold raise; split <;> rfl

@[simp] theorem raise_phase (c : Cause) (s : State) : (raise c s).phase = .idle := by
  unfold raise; split <;> simp_all

@[simp] theorem raise_cause (c : Cause) (s : State) : (raise c s).res.cause = c := by
  unfold raise; split <;> rfl

@[simp] theorem raise_value (c : Cause) (s : State) : (raise c s).res.value = 0 := by
  unfold raise; split <;> rfl

/-! ## Flushing and finishing -/

theorem flush_empty (h : s.acc = []) : flush s = s := by simp [flush, accHasText, h]

theorem flush_text (h : s.acc ≠ []) : flush s = (s.emit (.text s.acc s.w.ts)).setAcc [] := by
  simp [flush, accHasText, h]

@[simp] theorem flush_acc (s : State) : (flush s).acc = [] := by
  by_cases h : s.acc = []
  · rw [flush_empty h, h]
  · rw [flush_text h]; rfl

theorem flush_out (s : State) :
    (flush s).out = s.out ++ if s.acc = [] then [] else [Event.text s.acc s.w.ts] := by
  by_cases h : s.acc = []
  · simp [flush_empty h, h]
  · simp [flush_text h, h]

@[simp] theorem flush_br (s : State) : (flush s).br = s.br := by unfold flush; split <;> rfl

@[simp] theorem flush_byr (s : State) : (flush s).byr = s.byr := by unfold flush; split <;> rfl

@[simp] theorem flush_w (s : State) : (flush s).w = s.w := by unfold flush; split <;> rfl

@[simp] theorem flush_hdr (s : State) : (flush s).hdr = s.hdr := by unfold flush; split <;> rfl

@[simp] theorem flush_res (s : State) : (flush s).res = s.res := by unfold flush; split <;> rfl

@[simp] theorem flush_phase (s : State) : (flush s).phase = s.phase := by unfold flush; split <;> rfl

@[simp] theorem flush_cmds (s : State) : (flush s).cmds = s.cmds := by unfold flush; split <;> rfl

@[simp] theorem flush_draws (s : State) : (flush s).draws = s.draws := by unfold flush; split <;> rfl

/-! ## Guards -/

theorem whenIdle_idle (h : s.phase = .idle) (k : State → StepResult) : whenIdle s k = k s := by simp [whenIdle, h]

theorem whenIdle_busy (h : s.phase ≠ .idle) (k : State → StepResult) : whenIdle s k = .refused .busy := by
  simp [whenIdle, h]

/-- A command that answers a next state was issued between transactions. -/
theorem whenIdle_next {k : State → StepResult} (h : whenIdle s k = .next t) : s.phase = .idle ∧ k s = .next t := by
  unfold whenIdle at h
  split at h
  · exact ⟨‹_›, h⟩
  · cases h

theorem inPhase_eq {p : Phase} (h : s.phase = p) (k : State → State) : inPhase p s k = .next (k s) := by
  simp [inPhase, h]

/-- A stream item that answers a next state was met in its phase. -/
theorem inPhase_next {p : Phase} {k : State → State} (h : inPhase p s k = .next t) : s.phase = p ∧ t = k s := by
  unfold inPhase at h
  split at h
  · injection h with h
    exact ⟨‹_›, h.symm⟩
  · cases h

end Sys2Proof.Machine
end

