-- ==== Sys2Proof/Laws/Caption.lean ====
section
/-! SUPPORT. The Caption Decoder's reading of its stream: an entry is consumed by the widths of its class and then acts
(44_caption_decoder R215 to R218), and a step in a phase of `CC_PARSE` does what the command does there. -/

namespace Sys2Proof.Machine

variable {s : State}

/-- A read is a skip that also hands on the bits. -/
theorem readBits_eq (n : Nat) (s : State) (k : Nat → State → State) :
    readBits n s k = skipBits n s (k (srcBits s.br.src s.br.pos n)) := rfl

theorem readBit_eq (s : State) (k : Bool → State → State) :
    readBit s k = skipBits 1 s (k (srcBit s.br.src s.br.pos)) := rfl

@[simp] theorem setW_setW (w w' : CaptionRegs) : (s.setW w).setW w' = s.setW w' := rfl

/-- What follows a skip matters at the state after it only. -/
theorem skipBits_congr {n : Nat} {k k' : State → State} (h : k (s.moveBit n) = k' (s.moveBit n)) :
    skipBits n s k = skipBits n s k' := by
  unfold skipBits
  split
  · exact h
  · rfl
/-- A working register written before a skip can be written after it: a fault leaves `W` unspecified anyway. -/
theorem skipBits_setW {n : Nat} {w : CaptionRegs} {k : State → State} (hp : s.phase = .ccEntry) :
    skipBits n (s.setW w) k = skipBits n s fun s => k (s.setW w) := by
  unfold skipBits
  have : bitsFit n (s.setW w) = bitsFit n s := rfl
  rw [this]
  split
  · rfl
  · rw [raise_caption (by simp [hp]), raise_caption (by simp [hp])]; rfl


/-- An item some of whose bits are missing faults after the reads and skips that are admitted. -/
theorem takeBits_admitted {ws : List Nat} {k : State → State} (h : 8 * s.br.len < s.br.pos + ws.sum)
    (hp : s.br.pos ≤ 8 * s.br.len) :
    takeBits ws s k = raise .bitUnderrun (s.moveBit (admitted ws (8 * s.br.len - s.br.pos))) := by
  induction ws generalizing s with
  | nil => simp at h; omega
  | cons n ns ih =>
    by_cases hn : n ≤ 8 * s.br.len - s.br.pos
    · have hf : bitsFit n s = true := (bitsFit_iff n).2 (by omega)
      have hl : (s.moveBit n).br.len = s.br.len := rfl
      have hq : (s.moveBit n).br.pos = s.br.pos + n := rfl
      rw [takeBits, skipBits_fits hf, ih (by rw [hl, hq]; simp at h; omega) (by rw [hl, hq]; omega), moveBit_moveBit, hl,
        hq, admitted, if_pos hn, Nat.sub_add_eq]
    · rw [takeBits, skipBits_underrun ((bitsFit_false_iff n).2 (by omega)), admitted, if_neg hn]; rfl

@[simp] theorem beginCaption_phase (b : Source) (z : SizeWord) (ts : Timestamp) :
    (beginCaption b z ts s).phase = .ccHeader := rfl
@[simp] theorem beginCaption_br (b : Source) (z : SizeWord) (ts : Timestamp) : (beginCaption b z ts s).br = ⟨b, 0⟩ := rfl
@[simp] theorem beginCaption_byr (b : Source) (z : SizeWord) (ts : Timestamp) : (beginCaption b z ts s).byr = s.byr := rfl
@[simp] theorem beginCaption_acc (b : Source) (z : SizeWord) (ts : Timestamp) : (beginCaption b z ts s).acc = [] := rfl
@[simp] theorem beginCaption_out (b : Source) (z : SizeWord) (ts : Timestamp) : (beginCaption b z ts s).out = s.out := rfl
@[simp] theorem beginCaption_cmds (b : Source) (z : SizeWord) (ts : Timestamp) : (beginCaption b z ts s).cmds = s.cmds := rfl
@[simp] theorem beginCaption_hdr (b : Source) (z : SizeWord) (ts : Timestamp) : (beginCaption b z ts s).hdr = s.hdr := rfl
@[simp] theorem beginCaption_ts (b : Source) (z : SizeWord) (ts : Timestamp) : (beginCaption b z ts s).w.ts = ts := rfl

theorem validFlag_bit (b : Bool) : validFlag (if b then 1 else 0) = b := by cases b <;> rfl

theorem otherField_ofNat {t : Nat} (h : t < 4) : otherField (BitVec.ofNat 2 t) = decide (t ≠ 0) := by
  have : t = 0 ∨ t = 1 ∨ t = 2 ∨ t = 3 := by omega
  rcases this with rfl | rfl | rfl | rfl <;> rfl

/-- One iteration of the loop: the entry's class is read off its bits, its bits are consumed, then it acts. -/
theorem parseEntry_eq (hp : s.phase = .ccEntry) (k : State → State) :
    parseEntry s k =
      if srcBit s.br.src (s.br.pos + 5) = false then
        takeBits invalidWidths s fun s => k (s.setW { s.w with ccValid := 0 })
      else if srcBits s.br.src (s.br.pos + 6) 2 ≠ 0 then
        takeBits otherWidths s fun u =>
          k (u.setW { u.w with ccValid := 1, ccType := BitVec.ofNat 2 (srcBits s.br.src (s.br.pos + 6) 2) })
      else
        takeBits field1Widths s fun u =>
          interpretPair (BitVec.ofNat 7 (srcBits s.br.src (s.br.pos + 9) 7))
            (BitVec.ofNat 7 (srcBits s.br.src (s.br.pos + 17) 7))
            (u.setW { u.w with
              ccValid := 1
              ccType := 0
              ccData1 := BitVec.ofNat 7 (srcBits s.br.src (s.br.pos + 9) 7)
              ccData2 := BitVec.ofNat 7 (srcBits s.br.src (s.br.pos + 17) 7) }) k := by
  unfold parseEntry
  simp only [readBits_eq, readBit_eq, State.setW_w, validFlag_bit, otherField_ofNat (srcBits_lt _ _ 2), decide_eq_true_eq]
  split
  · rename_i hv
    simp only [invalidWidths, takeBits]
    refine skipBits_congr (skipBits_congr ?_)
    simp only [State.moveBit_br, hv, Bool.not_false, if_true]
    rw [skipBits_setW (by simpa using hp)]
    refine skipBits_congr ?_
    simp
  · rename_i hv
    split
    · rename_i ht
      simp only [otherWidths, takeBits]
      refine skipBits_congr (skipBits_congr ?_)
      simp only [State.moveBit_br, hv]
      simp
      rw [skipBits_setW (by simpa using hp)]
      refine skipBits_congr ?_
      simp [Nat.add_assoc, ht]
      rw [skipBits_setW (by simpa using hp)]
      refine skipBits_congr ?_
      simp
    · rename_i ht
      simp only [field1Widths, takeBits]
      refine skipBits_congr (skipBits_congr ?_)
      simp only [State.moveBit_br, hv]
      simp
      rw [skipBits_setW (by simpa using hp)]
      refine skipBits_congr ?_
      simp at ht
      simp [Nat.add_assoc, ht]
      rw [skipBits_setW (by simpa using hp)]
      refine skipBits_congr ?_
      simp
      rw [skipBits_setW (by simpa using hp)]
      refine skipBits_congr ?_
      simp [Nat.add_assoc]
      rw [skipBits_setW (by simpa using hp)]
      refine skipBits_congr ?_
      simp [Nat.add_assoc]
      rw [skipBits_setW (by simpa using hp)]
      refine skipBits_congr ?_
      simp

theorem ofNat2_cases (t : Nat) (h : t < 4) : BitVec.ofNat 2 t = 0 ∧ t = 0 ∨ BitVec.ofNat 2 t = 1 ∧ t = 1 ∨
    BitVec.ofNat 2 t = 2 ∧ t = 2 ∨ BitVec.ofNat 2 t = 3 ∧ t = 3 := by
  have : t = 0 ∨ t = 1 ∨ t = 2 ∨ t = 3 := by omega
  rcases this with rfl | rfl | rfl | rfl <;> simp

/-- A step in `ENTRY(i)` is one iteration of the loop of `CC_PARSE`. -/
theorem step_entry (hp : s.phase = .ccEntry) : step s = .next (parseEntry s nextEntry) := by
  have hs : step s = match fetchItem .entry24 s with | .ok i => exec i s | .error _ => .refused .undecodable := by
    unfold step; rw [hp]; rfl
  have hf : fetchItem .entry24 s =
    ((firstRow entry24Rows (BitVec.ofNat 24 (srcBits s.br.src s.br.pos 24))).map .ok).getD (.error .noRow) := rfl
  rw [hs, hf, entryWord_srcBits, firstRow_entryWord, parseEntry_eq hp]
  generalize srcBit s.br.src (s.br.pos + 5) = v
  have ht := ofNat2_cases _ (srcBits_lt s.br.src (s.br.pos + 6) 2)
  generalize srcBits s.br.src (s.br.pos + 6) 2 = t at ht ⊢
  generalize BitVec.ofNat 7 (srcBits s.br.src (s.br.pos + 9) 7) = d1
  generalize BitVec.ofNat 7 (srcBits s.br.src (s.br.pos + 17) 7) = d2
  cases v with
  | false => simp [exec, execEntryInvalid, inPhase, hp]
  | true =>
    obtain ⟨ht, rfl⟩ | ⟨ht, rfl⟩ | ⟨ht, rfl⟩ | ⟨ht, rfl⟩ := ht
    · have c : ∀ d : BitVec 7, (d &&& 0x60 = 0) = (d < 0x20) := by simp only [eq_iff_iff]; decide
      have k : ∀ d : BitVec 7, d &&& 0x70 = 0x30 → 0b011#3 ++ d.extractLsb' 0 4 = d := by decide
      have e1 : (BitVec.ofBool true = 0) = False := by decide
      have e2 : ((0 : BitVec 2) = 1) = False := by decide
      have e3 : ((0 : BitVec 2) = 2) = False := by decide
      have e4 : ((0 : BitVec 2) = 3) = False := by decide
      have e5 : (true = false) = False := by decide
      simp only [ht, interpretPair, c, e1, e2, e3, e4, e5, if_false, ne_eq, not_true_eq_false]
      by_cases h1 : d1 = 0 ∧ d2 = 0
      · simp only [h1, and_self, if_true]
        simp only [Option.map, Option.getD, exec, execPairPad, inPhase, hp, if_true, field1Entry]
      · by_cases h2 : d1 = 0x11 ∧ d2 &&& 0x70 = 0x30
        · simp only [h1, if_false, if_pos h2]
          simp only [Option.map, Option.getD, exec, execPairSpecial, inPhase, hp, if_true, field1Entry, k d2 h2.2, h2.1]
        · by_cases h3 : d1 < 0x20
          · simp only [h1, h2, h3, if_false, if_true]
            simp only [Option.map, Option.getD, exec, execPairControl, inPhase, hp, if_true, field1Entry]
          · simp only [h1, h2, h3, if_false]
            by_cases h4 : d2 = 0
            · simp only [h4, if_true]
              simp only [Option.map, Option.getD, exec, execPairBasic1, inPhase, hp, if_true, field1Entry]
            · by_cases h5 : d2 &&& 0x40 = 0x40
              · simp only [h4, h5, if_false, if_true]
                simp only [Option.map, Option.getD, exec, execPairBasic2A, inPhase, hp, if_true, field1Entry]
              · by_cases h6 : d2 &&& 0x60 = 0x20
                · simp only [h4, h5, h6, if_false, if_true]
                  simp only [Option.map, Option.getD, exec, execPairBasic2B, inPhase, hp, if_true, field1Entry]
                · simp only [h4, h5, h6, if_false]
                  simp only [Option.map, Option.getD, exec, execPairIllegal, inPhase, hp, if_true, field1Entry]
    · simp [exec, execEntryOther1, inPhase, hp, otherEntry]
    · simp [exec, execEntryOther2, inPhase, hp, otherEntry]
    · simp [exec, execEntryOther3, inPhase, hp, otherEntry]
/-- The whole of steps 3 to 7: the header is consumed, then the entries follow. -/
theorem parseCaption_eq (s : State) :
    parseCaption s =
      takeBits headerWidths s fun u =>
        parseEntries (srcBits s.br.src (s.br.pos + 3) 5)
          (startEntries (BitVec.ofNat 5 (srcBits s.br.src (s.br.pos + 3) 5)) u) := by
  unfold parseCaption
  simp only [readBits_eq, headerWidths, takeBits]
  refine skipBits_congr (skipBits_congr (skipBits_congr ?_))
  simp

/-- A step in `HDR` consumes the header and starts the loop. -/
theorem step_header (hp : s.phase = .ccHeader) :
    step s = .next (takeBits headerWidths s
      (startEntries (BitVec.ofNat 5 (srcBits s.br.src (s.br.pos + 3) 5)))) := by
  have hs : step s = match fetchItem .ccHdr16 s with | .ok i => exec i s | .error _ => .refused .undecodable := by
    unfold step; rw [hp]; rfl
  have hn : (BitVec.ofNat 16 (srcBits s.br.src s.br.pos 16)).extractLsb' 8 5 =
      BitVec.ofNat 5 (srcBits s.br.src (s.br.pos + 3) 5) := by
    have e : srcBits s.br.src s.br.pos 16 =
        (srcBits s.br.src s.br.pos 3 * 2 ^ 5 + srcBits s.br.src (s.br.pos + 3) 5) * 2 ^ 8 +
          srcBits s.br.src (s.br.pos + 8) 8 := by
      rw [show 16 = 8 + 8 from rfl, srcBits_add, show 8 = 3 + 5 from rfl, srcBits_add]
    have b1 := srcBits_lt s.br.src s.br.pos 3
    have b2 := srcBits_lt s.br.src (s.br.pos + 3) 5
    have b3 := srcBits_lt s.br.src (s.br.pos + 8) 8
    apply BitVec.eq_of_toNat_eq
    simp only [BitVec.extractLsb'_toNat, BitVec.toNat_ofNat, Nat.shiftRight_eq_div_pow]
    omega
  have z : ∀ v : BitVec 16, (v &&& 0x0000 = 0x0000) = True := by simp
  rw [hs]
  simp only [fetchItem, itemBits, decodeValue, ccHdr16Rows, firstRow, z, if_true, Option.map, Option.getD,
    exec, execCcHdr, inPhase, hp, hn]

end Sys2Proof.Machine
end

