-- ==== Sys2Proof/Laws/Config.lean ====
section
/-! SUPPORT. What is known of `MAX_BUF_BYTES` (00_scope R7; log entry 10), whatever the implementation's choice. -/

namespace Sys2Proof.Config

/-- The test is the comparison with `MAX_BUF_BYTES`. -/
theorem bufferFits_iff (n : Nat) : bufferFits n = true ↔ n ≤ maxBufBytes := by
  unfold bufferFits maxBufBytes minBufBytes maxBufLimit
  split
  · simp only [true_iff]; omega
  · split <;> simp <;> omega

theorem bufferFits_false_iff (n : Nat) : bufferFits n = false ↔ maxBufBytes < n := by
  rw [← Bool.not_eq_true, bufferFits_iff, Nat.not_le]

theorem maxBufBytes_le : maxBufBytes ≤ 8421504 := by
  unfold maxBufBytes minBufBytes maxBufLimit; omega

/-- Up to 95 bytes always fit. -/
theorem le_maxBufBytes {n : Nat} (h : n ≤ 95) : n ≤ maxBufBytes := by
  unfold maxBufBytes minBufBytes; omega

end Sys2Proof.Config
end

