-- ==== Sys2Proof/Laws/Memory.lean ====
section
/-! SUPPORT. The sources the readers read stay well-formed (`Memory.wf`, within `MAX_BUF_BYTES`) and the cursors stay
inside them under every operation that touches a reader; no operation writes a source (20_memory R60, R66). -/

namespace Sys2Proof.Machine

variable {s : State}

theorem reset_readers : State.reset.ReadersInv :=
  ⟨rfl, Nat.zero_le _, rfl, Nat.zero_le _⟩

theorem moveBit_readers {n : Nat} (h : s.ReadersInv) (hn : bitsFit n s = true) : (s.moveBit n).ReadersInv :=
  ⟨h.1, by simpa [BitReader.len] using (bitsFit_iff n).1 hn, h.2.2⟩

theorem moveByte_readers {n : Nat} (h : s.ReadersInv) (hn : bytesFit n s = true) : (s.moveByte n).ReadersInv :=
  ⟨h.1, h.2.1, h.2.2.1, by simpa [ByteReader.len] using (bytesFit_iff n).1 hn⟩

theorem bindBit_readers {src : Source} (h : s.ReadersInv) (hs : Memory.wf src) : (s.bindBit src).ReadersInv :=
  ⟨hs, Nat.zero_le _, h.2.2⟩

theorem bindByte_readers {src : Source} {p : Nat} (h : s.ReadersInv) (hs : Memory.wf src) (hp : p ≤ src.length) :
    (s.bindByte src p).ReadersInv :=
  ⟨h.1, h.2.1, hs, hp⟩

/-- Only the readers matter to `ReadersInv`. -/
theorem readers_congr {t : State} (hb : t.br = s.br) (hy : t.byr = s.byr) (h : s.ReadersInv) : t.ReadersInv := by
  unfold State.ReadersInv at *
  rwa [hb, hy]

theorem raise_readers (c : Cause) (h : s.ReadersInv) : (raise c s).ReadersInv :=
  readers_congr (raise_br c s) (raise_byr c s) h

theorem flush_readers (h : s.ReadersInv) : (flush s).ReadersInv := readers_congr (flush_br s) (flush_byr s) h

end Sys2Proof.Machine
end

