-- ==== Sys2Proof/Laws/PerInstr.lean ====
section
/-! SUPPORT. Statements about every instruction as syntax, one lemma per constructor. -/

/-- An instruction has bits exactly when it is a stream item (45_host_commands R250), and then its encoding has the bytes
of its format (30_encoding R91, R92, R94, R96). -/
def Sys2Proof.Laws.EncodingWidth.Statement (i : Sys2Proof.Instr) : Prop :=
  match Sys2Proof.encode i with
  | some (f, bs) => i.isCommand = false ∧ bs.length = f.bytes
  | none => i.isCommand = true

namespace Sys2Proof.Laws.EncodingWidth

theorem extCont : Statement (.extCont) := ⟨rfl, by simp⟩

theorem extLast : ∀ b, Statement (.extLast b) := fun _ => ⟨rfl, by simp⟩

theorem seihdrMatch : Statement (.seihdrMatch) := ⟨rfl, by simp⟩

theorem seihdrMismatch : ∀ c p u t, Statement (.seihdrMismatch c p u t) := fun _ _ _ _ => ⟨rfl, by simp⟩

theorem ccHdr : ∀ r n m, Statement (.ccHdr r n m) := fun _ _ _ => ⟨rfl, by simp⟩

theorem entryInvalid : ∀ mk t p1 d1 p2 d2, Statement (.entryInvalid mk t p1 d1 p2 d2) := fun _ _ _ _ _ _ => ⟨rfl, by simp⟩

theorem entryOther1 : ∀ mk p1 d1 p2 d2, Statement (.entryOther1 mk p1 d1 p2 d2) := fun _ _ _ _ _ => ⟨rfl, by simp⟩

theorem entryOther2 : ∀ mk p1 d1 p2 d2, Statement (.entryOther2 mk p1 d1 p2 d2) := fun _ _ _ _ _ => ⟨rfl, by simp⟩

theorem entryOther3 : ∀ mk p1 d1 p2 d2, Statement (.entryOther3 mk p1 d1 p2 d2) := fun _ _ _ _ _ => ⟨rfl, by simp⟩

theorem pairPad : ∀ mk p1 p2, Statement (.pairPad mk p1 p2) := fun _ _ _ => ⟨rfl, by simp⟩

theorem pairSpecial : ∀ mk p1 p2 k, Statement (.pairSpecial mk p1 p2 k) := fun _ _ _ _ => ⟨rfl, by simp⟩

theorem pairControl : ∀ mk p1 d1 p2 d2, Statement (.pairControl mk p1 d1 p2 d2) := fun _ _ _ _ _ => ⟨rfl, by simp⟩

theorem pairBasic1 : ∀ mk p1 d1 p2, Statement (.pairBasic1 mk p1 d1 p2) := fun _ _ _ _ => ⟨rfl, by simp⟩

theorem pairBasic2A : ∀ mk p1 d1 p2 d2, Statement (.pairBasic2A mk p1 d1 p2 d2) := fun _ _ _ _ _ => ⟨rfl, by simp⟩

theorem pairBasic2B : ∀ mk p1 d1 p2 d2, Statement (.pairBasic2B mk p1 d1 p2 d2) := fun _ _ _ _ _ => ⟨rfl, by simp⟩

theorem pairIllegal : ∀ mk p1 d1 p2 d2, Statement (.pairIllegal mk p1 d1 p2 d2) := fun _ _ _ _ _ => ⟨rfl, by simp⟩

theorem brReset : ∀ src, Statement (.brReset src) := fun _ => rfl

theorem brReadBit : Statement (.brReadBit) := rfl

theorem brReadBits : ∀ n, Statement (.brReadBits n) := fun _ => rfl

theorem brSkipBits : ∀ n, Statement (.brSkipBits n) := fun _ => rfl

theorem byBind : ∀ src p, Statement (.byBind src p) := fun _ _ => rfl

theorem byReadU8 : Statement (.byReadU8) := rfl

theorem byReadU16 : Statement (.byReadU16) := rfl

theorem byReadI32 : Statement (.byReadI32) := rfl

theorem byPos : Statement (.byPos) := rfl

theorem getBasic : ∀ x, Statement (.getBasic x) := fun _ => rfl

theorem getSpecial : ∀ y, Statement (.getSpecial y) := fun _ => rfl

theorem seiParse : Statement (.seiParse) := rfl

theorem ccParse : ∀ buffer size ts, Statement (.ccParse buffer size ts) := fun _ _ _ => rfl

theorem canParse : ∀ formatId, Statement (.canParse formatId) := fun _ => rfl

end Sys2Proof.Laws.EncodingWidth
end

