-- ==== Sys2Proof/Laws/Sei.lean ====
section
/-! SUPPORT. The SEI Header Parser's reading of its stream: a step in a phase of `SEI_PARSE` does what the command does
there (43_sei_header R191 to R195). -/

namespace Sys2Proof.Machine

variable {s : State}

@[simp] theorem beginSei_phase : (beginSei s).phase = .seiType := rfl
@[simp] theorem beginSei_br : (beginSei s).br = s.br := rfl
@[simp] theorem beginSei_byr : (beginSei s).byr = s.byr := rfl
@[simp] theorem beginSei_acc : (beginSei s).acc = s.acc := rfl
@[simp] theorem beginSei_w : (beginSei s).w = s.w := rfl
@[simp] theorem beginSei_out : (beginSei s).out = s.out := rfl
@[simp] theorem beginSei_cmds : (beginSei s).cmds = s.cmds := rfl
@[simp] theorem beginSei_payloadType : (beginSei s).hdr.payloadType = 0 := rfl

/-- A read of bytes is a move of the cursor that also hands on the value. -/
theorem readBytes_eq (n : Nat) (s : State) (k : Nat → State → State) :
    readBytes n s k = takeBytes n s (k (memRead s.byr.src s.byr.pos n)) := rfl

/-- What follows a read matters at the state after it only. -/
theorem takeBytes_congr {n : Nat} {k k' : State → State} (h : k (s.moveByte n) = k' (s.moveByte n)) :
    takeBytes n s k = takeBytes n s k' := by
  unfold takeBytes
  split
  · exact h
  · rfl

/-- A byte of a type or size field that goes on, or ends. -/
theorem step_field (hp : s.phase = .seiType ∨ s.phase = .seiSize) :
    step s = .next (takeBytes 1 s fun u =>
      if srcByte s.byr.src s.byr.pos = 0xFF then addToField 0xFF u
      else endField (addToField (srcByte s.byr.src s.byr.pos) u)) := by
  have hs : step s = match fetchItem .ext8 s with | .ok i => exec i s | .error _ => .refused .undecodable := by
    unfold step
    rcases hp with hp | hp <;> rw [hp] <;> rfl
  have hv : BitVec.ofNat 8 (memRead s.byr.src s.byr.pos 1) = srcByte s.byr.src s.byr.pos := by
    simp [memRead]
  have m : ∀ b : BitVec 8, (b &&& 0xFF = 0xFF) = (b = 0xFF) := by simp only [eq_iff_iff]; decide
  have z : ∀ b : BitVec 8, (b &&& 0x00 = 0x00) = True := by simp
  rw [hs]
  simp only [fetchItem, itemBits, decodeValue, ext8Rows, firstRow, hv, m, z]
  by_cases hb : srcByte s.byr.src s.byr.pos = 0xFF
  · simp only [hb, if_true, Option.map, Option.getD, exec, execExtCont, inField, hp]
  · simp only [hb, if_true, if_false, Option.map, Option.getD, exec, execExtLast, inField, hp]

/-- The signature fields as the command reads them and as an item carries them. -/
theorem readSignature_eq (s : State) :
    readSignature s =
      takeSignature (BitVec.ofNat 8 (memRead s.byr.src s.byr.pos 1))
        (BitVec.ofNat 16 (memRead s.byr.src (s.byr.pos + 1) 2))
        (BitVec.ofNat 32 (memRead s.byr.src (s.byr.pos + 3) 4))
        (BitVec.ofNat 8 (memRead s.byr.src (s.byr.pos + 7) 1)) s := by
  have small : ∀ (w v c : Nat), v < 2 ^ w → c < 2 ^ w → (v ≠ c ↔ BitVec.ofNat w v ≠ BitVec.ofNat w c) := by
    intro w v c hv hc
    rw [not_iff_not]
    constructor
    · rintro rfl; rfl
    · intro h
      have := congrArg BitVec.toNat h
      rwa [BitVec.toNat_ofNat, BitVec.toNat_ofNat, Nat.mod_eq_of_lt hv, Nat.mod_eq_of_lt hc] at this
  have b1 := memRead_lt s.byr.src s.byr.pos 1
  have b2 := memRead_lt s.byr.src (s.byr.pos + 1) 2
  have b3 := memRead_lt s.byr.src (s.byr.pos + 3) 4
  have b4 := memRead_lt s.byr.src (s.byr.pos + 7) 1
  have c1 := small 8 _ 0xB5 b1 (by decide)
  have c2 := small 16 _ 0x0031 b2 (by decide)
  have c3 := small 32 _ 0x47413934 b3 (by decide)
  have c4 := small 8 _ 3 b4 (by decide)
  unfold readSignature takeSignature
  simp only [readBytes_eq]
  refine takeBytes_congr (ite_congr (propext c1) (fun _ => rfl) fun _ => takeBytes_congr ?_)
  refine ite_congr (propext c2) (fun _ => rfl) fun _ => takeBytes_congr ?_
  refine ite_congr (propext c3) (fun _ => rfl) fun _ => takeBytes_congr ?_
  exact ite_congr (propext c4) (fun _ => rfl) fun _ => rfl

/-- A step at the signature is step 3 of `SEI_PARSE`. -/
theorem step_signature (hp : s.phase = .seiSignature) : step s = .next (readSignature s) := by
  have hs : step s = match fetchItem .sig64 s with | .ok i => exec i s | .error _ => .refused .undecodable := by
    unfold step; rw [hp]; rfl
  have e : memRead s.byr.src s.byr.pos 8 =
      ((memRead s.byr.src s.byr.pos 1 * 256 ^ 2 + memRead s.byr.src (s.byr.pos + 1) 2) * 256 ^ 4 +
        memRead s.byr.src (s.byr.pos + 3) 4) * 256 + memRead s.byr.src (s.byr.pos + 7) 1 := by
    rw [show 8 = 7 + 1 from rfl, memRead_add, show 7 = 3 + 4 from rfl, memRead_add, show 3 = 1 + 2 from rfl, memRead_add,
      Nat.pow_one]
  have b1 := memRead_lt s.byr.src s.byr.pos 1
  have b2 := memRead_lt s.byr.src (s.byr.pos + 1) 2
  have b3 := memRead_lt s.byr.src (s.byr.pos + 3) 4
  have b4 := memRead_lt s.byr.src (s.byr.pos + 7) 1
  rw [readSignature_eq, hs]
  generalize hv : memRead s.byr.src s.byr.pos 8 = v at e
  generalize memRead s.byr.src s.byr.pos 1 = x1 at *
  generalize memRead s.byr.src (s.byr.pos + 1) 2 = x2 at *
  generalize memRead s.byr.src (s.byr.pos + 3) 4 = x3 at *
  generalize memRead s.byr.src (s.byr.pos + 7) 1 = x4 at *
  have f1 : (BitVec.ofNat 64 v).extractLsb' 56 8 = BitVec.ofNat 8 x1 := by
    apply BitVec.eq_of_toNat_eq
    simp only [BitVec.extractLsb'_toNat, BitVec.toNat_ofNat, Nat.shiftRight_eq_div_pow]
    omega
  have f2 : (BitVec.ofNat 64 v).extractLsb' 40 16 = BitVec.ofNat 16 x2 := by
    apply BitVec.eq_of_toNat_eq
    simp only [BitVec.extractLsb'_toNat, BitVec.toNat_ofNat, Nat.shiftRight_eq_div_pow]
    omega
  have f3 : (BitVec.ofNat 64 v).extractLsb' 8 32 = BitVec.ofNat 32 x3 := by
    apply BitVec.eq_of_toNat_eq
    simp only [BitVec.extractLsb'_toNat, BitVec.toNat_ofNat, Nat.shiftRight_eq_div_pow]
    omega
  have f4 : (BitVec.ofNat 64 v).extractLsb' 0 8 = BitVec.ofNat 8 x4 := by
    apply BitVec.eq_of_toNat_eq
    simp only [BitVec.extractLsb'_toNat, BitVec.toNat_ofNat, Nat.shiftRight_eq_div_pow]
    omega
  have m : ∀ b : BitVec 64, (b &&& 0xFFFFFFFFFFFFFFFF = 0xB500314741393403) = (b = 0xB500314741393403) := by
    intro b
    rw [show (0xFFFFFFFFFFFFFFFF : BitVec 64) = BitVec.allOnes 64 from by decide, BitVec.and_allOnes]
  have z : ∀ b : BitVec 64, (b &&& 0x0000000000000000 = 0x0000000000000000) = True := by simp
  simp only [fetchItem, itemBits, decodeValue, sig64Rows, firstRow, hv, m, z, f1, f2, f3, f4]
  by_cases h : BitVec.ofNat 64 v = 0xB500314741393403
  · simp only [h, if_true, Option.map, Option.getD, exec, execSeihdrMatch, inPhase, hp]
    rw [← f1, ← f2, ← f3, ← f4, h]
    rfl
  · simp only [h, if_true, if_false, Option.map, Option.getD, exec, execSeihdrMismatch, inPhase, hp]

end Sys2Proof.Machine
end

