-- ==== Sys2Proof/Tests/Slice0.lean ====
section
/-! SUPPORT. Tests: the well-formedness checks, one written-out word per stream item, single steps with the results that
spec/95_test_vectors.md gives, and for each statement with hypotheses a concrete state and operands that meet them. -/

namespace Sys2Proof.Machine

/-! ## Well-formedness: each check refuses an ill-formed term -/

theorem test_wf_accepts :
    (Instr.extLast 0xFE).wf = true ∧ (Instr.seihdrMismatch 0xB5 0x0031 0x47413934 2).wf = true ∧
    (Instr.pairControl 0 0 0x1F 0 0x7F).wf = true ∧ (Instr.pairControl 0 0 0x11 0 0x2F).wf = true ∧
    (Instr.pairBasic1 0 0 0x20 0).wf = true ∧ (Instr.pairBasic2A 0 0 0x7F 0 0x40).wf = true ∧
    (Instr.pairBasic2B 0 0 0x20 0 0x3F).wf = true ∧ (Instr.pairIllegal 0 0 0x20 0 0x1F).wf = true ∧
    (Instr.brReadBits 32).wf = true ∧ (Instr.byBind [1, 2] 2).wf = true := by decide

theorem test_wf_refuses_extLast : (Instr.extLast 0xFF).wf = false := by decide

theorem test_wf_refuses_seihdrMismatch : (Instr.seihdrMismatch 0xB5 0x0031 0x47413934 3).wf = false := by decide

theorem test_wf_refuses_pairControl :
    (Instr.pairControl 0 0 0x20 0 0).wf = false ∧ (Instr.pairControl 0 0 0 0 0).wf = false ∧
    (Instr.pairControl 0 0 0x11 0 0x30).wf = false ∧ (Instr.pairControl 0 0 0x11 0 0x3F).wf = false := by decide

theorem test_wf_refuses_pairBasic1 : (Instr.pairBasic1 0 0 0x1F 0).wf = false := by decide

theorem test_wf_refuses_pairBasic2A :
    (Instr.pairBasic2A 0 0 0x1F 0 0x40).wf = false ∧ (Instr.pairBasic2A 0 0 0x20 0 0x3F).wf = false := by decide

theorem test_wf_refuses_pairBasic2B :
    (Instr.pairBasic2B 0 0 0x1F 0 0x20).wf = false ∧ (Instr.pairBasic2B 0 0 0x20 0 0x1F).wf = false ∧
    (Instr.pairBasic2B 0 0 0x20 0 0x40).wf = false := by decide

theorem test_wf_refuses_pairIllegal :
    (Instr.pairIllegal 0 0 0x1F 0 0x01).wf = false ∧ (Instr.pairIllegal 0 0 0x20 0 0).wf = false ∧
    (Instr.pairIllegal 0 0 0x20 0 0x20).wf = false := by decide

theorem test_wf_refuses_brReadBits : (Instr.brReadBits 33).wf = false := by decide

theorem test_wf_refuses_byBind_pastEnd : (Instr.byBind [1, 2] 3).wf = false := by decide

theorem test_wf_refuses_brReset : (Instr.brReset (List.replicate 8421505 0)).wf = false := by
  rw [Instr.wf, List.length_replicate]; decide

theorem test_wf_refuses_byBind : (Instr.byBind (List.replicate 8421505 0) 0).wf = false := by
  rw [Instr.wf, List.length_replicate]; decide

theorem test_wf_refuses_ccParse : (Instr.ccParse (List.replicate 8421505 0) 1 0).wf = false := by
  rw [Instr.wf, List.length_replicate]; decide

/-! ## Decoding: words written out bit by bit from 30_encoding R91 to R96 -/

theorem test_decode_extCont : decodeTableWord 8 0b11111111 = some .extCont := by decide

theorem test_decode_extLast : decodeTableWord 8 0b11111110 = some (.extLast 0xFE) := by decide

theorem test_decode_seihdrMatch : decodeTableWord 64 0xB5_0031_47413934_03 = some .seihdrMatch := by decide

theorem test_decode_seihdrMismatch :
    decodeTableWord 64 0xB5_0031_47413835_02 = some (.seihdrMismatch 0xB5 0x0031 0x47413835 2) := by decide

theorem test_decode_ccHdr : decodeTableWord 16 0b101_10011_01000001 = some (.ccHdr 5 19 0x41) := by decide

theorem test_decode_entryInvalid :
    decodeTableWord 24 0b10101_0_11_1_0010100_0_0101100 = some (.entryInvalid 21 3 1 0x14 0 0x2C) := by decide

theorem test_decode_entryOther1 :
    decodeTableWord 24 0b00001_1_01_0_0010100_1_0101100 = some (.entryOther1 1 0 0x14 1 0x2C) := by decide

theorem test_decode_entryOther2 :
    decodeTableWord 24 0b00010_1_10_1_0000001_0_1000000 = some (.entryOther2 2 1 0x01 0 0x40) := by decide

theorem test_decode_entryOther3 :
    decodeTableWord 24 0b10000_1_11_0_1111111_0_0000000 = some (.entryOther3 16 0 0x7F 0 0) := by decide

theorem test_decode_pairPad :
    decodeTableWord 24 0b11110_1_00_1_0000000_0_0000000 = some (.pairPad 30 1 0) := by decide

theorem test_decode_pairSpecial :
    decodeTableWord 24 0b11111_1_00_0_0010001_1_0111001 = some (.pairSpecial 31 0 1 9) := by decide

theorem test_decode_pairControl :
    decodeTableWord 24 0b01010_1_00_0_0010001_0_0101111 = some (.pairControl 10 0 0x11 0 0x2F) ∧
    decodeTableWord 24 0b00000_1_00_0_0000000_0_0000001 = some (.pairControl 0 0 0x00 0 0x01) := by decide

theorem test_decode_pairBasic1 :
    decodeTableWord 24 0b00100_1_00_1_0101010_1_0000000 = some (.pairBasic1 4 1 0x2A 1) := by decide

theorem test_decode_pairBasic2A :
    decodeTableWord 24 0b00000_1_00_1_1001000_0_1001001 = some (.pairBasic2A 0 1 0x48 0 0x49) := by decide

theorem test_decode_pairBasic2B :
    decodeTableWord 24 0b00000_1_00_0_1000001_1_0111111 = some (.pairBasic2B 0 0 0x41 1 0x3F) := by decide

theorem test_decode_pairIllegal :
    decodeTableWord 24 0b00111_1_00_0_0110001_0_0010001 = some (.pairIllegal 7 0 0x31 0 0x11) := by decide

/-- A host command has no bits (45_host_commands R250): no width of the table names one. -/
theorem test_decode_no_command : decodeTableWord 0 0 = none := by decide

/-- The bytes of V-CC-28's entry and of V-SEI-01's signature. -/
theorem test_encode_bytes :
    encode (.pairControl 0b11111 1 0x14 1 0x2C) = some (.entry24, [0xFC, 0x94, 0xAC]) ∧
    encode .seihdrMatch = some (.sig64, signatureBytes) ∧
    encode .byPos = none := by decide

/-- 95_test_vectors 2.6, the neighbours of the special range. -/
theorem test_decode_specialNeighbours :
    decodeTableWord 24 0x041030 = some (.pairControl 0 0 0x10 0 0x30) ∧
    decodeTableWord 24 0x041230 = some (.pairControl 0 0 0x12 0 0x30) ∧
    decodeTableWord 24 0x041140 = some (.pairControl 0 0 0x11 0 0x40) ∧
    decodeTableWord 24 0x04113F = some (.pairSpecial 0 0 0 15) := by decide

/-! ## Small states -/

/-- A state with the Bit Reader at bit `pos` of `src`. -/
def onBits (src : Source) (pos : Nat) : State := (State.reset.bindBit src).moveBit pos

/-- A state with the Byte Reader at byte `pos` of `src`. -/
def onBytes (src : Source) (pos : Nat) : State := State.reset.bindByte src pos

/-- A state in the loop of `CC_PARSE`, at the last of `count` entries, with `acc` collected. -/
def inLoop (src : Source) (count : BitVec 5) (acc : List CodePoint) : State :=
  (((onBits src (16 + 24 * (count.toNat - 1))).setW
    { State.reset.w with ts := 1000, ccCount := count, i := count - 1 }).setAcc acc).setPhase .ccEntry

/-- A state inside `SEI_PARSE` with the type 4 read and `size` as the size so far. -/
def inHeader (p : Phase) (src : Source) (pos size : Nat) : State :=
  ((onBytes src pos).setHdr { State.reset.hdr with payloadType := 4, payloadSize := size }).setPhase p

/-- The step goes on, to a state with the property `p`. -/
def after (r : StepResult) (p : State → Bool) : Bool :=
  match r with
  | .next t => p t
  | _ => false

/-- The bits of 95_test_vectors 2.1. -/
def bitVectorSource : Source := [0xA5, 0xC3, 0x5A, 0x3C, 0xF0]

/-- The bytes of 95_test_vectors 2.2. -/
def byteVectorSource : Source := [0x04, 0x08, 0xB5, 0x00, 0x31, 0x47, 0x41, 0x39, 0x34, 0x03]

/-- The buffer of V-CC-01. -/
def captionSource : Source := [0x03, 0x00, 0x04, 0x48, 0x49, 0x04, 0x14, 0x2C, 0x04, 0x58, 0x00]

/-- The buffer of V-CC-02: `captionSource` with other ignored bits. -/
def captionSourceNoisy : Source := [0xC3, 0xFF, 0xFC, 0xC8, 0x49, 0xFC, 0x14, 0xAC, 0xFC, 0xD8, 0x80]

/-! ## Host commands, with the results of 95_test_vectors 2.1 to 2.5 -/

/-- V-BR-21. -/
theorem test_brReset :
    after (exec (.brReset bitVectorSource) (onBits bitVectorSource 5))
      (fun t => t.br == ⟨bitVectorSource, 0⟩ && t.res == ⟨.ok, .none, 0⟩) = true := by decide

/-- V-BR-01, V-BR-15. -/
theorem test_brReadBit :
    after (exec .brReadBit (onBits bitVectorSource 0)) (fun t => t.br.pos == 1 && t.res == ⟨.ok, .none, 1⟩) = true ∧
    after (exec .brReadBit (onBits bitVectorSource 40))
      (fun t => t.br.pos == 40 && t.res == ⟨.bufferUnderrun, .bitUnderrun, 0⟩) = true := by decide

/-- V-BR-06, V-BR-11: across byte boundaries. -/
theorem test_brReadBits :
    after (exec (.brReadBits 7) (onBits bitVectorSource 3))
      (fun t => t.br.pos == 10 && t.res == ⟨.ok, .none, 0x17⟩) = true ∧
    after (exec (.brReadBits 32) (onBits bitVectorSource 4))
      (fun t => t.br.pos == 36 && t.res == ⟨.ok, .none, 0x5C35A3CF⟩) = true := by decide

/-- V-BR-13, V-BR-16. -/
theorem test_brReadBits_end :
    after (exec (.brReadBits 32) (onBits bitVectorSource 9))
      (fun t => t.br.pos == 9 && t.res == ⟨.bufferUnderrun, .bitUnderrun, 0⟩) = true ∧
    after (exec (.brReadBits 0) (onBits bitVectorSource 40))
      (fun t => t.br.pos == 40 && t.res == ⟨.ok, .none, 0⟩) = true := by decide

/-- V-BR-18, V-BR-19. -/
theorem test_brSkipBits :
    after (exec (.brSkipBits 24) (onBits bitVectorSource 16))
      (fun t => t.br.pos == 40 && t.res.status == .ok) = true ∧
    after (exec (.brSkipBits 25) (onBits bitVectorSource 16))
      (fun t => t.br.pos == 16 && t.res == ⟨.bufferUnderrun, .bitUnderrun, 0⟩) = true := by decide

/-- 41_byte_reader R150: `p = len(S)` is admitted; 10_state R31: a fault status does not outlast it. -/
theorem test_byBind :
    after (exec (.byBind byteVectorSource 10) (State.reset.setRes ⟨.bufferUnderrun, .byteUnderrun, 0⟩))
      (fun t => t.byr == ⟨byteVectorSource, 10⟩ && t.res.status == .ok && t.res.cause == .none) = true := by
  decide

/-- V-BY-06, V-BY-07. -/
theorem test_byReadU8 :
    after (exec .byReadU8 (onBytes byteVectorSource 9)) (fun t => t.byr.pos == 10 && t.res == ⟨.ok, .none, 3⟩) = true ∧
    after (exec .byReadU8 (onBytes byteVectorSource 10))
      (fun t => t.byr.pos == 10 && t.res == ⟨.bufferUnderrun, .byteUnderrun, 0⟩) = true := by decide

/-- V-BY-04, V-BY-08. -/
theorem test_byReadU16 :
    after (exec .byReadU16 (onBytes byteVectorSource 2))
      (fun t => t.byr.pos == 4 && t.res == ⟨.ok, .none, 0xB500⟩) = true ∧
    after (exec .byReadU16 (onBytes byteVectorSource 9))
      (fun t => t.byr.pos == 9 && t.res == ⟨.bufferUnderrun, .byteUnderrun, 0⟩) = true := by decide

/-- 95_test_vectors 2.2, `S'`: the unsigned view; V-BY-09. -/
theorem test_byReadI32 :
    after (exec .byReadI32 (onBytes [0xFF, 0xFE, 0x80, 0x00] 0))
      (fun t => t.byr.pos == 4 && t.res == ⟨.ok, .none, 4294868992⟩) = true ∧
    after (exec .byReadI32 (onBytes byteVectorSource 7))
      (fun t => t.byr.pos == 7 && t.res == ⟨.bufferUnderrun, .byteUnderrun, 0⟩) = true := by decide

/-- V-BY-11. -/
theorem test_byPos : after (exec .byPos (onBytes byteVectorSource 10)) (fun t => t.res == ⟨.ok, .none, 10⟩) = true := by
  decide

/-- V-TB-02, V-TB-04, V-TB-09, V-TB-11. -/
theorem test_getBasic :
    after (exec (.getBasic 0x5A) State.reset) (fun t => t.res == ⟨.ok, .none, 0x5A⟩) = true ∧
    after (exec (.getBasic 0x2A) State.reset) (fun t => t.res == ⟨.ok, .none, 0xE1⟩) = true ∧
    after (exec (.getBasic 0x1F) State.reset) (fun t => t.res == ⟨.malformedData, .tableIndexRange, 0⟩) = true ∧
    after (exec (.getBasic 0x80) State.reset) (fun t => t.res == ⟨.malformedData, .tableIndexRange, 0⟩) = true := by
  decide

/-- V-TB-07, V-TB-08: the high bits do not matter. -/
theorem test_getSpecial :
    after (exec (.getSpecial 0xF0) State.reset) (fun t => t.res == ⟨.ok, .none, 0xAE⟩) = true ∧
    after (exec (.getSpecial 0x49) State.reset) (fun t => t.res == ⟨.ok, .none, 0x20⟩) = true := by decide

/-- V-TB-12 to V-TB-18, with the default tables of 42_char_tables R176, R177. -/
theorem test_defaultTables :
    ([0x20, 0x7F, 0x5C, 0x5E, 0x5F, 0x60, 0x7B, 0x7C, 0x7D, 0x7E, 0x61].map fun x =>
      basicWith Config.basicDefault (x - 0x20)) =
        [0x20, 0x25A0, 0xE9, 0xED, 0xF3, 0xFA, 0xE7, 0xF7, 0xD1, 0xF1, 0x61] ∧
    specialWith Config.specialDefault 7 = 0x266A ∧ specialWith Config.specialDefault 4 = 0x2122 := by decide

/-- V-SEI-17, V-SEI-26: a three-byte size; a field of which one byte is missing. -/
theorem test_seiParse :
    after (exec .seiParse (onBytes [0x04, 0xFF, 0xFF, 0x03, 0xB5, 0x00, 0x31, 0x47, 0x41, 0x39, 0x34, 0x03] 0))
      (fun t => t.byr.pos == 12 && t.res == ⟨.ok, .none, 513⟩) = true ∧
    after (exec .seiParse (onBytes [0x04, 0x08, 0xB5, 0x00] 0))
      (fun t => t.byr.pos == 3 && t.res == ⟨.bufferUnderrun, .byteUnderrun, 0⟩) = true := by decide

/-- V-CC-02, V-CC-34. -/
theorem test_ccParse :
    after (exec (.ccParse captionSourceNoisy 11 1000) State.reset) (fun t =>
      t.out == [.text [0x48, 0x49] 1000, .control 0x14 0x2C 1000, .text [0x58] 1000] && t.br.pos == 88 &&
        t.res == ⟨.ok, .none, 0⟩) = true ∧
    after (exec (.ccParse (captionSource.take 10) 10 10) State.reset) (fun t =>
      t.out == [.text [0x48, 0x49] 10, .control 0x14 0x2C 10] && t.br.pos == 80 && t.acc == [] &&
        t.res == ⟨.malformedData, .bitUnderrun, 0⟩) = true := by decide

/-- 45_host_commands R256, both answers. -/
theorem test_canParse :
    exec (.canParse Config.supportedFormatId) State.reset = .next (State.reset.setRes ⟨.ok, .none, 1⟩) ∧
    exec (.canParse (Config.supportedFormatId ++ "x")) State.reset = .next (State.reset.setRes ⟨.ok, .none, 0⟩) := by
  have h : Config.supportedFormatId ++ "x" ≠ Config.supportedFormatId := by
    intro e
    have := congrArg String.length e
    simp at this
  constructor <;> simp [exec, execCanParse, whenIdle, State.reset, canParse, answer, boolValue, h]

/-! ## Stream items -/

/-- The first byte of V-SEI-10. -/
theorem test_extCont :
    after (exec .extCont ((onBytes [0xFF, 0x05] 0).setPhase .seiType))
      (fun t => t.byr.pos == 1 && t.hdr.payloadType == 255 && t.phase == .seiType) = true := by decide

/-- V-SEI-12, V-SEI-15. -/
theorem test_extLast :
    after (exec (.extLast 5) ((onBytes [0x05, 0x08] 0).setPhase .seiType))
      (fun t => t.byr.pos == 1 && t.res == ⟨.ok, .none, 0⟩ && t.phase == .idle) = true ∧
    after (exec (.extLast 0) (inHeader .seiSize [0x04, 0x00, 0xB5] 1 0))
      (fun t => t.byr.pos == 2 && t.res == ⟨.ok, .none, 0⟩ && t.phase == .idle) = true := by decide

/-- V-SEI-01, V-SEI-29. -/
theorem test_seihdrMatch :
    after (exec .seihdrMatch (inHeader .seiSignature byteVectorSource 2 8))
      (fun t => t.byr.pos == 10 && t.res == ⟨.ok, .none, 8⟩) = true ∧
    after (exec .seihdrMatch (inHeader .seiSignature (byteVectorSource.take 8) 2 8))
      (fun t => t.byr.pos == 5 && t.res == ⟨.bufferUnderrun, .byteUnderrun, 0⟩) = true := by decide

/-- V-SEI-27, V-SEI-08. -/
theorem test_seihdrMismatch :
    after (step (inHeader .seiSignature [0x04, 0x08, 0xB4] 2 8))
      (fun t => t.byr.pos == 3 && t.res == ⟨.ok, .none, 0⟩) = true ∧
    after (exec (.seihdrMismatch 0xB5 0x0031 0x47413935 3) (inHeader .seiSignature byteVectorSource 2 8))
      (fun t => t.byr.pos == 9 && t.res == ⟨.ok, .none, 0⟩) = true := by decide

/-- V-CC-04, V-CC-06. -/
theorem test_ccHdr :
    after (exec (.ccHdr 7 0 0xFF) ((onBits [0xE0, 0xFF] 0).setPhase .ccHeader))
      (fun t => t.br.pos == 16 && t.w.ccCount == 0 && t.phase == .ccFinal) = true ∧
    after (exec (.ccHdr 0 0 0) ((onBits [0x00] 0).setPhase .ccHeader))
      (fun t => t.br.pos == 8 && t.res == ⟨.malformedData, .bitUnderrun, 0⟩ && t.phase == .idle) = true := by decide

/-- V-CC-13, V-CC-38. -/
theorem test_entryInvalid :
    after (exec (.entryInvalid 0 3 0 0x14 0 0x2C) (inLoop [0x01, 0x00, 0x03, 0x14, 0x2C] 1 [0x48]))
      (fun t => t.br.pos == 40 && t.out == [] && t.acc == [0x48]) = true ∧
    after (exec (.entryInvalid 0 0 0 0 0 0) (inLoop [0x01, 0x00, 0x00] 1 []))
      (fun t => t.br.pos == 22 && t.res == ⟨.malformedData, .bitUnderrun, 0⟩) = true := by decide

/-- V-CC-14, with text collected before (R217). -/
theorem test_entryOther1 :
    after (exec (.entryOther1 0 0 0x14 0 0x2C) (inLoop [0x01, 0x00, 0x05, 0x14, 0x2C] 1 [0x48]))
      (fun t => t.br.pos == 40 && t.out == [] && t.acc == [0x48]) = true := by decide

/-- V-CC-15. -/
theorem test_entryOther2 :
    after (exec (.entryOther2 0 0 0x14 0 0x2C) (inLoop [0x01, 0x00, 0x06, 0x14, 0x2C] 1 []))
      (fun t => t.br.pos == 40 && t.out == [] && t.phase == .ccFinal) = true := by decide

/-- V-CC-16. -/
theorem test_entryOther3 :
    after (exec (.entryOther3 0 0 0x14 0 0x2C) (inLoop [0x01, 0x00, 0x07, 0x14, 0x2C] 1 []))
      (fun t => t.br.pos == 40 && t.out == [] && t.phase == .ccFinal) = true := by decide

/-- V-CC-10, V-CC-11: padding does not split a run. -/
theorem test_pairPad :
    after (exec (.pairPad 0 0 0) (inLoop [0x01, 0x00, 0x04, 0x00, 0x00] 1 [0x48]))
      (fun t => t.br.pos == 40 && t.out == [] && t.acc == [0x48]) = true := by decide

/-- V-CC-18, V-CC-19. -/
theorem test_pairSpecial :
    after (exec (.pairSpecial 0 0 0 0) (inLoop [0x01, 0x00, 0x04, 0x11, 0x30] 1 [0x41]))
      (fun t => t.br.pos == 40 && t.out == [] && t.acc == [0x41, 0xAE]) = true ∧
    after (exec (.pairSpecial 0 0 0 9) (inLoop [0x01, 0x00, 0x04, 0x11, 0x39] 1 []))
      (fun t => t.acc == [0x20]) = true := by decide

/-- V-CC-26; the second entry of V-CC-33. -/
theorem test_pairControl :
    after (exec (.pairControl 0 0 0x1F 0 0x7F) (inLoop [0x01, 0x00, 0x04, 0x1F, 0x7F] 1 []))
      (fun t => t.out == [.control 0x1F 0x7F 1000]) = true ∧
    after (exec (.pairControl 0 0 0x14 0 0x2C) (inLoop [0x01, 0x00, 0x04, 0x14, 0x2C] 1 [0x48, 0x49]))
      (fun t => t.out == [.text [0x48, 0x49] 1000, .control 0x14 0x2C 1000] && t.acc == []) = true := by decide

/-- V-CC-29. -/
theorem test_pairBasic1 :
    after (exec (.pairBasic1 0 0 0x2A 0) (inLoop [0x01, 0x00, 0x04, 0x2A, 0x00] 1 []))
      (fun t => t.br.pos == 40 && t.acc == [0xE1] && t.out == []) = true := by decide

/-- V-CC-30. -/
theorem test_pairBasic2A :
    after (exec (.pairBasic2A 0 0 0x41 0 0x5A) (inLoop [0x01, 0x00, 0x04, 0x41, 0x5A] 1 []))
      (fun t => t.br.pos == 40 && t.acc == [0x41, 0x5A] && t.out == []) = true := by decide

/-- 44_caption_decoder R224 with the entries of 42_char_tables R174. -/
theorem test_pairBasic2B :
    after (exec (.pairBasic2B 0 0 0x41 0 0x2A) (inLoop [0x01, 0x00, 0x04, 0x41, 0x2A] 1 []))
      (fun t => t.br.pos == 40 && t.acc == [0x41, 0xE1] && t.out == []) = true := by decide

/-- V-CC-32: the character already collected is discarded. -/
theorem test_pairIllegal :
    after (exec (.pairIllegal 0 0 0x41 0 0x1F) (inLoop [0x01, 0x00, 0x04, 0x41, 0x1F] 1 []))
      (fun t => t.br.pos == 40 && t.acc == [] && t.out == [] && t.phase == .idle &&
        t.res == ⟨.malformedData, .tableIndexRange, 0⟩) = true := by decide

/-! ## The step -/

/-- A placed item runs as the next step: V-CC-28. -/
theorem test_step_item :
    after (step (State.reset.withFetchWord 24 0xFC94AC)) (fun t => t.out == [.control 0x14 0x2C 0]) = true := by decide

/-- The host's commands run in issue order. -/
theorem test_step_command :
    after (step (State.reset.setCmds [.byBind byteVectorSource 3, .byReadU16]))
      (fun t => t.byr == ⟨byteVectorSource, 3⟩ && t.cmds == [.byReadU16]) = true := by decide

/-- In `FINAL` the last run of text is emitted: the end of V-CC-01. -/
theorem test_step_final :
    after (step ((inLoop captionSource 3 [0x58]).setPhase .ccFinal))
      (fun t => t.out == [.text [0x58] 1000] && t.acc == [] && t.phase == .idle) = true := by decide

/-! ## Witnesses: states and operands that meet the hypotheses of the statements -/

theorem witness_DecodeEncodeAgree :
    (Instr.extLast 0xFE).wf = true ∧ encode (.extLast 0xFE) = some (.ext8, [0xFE]) ∧
    (Instr.pairControl 0 0 0x1F 0 0x7F).wf = true ∧
    encode (.pairControl 0 0 0x1F 0 0x7F) = some (.entry24, [0x04, 0x1F, 0x7F]) := by decide

theorem witness_EncodeDecodeAgree :
    decode .entry24 [0x04, 0x11, 0x30, 0xFF] = .ok (.pairSpecial 0 0 0 0, [0xFF]) := by rfl

theorem witness_EveryItemValueDecodes :
    ItemFormat.sig64.bytes ≤ signatureBytes.length ∧ (signatureBytes.take 7).length < ItemFormat.sig64.bytes := by
  decide

theorem witness_BitAndByteReadsAgree :
    3 + 2 ≤ bitVectorSource.length ∧ srcBits bitVectorSource 24 16 = 0x3CF0 ∧ memRead bitVectorSource 3 2 = 0x3CF0 := by
  decide

theorem witness_StepRunsStreamItem :
    phaseFormat ((onBytes [0xFF, 0x05] 1).setPhase .seiType).phase = some .ext8 ∧
    decode .ext8 (((onBytes [0xFF, 0x05] 1).setPhase .seiType).byr.src.drop 1) = .ok (.extLast 5, []) ∧
    phaseFormat (inLoop captionSource 2 []).phase = some .entry24 ∧ (inLoop captionSource 2 []).br.pos = 8 * 5 ∧
    decode .entry24 ((inLoop captionSource 2 []).br.src.drop 5) =
      .ok (.pairControl 0 0 0x14 0 0x2C, [0x04, 0x58, 0x00]) := ⟨rfl, rfl, rfl, rfl, rfl⟩

theorem witness_StepTakesHostCommand :
    State.reset.phase = .idle ∧ State.reset.cmds = [] ∧ (State.reset.setCmds [.byPos]).phase = .idle ∧
    (State.reset.setCmds [.byPos]).cmds = [.byPos] ∧ Instr.byPos.isCommand = true := by decide

theorem witness_FinalPhaseFlushes : ((inLoop captionSource 3 [0x58]).setPhase .ccFinal).phase = .ccFinal := rfl

theorem witness_RefusedOutOfTurn :
    Instr.byPos.isCommand = true ∧ (inLoop captionSource 1 []).phase ≠ .idle ∧
    encode (.ccHdr 0 0 0) = some (.ccHdr16, [0, 0]) ∧ phaseFormat (inLoop captionSource 1 []).phase ≠ some .ccHdr16 := by
  decide

/-- The ends of each clause: 1 and 32 bits read, 1 bit skipped, one byte read. -/
theorem witness_UnboundReadersUnderrun :
    (∃ n, 1 ≤ n ∧ n ≤ 32 ∧ Instr.brReadBits 1 = .brReadBits n) ∧
    (∃ n, 1 ≤ n ∧ n ≤ 32 ∧ Instr.brReadBits 32 = .brReadBits n) ∧
    (∃ n, 1 ≤ n ∧ Instr.brSkipBits 1 = .brSkipBits n) ∧
    after (exec (.brReadBits 32) State.reset) (fun t => t.res == ⟨.bufferUnderrun, .bitUnderrun, 0⟩) = true ∧
    after (exec .byReadU8 State.reset) (fun t => t.res == ⟨.bufferUnderrun, .byteUnderrun, 0⟩) = true :=
  ⟨⟨1, by decide, by decide, rfl⟩, ⟨32, by decide, by decide, rfl⟩, ⟨1, by decide, rfl⟩, by decide, by decide⟩

/-- In the loop, between transactions, and inside the header parser. -/
theorem witness_StepKeepsInvariant :
    ((inLoop captionSource 3 [0x58]).Inv ∧ ∃ t, step (inLoop captionSource 3 [0x58]) = .next t) ∧
    ((State.reset.setCmds [.seiParse]).Inv ∧ ∃ t, step (State.reset.setCmds [.seiParse]) = .next t) ∧
    ((inHeader .seiSignature byteVectorSource 2 8).Inv ∧
      ∃ t, step (inHeader .seiSignature byteVectorSource 2 8) = .next t) := by
  refine ⟨⟨⟨by unfold State.ReadersInv; decide, ?_, by unfold State.HeaderInv; decide, fun e h => by cases h⟩, _, rfl⟩,
    ⟨⟨by unfold State.ReadersInv; decide, rfl, by unfold State.HeaderInv; decide, fun e h => by cases h⟩, _, rfl⟩,
    ⟨by unfold State.ReadersInv; decide, ?_, by unfold State.HeaderInv; decide, fun e h => by cases h⟩, _, rfl⟩
  · show 2 < 3 ∧ _ ∧ _
    decide
  · show _ ∧ _ ∧ _ ∧ _
    decide

theorem witness_OutputOnlyGrows : ∃ t, step (inLoop captionSource 2 [0x48]) = .next t := ⟨_, rfl⟩

theorem witness_BitCursorOnlyAdvances :
    (∀ src, Instr.brSkipBits 24 ≠ .brReset src) ∧ (∀ b z ts, Instr.brSkipBits 24 ≠ .ccParse b z ts) ∧
    ∃ t, exec (.brSkipBits 24) (onBits bitVectorSource 16) = .next t :=
  ⟨by simp, by simp, _, rfl⟩

theorem witness_FaultStatusNotSticky :
    Instr.byReadU8.isCommand = true ∧ (∀ src, Instr.byReadU8 ≠ .brReset src) ∧
    (Instr.byBind byteVectorSource 10).isCommand = true ∧ (∀ src, Instr.byBind byteVectorSource 10 ≠ .brReset src) :=
  ⟨rfl, by simp, rfl, by simp⟩

/-- The longest source admitted, and the empty one. -/
theorem witness_BrResetBindsSource :
    State.reset.phase = .idle ∧ (List.replicate Config.maxBufBytes (0 : Byte)).length ≤ Config.maxBufBytes ∧
    ([] : Source).length ≤ Config.maxBufBytes :=
  ⟨rfl, le_of_eq List.length_replicate, Nat.zero_le _⟩

/-- The last bit. -/
theorem witness_BrReadBitReturnsNextBit :
    (onBits bitVectorSource 39).phase = .idle ∧
    (onBits bitVectorSource 39).br.src[(onBits bitVectorSource 39).br.pos / 8]? = some 0xF0 := by decide

/-- The widest read up to the end, and the empty read at the end. -/
theorem witness_BrReadBitsMsbFirst :
    (onBits bitVectorSource 8).phase = .idle ∧ 32 ≤ 32 ∧
    (onBits bitVectorSource 8).br.pos + 32 ≤ 8 * (onBits bitVectorSource 8).br.src.length ∧
    (onBits bitVectorSource 40).br.pos + 0 ≤ 8 * (onBits bitVectorSource 40).br.src.length := by decide

theorem witness_BrSkipBitsAdvances :
    (onBits bitVectorSource 16).phase = .idle ∧
    (onBits bitVectorSource 16).br.pos + 24 ≤ 8 * (onBits bitVectorSource 16).br.src.length := by decide

/-- One bit too many, for each command. -/
theorem witness_BitUnderrunTouchesNothing :
    (onBits bitVectorSource 40).phase = .idle ∧
    8 * (onBits bitVectorSource 40).br.src.length < (onBits bitVectorSource 40).br.pos + 1 ∧
    8 * (onBits bitVectorSource 9).br.src.length < (onBits bitVectorSource 9).br.pos + 32 ∧
    8 * (onBits bitVectorSource 16).br.src.length < (onBits bitVectorSource 16).br.pos + 25 := by decide

/-- The law check of 95_test_vectors 2.1, on V-BR-04. -/
theorem witness_ConsecutiveReadsConcatenate :
    5 + 3 ≤ 32 ∧ ∃ t u, exec (.brReadBits 5) (onBits bitVectorSource 0) = .next t ∧ t.res.status = .ok ∧
      exec (.brReadBits 3) t = .next u ∧ u.res.status = .ok :=
  ⟨by decide, _, _, rfl, rfl, rfl, rfl⟩

theorem witness_ByBindPositionsReader :
    State.reset.phase = .idle ∧ byteVectorSource.length ≤ Config.maxBufBytes ∧ 10 ≤ byteVectorSource.length :=
  ⟨rfl, Config.le_maxBufBytes (by decide), by decide⟩

theorem witness_ByReadsBigEndian :
    (onBytes byteVectorSource 9).phase = .idle ∧ (onBytes byteVectorSource 9).byr.pos = (byteVectorSource.take 9).length ∧
    (onBytes byteVectorSource 9).byr.src = byteVectorSource.take 9 ++ 0x03 :: [] ∧
    (onBytes byteVectorSource 8).byr.src = byteVectorSource.take 8 ++ 0x34 :: 0x03 :: [] ∧
    (onBytes byteVectorSource 6).byr.src = byteVectorSource.take 6 ++ 0x41 :: 0x39 :: 0x34 :: 0x03 :: [] := by decide

/-- One byte too many, for each command. -/
theorem witness_ByteUnderrunTouchesNothing :
    (onBytes byteVectorSource 10).phase = .idle ∧
    (onBytes byteVectorSource 10).byr.src.length < (onBytes byteVectorSource 10).byr.pos + 1 ∧
    (onBytes byteVectorSource 9).byr.src.length < (onBytes byteVectorSource 9).byr.pos + 2 ∧
    (onBytes byteVectorSource 7).byr.src.length < (onBytes byteVectorSource 7).byr.pos + 4 := by decide

theorem witness_ByPosReportsCursor : (onBytes byteVectorSource 10).phase = .idle := rfl

theorem witness_OutOfDomainRefused :
    State.reset.phase = .idle ∧ 32 < 33 ∧ byteVectorSource.length ≤ Config.maxBufBytes ∧ byteVectorSource.length < 11 ∧
    Config.maxBufBytes < (List.replicate (Config.maxBufBytes + 1) (0 : Byte)).length ∧ 0 < (1 : SizeWord).toInt := by
  refine ⟨rfl, by decide, Config.le_maxBufBytes (by decide), by decide, ?_, by decide⟩
  rw [List.length_replicate]; exact Nat.lt_succ_self _

/-- Both ends of the table's range, and the bytes next to them. -/
theorem witness_GetBasicReadsTable :
    State.reset.phase = .idle ∧ (0x20 ≤ (0x20 : Byte).toNat ∧ (0x20 : Byte).toNat ≤ 0x7F) ∧
    (0x20 ≤ (0x7F : Byte).toNat ∧ (0x7F : Byte).toNat ≤ 0x7F) ∧ (0x1F : Byte).toNat < 0x20 ∧ 0x7F < (0x80 : Byte).toNat := by
  decide

theorem witness_BasicFixedEntries :
    State.reset.phase = .idle ∧ 0x41 ≤ (0x41 : Byte).toNat ∧ (0x5A : Byte).toNat ≤ 0x5A := by decide

theorem witness_GetSpecialReadsTable : State.reset.phase = .idle := rfl

theorem witness_SpecialFixedEntries : (onBits bitVectorSource 3).phase = .idle := rfl

theorem witness_CanParseComparesIdentifiers :
    State.reset.phase = .idle ∧ Config.supportedFormatId = Config.supportedFormatId ∧
    Config.supportedFormatId ++ "x" ≠ Config.supportedFormatId := by
  refine ⟨rfl, rfl, fun e => ?_⟩
  have := congrArg String.length e
  simp at this

theorem witness_ExtContAccumulates :
    ((onBytes [0xFF] 0).setPhase .seiType).byr.pos < ((onBytes [0xFF] 0).setPhase .seiType).byr.src.length ∧
    ((onBytes [0xFF] 0).setPhase .seiType).phase = .seiType ∧
    (inHeader .seiSize [0x04, 0xFF] 1 0).byr.pos < (inHeader .seiSize [0x04, 0xFF] 1 0).byr.src.length ∧
    (inHeader .seiSize [0x04, 0xFF] 1 0).phase = .seiSize := by decide

/-- The type 4 and its neighbours; the size 0 and 1. -/
theorem witness_ExtLastEndsField :
    (0x04 : Byte) ≠ 0xFF ∧
    ((onBytes [0x04] 0).setPhase .seiType).byr.pos < ((onBytes [0x04] 0).setPhase .seiType).byr.src.length ∧
    ((onBytes [0x04] 0).setPhase .seiType).phase = .seiType ∧
    ((onBytes [0x04] 0).setPhase .seiType).hdr.payloadType + (0x04 : Byte).toNat = 4 ∧
    ((onBytes [0x04] 0).setPhase .seiType).hdr.payloadType + (0x05 : Byte).toNat ≠ 4 ∧
    (inHeader .seiSize [0x04, 0x01] 1 0).phase = .seiSize ∧
    0 < (inHeader .seiSize [0x04, 0x01] 1 0).hdr.payloadSize + (0x01 : Byte).toNat ∧
    (inHeader .seiSize [0x04, 0x01] 1 0).hdr.payloadSize + (0x00 : Byte).toNat = 0 := by decide

theorem witness_SignatureMatchReturnsSize :
    (inHeader .seiSignature byteVectorSource 2 8).phase = .seiSignature ∧
    (inHeader .seiSignature byteVectorSource 2 8).byr.pos + 8 ≤
      (inHeader .seiSignature byteVectorSource 2 8).byr.src.length := by decide

/-- Each field in turn, with no byte more than it needs. -/
theorem witness_SignatureMismatchReturnsSentinel :
    (inHeader .seiSignature byteVectorSource 2 8).phase = .seiSignature ∧ ((0xB4 : BitVec 8) ≠ 0xB5) ∧
    ((0x0131 : BitVec 16) ≠ 0x0031) ∧ ((0x47413935 : BitVec 32) ≠ 0x47413934) ∧ ((2 : BitVec 8) ≠ 3) ∧
    (inHeader .seiSignature (byteVectorSource.take 3) 2 8).byr.pos + 1 ≤ (byteVectorSource.take 3).length ∧
    (inHeader .seiSignature (byteVectorSource.take 5) 2 8).byr.pos + 3 ≤ (byteVectorSource.take 5).length ∧
    (inHeader .seiSignature (byteVectorSource.take 9) 2 8).byr.pos + 7 ≤ (byteVectorSource.take 9).length ∧
    (inHeader .seiSignature byteVectorSource 2 8).byr.pos + 8 ≤ byteVectorSource.length := by decide

/-- V-SEI-31 (a one-byte size) and V-SEI-16 (size 255, the last byte 0). -/
theorem witness_SeiParseAcceptsCaptionHeader :
    (onBytes ([0x06, 0x01, 0xAA] ++ 0x04 :: extBytes 0 8 ++ signatureBytes ++ [0x40, 0xFF]) 3).phase = .idle ∧
    (8 : Byte) ≠ 0xFF ∧ 0 < 255 * 0 + (8 : Byte).toNat ∧ ([0x06, 0x01, 0xAA] : Source).length = 3 ∧
    (0 : Byte) ≠ 0xFF ∧ 0 < 255 * 1 + (0 : Byte).toNat ∧
    [0x04, 0xFF, 0x00, 0xB5, 0x00, 0x31, 0x47, 0x41, 0x39, 0x34, 0x03] =
      [] ++ 0x04 :: extBytes 1 0 ++ signatureBytes ++ [] := by decide

/-- V-SEI-10, V-SEI-15. -/
theorem witness_SeiParseTypeAndSizeExits :
    (onBytes [0xFF, 0x05, 0x08, 0xB5] 0).phase = .idle ∧ (onBytes [0xFF, 0x05, 0x08, 0xB5] 0).byr.pos = ([] : Source).length ∧
    (0x05 : Byte) ≠ 0xFF ∧ ([0xFF, 0x05, 0x08, 0xB5] : Source) = [] ++ extBytes 1 0x05 ++ [0x08, 0xB5] ∧
    255 * 1 + (0x05 : Byte).toNat ≠ 4 ∧ ([0x04, 0x00, 0xB5] : Source) = [] ++ 0x04 :: 0x00 :: [0xB5] := by decide

/-- V-SEI-19 and V-SEI-30: nothing there, and one byte short. -/
theorem witness_SeiParseTruncatedHeaderUnderruns :
    State.reset.phase = .idle ∧ (8 : Byte) ≠ 0xFF ∧ 0 < 255 * 0 + (8 : Byte).toNat ∧ 0 < 1 + (0 + 1) + 8 ∧
    State.reset.byr.src = [] ++ (0x04 :: extBytes 0 8 ++ signatureBytes).take 0 ∧ 9 < 1 + (0 + 1) + 8 ∧
    byteVectorSource.take 9 = [] ++ (0x04 :: extBytes 0 8 ++ signatureBytes).take 9 := by decide

theorem witness_SeiParseTouchesOnlyByteReader :
    (onBytes byteVectorSource 10).phase = .idle ∧
    (onBytes byteVectorSource 10).byr.pos ≤ (onBytes byteVectorSource 10).byr.src.length ∧
    ((onBytes byteVectorSource 10).setAcc [0x41]).byr = (onBytes byteVectorSource 10).byr ∧
    ∃ t, exec .seiParse ((onBytes byteVectorSource 10).setAcc [0x41]) = .next t :=
  ⟨rfl, by decide, rfl, _, rfl⟩

theorem witness_SeiParseIsItsStreamItems : (onBytes byteVectorSource 0).phase = .idle := rfl

theorem witness_CcHdrStartsLoop :
    ((onBits [0xE0, 0xFF] 0).setPhase .ccHeader).phase = .ccHeader ∧
    ((onBits [0xE0, 0xFF] 0).setPhase .ccHeader).br.pos + 16 ≤
      8 * ((onBits [0xE0, 0xFF] 0).setPhase .ccHeader).br.src.length := by decide

theorem witness_NoEffectEntriesConsumeOnly :
    (inLoop captionSource 3 [0x48]).phase = .ccEntry ∧
    (inLoop captionSource 3 [0x48]).br.pos + 24 ≤ 8 * (inLoop captionSource 3 [0x48]).br.src.length := by decide

theorem witness_SpecialPairAppends :
    (inLoop [0x01, 0x00, 0x04, 0x11, 0x3F] 1 []).phase = .ccEntry ∧
    (inLoop [0x01, 0x00, 0x04, 0x11, 0x3F] 1 []).br.pos + 24 ≤
      8 * (inLoop [0x01, 0x00, 0x04, 0x11, 0x3F] 1 []).br.src.length := by decide

/-- The smallest and the largest control pair. -/
theorem witness_ControlPairFlushesAndEmits :
    (Instr.pairControl 0 0 0x00 0 0x01).wf = true ∧ (Instr.pairControl 0 0 0x1F 0 0x7F).wf = true ∧
    (inLoop captionSource 2 [0x48]).phase = .ccEntry ∧
    (inLoop captionSource 2 [0x48]).br.pos + 24 ≤ 8 * (inLoop captionSource 2 [0x48]).br.src.length := by decide

/-- The ends of the range of each clause. -/
theorem witness_BasicPairsAppend :
    (inLoop captionSource 1 []).phase = .ccEntry ∧
    (inLoop captionSource 1 []).br.pos + 24 ≤ 8 * (inLoop captionSource 1 []).br.src.length ∧
    0x20 ≤ (0x20 : BitVec 7).toNat ∧ 0x40 ≤ (0x40 : BitVec 7).toNat ∧ 0x40 ≤ (0x7F : BitVec 7).toNat ∧
    0x20 ≤ (0x20 : BitVec 7).toNat ∧ (0x20 : BitVec 7).toNat < 0x40 ∧
    0x20 ≤ (0x3F : BitVec 7).toNat ∧ (0x3F : BitVec 7).toNat < 0x40 := by decide

theorem witness_IllegalPairAborts :
    (Instr.pairIllegal 0 0 0x20 0 0x01).wf = true ∧ (Instr.pairIllegal 0 0 0x7F 0 0x1F).wf = true ∧
    (inLoop captionSource 3 [0x48]).phase = .ccEntry ∧
    (inLoop captionSource 3 [0x48]).br.pos + 24 ≤ 8 * (inLoop captionSource 3 [0x48]).br.src.length := by decide

/-- A header of one byte (the cursor stays at bit 8), and V-CC-34's third entry (at bit 80). -/
theorem witness_TruncatedItemAborts :
    encode (.ccHdr 0 0 0) = some (.ccHdr16, [0x00, 0x00]) ∧ captionWidths (.ccHdr 0 0 0) = some headerWidths ∧
    phaseFormat ((onBits [0x00] 0).setPhase .ccHeader).phase = some .ccHdr16 ∧
    ((onBits [0x00] 0).setPhase .ccHeader).br.pos ≤ 8 * ((onBits [0x00] 0).setPhase .ccHeader).br.src.length ∧
    8 * ((onBits [0x00] 0).setPhase .ccHeader).br.src.length <
      ((onBits [0x00] 0).setPhase .ccHeader).br.pos + 8 * ItemFormat.ccHdr16.bytes ∧ admitted headerWidths 8 = 8 ∧
    encode (.pairBasic1 0 0 0x58 0) = some (.entry24, [0x04, 0x58, 0x00]) ∧
    captionWidths (.pairBasic1 0 0 0x58 0) = some field1Widths ∧
    phaseFormat (inLoop (captionSource.take 10) 3 []).phase = some .entry24 ∧
    (inLoop (captionSource.take 10) 3 []).br.pos ≤ 8 * (inLoop (captionSource.take 10) 3 []).br.src.length ∧
    8 * (inLoop (captionSource.take 10) 3 []).br.src.length <
      (inLoop (captionSource.take 10) 3 []).br.pos + 8 * ItemFormat.entry24.bytes ∧
    (inLoop (captionSource.take 10) 3 []).br.pos + admitted field1Widths 16 = 80 := by decide

/-- V-SEI-20; V-SEI-30 (seven bytes of the signature stay consumed); V-SEI-26, whose two bytes decode as a mismatch in the
provider code (one byte stays consumed). -/
theorem witness_TruncatedHeaderItemAborts :
    (inHeader .seiSize [0x04] 1 0).phase = .seiSize ∧
    (inHeader .seiSize [0x04] 1 0).byr.src.length = (inHeader .seiSize [0x04] 1 0).byr.pos ∧
    (inHeader .seiSignature (byteVectorSource.take 9) 2 8).phase = .seiSignature ∧
    (inHeader .seiSignature (byteVectorSource.take 9) 2 8).byr.pos ≤ (byteVectorSource.take 9).length ∧
    (byteVectorSource.take 9).length < (inHeader .seiSignature (byteVectorSource.take 9) 2 8).byr.pos + 8 ∧
    admitted signatureWidths ((byteVectorSource.take 9).length - 2) = 7 ∧
    fetchItem .sig64 (inHeader .seiSignature (byteVectorSource.take 4) 2 8) = .ok (.seihdrMismatch 0xB5 0 0 0) ∧
    (byteVectorSource.take 4).length <
      (inHeader .seiSignature (byteVectorSource.take 4) 2 8).byr.pos + signatureEnd 0xB5 0 0 ∧
    admitted signatureWidths ((byteVectorSource.take 4).length - 2) = 1 :=
  ⟨rfl, rfl, rfl, by decide, by decide, by decide, rfl, by decide, by decide⟩

theorem witness_StreamItemFrame :
    encode .extCont = some (.ext8, [0xFF]) ∧ (∃ t, exec .extCont (inHeader .seiSize [0x04, 0xFF] 1 0) = .next t) ∧
    encode (.pairControl 0 0 0x14 0 0x2C) = some (.entry24, [0x04, 0x14, 0x2C]) ∧
    ∃ t, exec (.pairControl 0 0 0x14 0 0x2C) (inLoop captionSource 2 [0x48]) = .next t :=
  ⟨by decide, ⟨_, rfl⟩, by decide, _, rfl⟩

theorem witness_ComponentCommandFrame :
    Instr.byPos.isCommand = true ∧ Instr.byPos ≠ .seiParse ∧ (∀ b z ts, Instr.byPos ≠ .ccParse b z ts) ∧
    (∃ t, exec .byPos State.reset = .next t) ∧ (∀ src, Instr.byPos ≠ .brReset src) ∧ Instr.byPos ≠ .brReadBit ∧
    (∀ n, Instr.byPos ≠ .brReadBits n) ∧ (∀ n, Instr.byPos ≠ .brSkipBits n) ∧ (∀ src p, Instr.byPos ≠ .byBind src p) ∧
    Instr.byPos ≠ .byReadU8 ∧ Instr.byPos ≠ .byReadU16 ∧ Instr.byPos ≠ .byReadI32 :=
  ⟨rfl, by decide, by simp, ⟨_, rfl⟩, by simp, by decide, by simp,
    by simp, by simp, by decide, by decide, by decide⟩

/-- V-CC-08, V-CC-09, and the most negative size. -/
theorem witness_CcParseWithoutSizeDoesNothing :
    State.reset.phase = .idle ∧ (0 : SizeWord).toInt ≤ 0 ∧ (0xFFFFFFFF : SizeWord).toInt ≤ 0 ∧
    (0x80000000 : SizeWord).toInt ≤ 0 := by decide

/-- V-CC-03 and V-CC-33: no entry at all, and a lookup that faults in the last of three. -/
theorem witness_CcParseReadsEntriesAsBytes :
    State.reset.phase = .idle ∧ 0 < (2 : SizeWord).toInt ∧ ([0x00, 0x00] : Source).length ≤ Config.maxBufBytes ∧
    2 + 3 * byteCount [0x00, 0x00] ≤ ([0x00, 0x00] : Source).length ∧ captionSource.length ≤ Config.maxBufBytes ∧
    2 + 3 * byteCount captionSource ≤ captionSource.length ∧
    byteEntries 7 3 [0x04, 0x48, 0x49, 0x04, 0x14, 0x2C, 0x04, 0x41, 0x01] [] =
      ⟨[.text [0x48, 0x49] 7, .control 0x14 0x2C 7], 3, false⟩ :=
  ⟨rfl, by decide, Config.le_maxBufBytes (by decide), by decide, Config.le_maxBufBytes (by decide), by decide, by decide⟩

theorem witness_CcParseIsItsStreamItems :
    State.reset.phase = .idle ∧ 0 < (11 : SizeWord).toInt ∧ captionSource.length ≤ Config.maxBufBytes :=
  ⟨rfl, by decide, Config.le_maxBufBytes (by decide)⟩

/-- V-CC-07 and V-CC-34. -/
theorem witness_CcParseTruncatedIsMalformed :
    State.reset.phase = .idle ∧ 0 < (1 : SizeWord).toInt ∧ ([] : Source).length ≤ Config.maxBufBytes ∧
    ([] : Source).length < 2 + 3 * byteCount [] ∧ (captionSource.take 10).length ≤ Config.maxBufBytes ∧
    (captionSource.take 10).length < 2 + 3 * byteCount (captionSource.take 10) :=
  ⟨rfl, by decide, Nat.zero_le _, by decide, Config.le_maxBufBytes (by decide), by decide⟩

theorem witness_CcParseEventsOrdered :
    State.reset.phase = .idle ∧ 0 < (11 : SizeWord).toInt ∧
    ∃ t, exec (.ccParse captionSource 11 1000) State.reset = .next t := ⟨rfl, by decide, _, rfl⟩

theorem witness_CcParseForgetsHistory :
    State.reset.phase = .idle ∧ (onBits bitVectorSource 9).phase = .idle ∧ 0 < (11 : SizeWord).toInt ∧
    0 < (1 : SizeWord).toInt ∧ (∃ t, exec (.ccParse captionSource 11 1000) State.reset = .next t) ∧
    ∃ t, exec (.ccParse captionSource 1 1000) (onBits bitVectorSource 9) = .next t :=
  ⟨rfl, rfl, by decide, by decide, ⟨_, rfl⟩, _, rfl⟩

/-- V-CC-01 against V-CC-02; V-CC-13 and V-CC-14 against entries whose ignored bits are all different. -/
theorem witness_CcParseIgnoresSkippedBits :
    SameReadBits captionSource captionSourceNoisy ∧
    SameReadBits [0x01, 0x00, 0x03, 0x14, 0x2C] [0xE1, 0xFF, 0xF8, 0xEB, 0xD3] ∧
    SameReadBits [0x01, 0x00, 0x05, 0x14, 0x2C] [0xE1, 0xFF, 0xFD, 0xEB, 0xD3] ∧
    State.reset.phase = .idle ∧ 0 < (11 : SizeWord).toInt ∧
    (∃ t, exec (.ccParse captionSource 11 1000) State.reset = .next t) ∧
    ∃ u, exec (.ccParse captionSourceNoisy 11 1000) State.reset = .next u :=
  ⟨⟨rfl, by decide⟩, ⟨rfl, by decide⟩, ⟨rfl, by decide⟩, rfl, by decide, ⟨_, rfl⟩, _, rfl⟩

end Sys2Proof.Machine
end

section
/-! PROOFS. `BR.READBITS` as the sum of the bits it reads (40_bit_reader R132). -/

namespace Sys2Proof

/-- Bit `p + k` of a read of `n` bits weighs `2^(n-1-k)` (00_scope R10): one more bit doubles every weight before it. -/
theorem srcBits_eq_sum (src : Source) (p n : Nat) :
    srcBits src p n = ∑ k ∈ Finset.range n, (srcBit src (p + k)).toNat * 2 ^ (n - 1 - k) := by
  induction n with
  | zero => rfl
  | succ n ih =>
    have weight : ∀ k ∈ Finset.range n, 2 * ((srcBit src (p + k)).toNat * 2 ^ (n - 1 - k)) =
        (srcBit src (p + k)).toNat * 2 ^ (n + 1 - 1 - k) := by
      intro k hk
      have hk : k < n := Finset.mem_range.mp hk
      rw [show n + 1 - 1 - k = n - 1 - k + 1 by omega, Nat.pow_succ]
      ring
    rw [srcBits, ih, Finset.mul_sum, Finset.sum_congr rfl weight, Finset.sum_range_succ]
    simp

end Sys2Proof

namespace Sys2Proof.Machine

/-- An admitted `BR.READBITS(n)` between transactions answers the `n` bits at the cursor and consumes them. -/
theorem exec_brReadBits_fits {s : State} {n : Nat} (hs : s.phase = .idle) (hn : n ≤ 32) (h : bitsFit n s = true) :
    exec (.brReadBits n) s = .next (answer (srcBits s.br.src s.br.pos n) (s.moveBit n)) := by
  calc exec (.brReadBits n) s
    _ = execBrReadBits n s := rfl
    _ = .next (readBits n s answer) := by rw [execBrReadBits, whenIdle_idle hs, Config.readBitsMax, if_pos hn]
    _ = .next (answer (srcBits s.br.src s.br.pos n) (s.moveBit n)) := by rw [readBits_fits h]

/-- Settles O20: the value is `srcBits` at the cursor, which is the weighted sum of the bits. -/
theorem brReadBitsMsbFirst : Obligations.BrReadBitsMsbFirst := by
  intro n s hs hn hfit
  exact ⟨srcBits s.br.src s.br.pos n, srcBits_eq_sum _ _ _, srcBits_lt _ _ _,
    exec_brReadBits_fits hs hn ((bitsFit_iff n).mpr hfit)⟩

end Sys2Proof.Machine
end

section
/-! PROOFS. Reading aligned bits and bytes of a source (00_scope R10, R11; 20_memory R62, R63). -/

namespace Sys2Proof

/-- A byte read one bit after the other, the most significant first. -/
theorem srcBits_byte (src : Source) (a : Nat) : srcBits src (8 * a) 8 = (srcByte src a).toNat := by
  have bits : ∀ b : Byte, 2 * (2 * (2 * (2 * (2 * (2 * (2 * (b.getLsbD 7).toNat + (b.getLsbD 6).toNat) +
      (b.getLsbD 5).toNat) + (b.getLsbD 4).toNat) + (b.getLsbD 3).toNat) + (b.getLsbD 2).toNat) +
      (b.getLsbD 1).toNat) + (b.getLsbD 0).toNat = b.toNat := by decide
  have same : ∀ k < 8, srcBit src (8 * a + k) = (srcByte src a).getLsbD (7 - k) := by
    intro k hk
    rw [srcBit, show (8 * a + k) / 8 = a by omega, show (8 * a + k) % 8 = k by omega]
  simp (disch := decide) only [srcBits, Nat.mul_zero, Nat.zero_add, same]
  exact bits _

/-- Aligned bits are the bytes they lie in; past the end both read 0 (log entry 16). -/
theorem srcBits_eq_memRead (src : Source) (a n : Nat) : srcBits src (8 * a) (8 * n) = memRead src a n := by
  induction n with
  | zero => rfl
  | succ n ih =>
    rw [Nat.mul_succ, srcBits_add, ih, ← Nat.mul_add, srcBits_byte, memRead]
    omega

/-- Bytes read from position `a` are those at the head of what follows `a`. -/
theorem memRead_drop (src : Source) (a n : Nat) : memRead (src.drop a) 0 n = memRead src a n := by
  induction n with
  | zero => rfl
  | succ n ih => simp [memRead, ih, srcByte, List.getD, List.getElem?_drop]

/-- Bytes that follow others are read from where those end. -/
theorem memRead_append_right (pre bs : Source) (n : Nat) : memRead (pre ++ bs) pre.length n = memRead bs 0 n := by
  rw [← memRead_drop, List.drop_left]

/-- What decodes from the head of a byte list is the item of the value read there. -/
theorem decodeValue_of_decode {f : ItemFormat} {bs rest : Source} {i : Instr} (h : decode f bs = .ok (i, rest)) :
    decodeValue f (memRead bs 0 f.bytes) = .ok i := by
  unfold decode at h
  split at h
  · cases h
  · split at h
    · cases h
      assumption
    · cases h

end Sys2Proof

namespace Sys2Proof.Machine

/-- Inside a transaction a step runs the item that the phase's format fetches. -/
theorem step_of_fetchItem {s : State} {f : ItemFormat} {i : Instr} (hp : phaseFormat s.phase = some f)
    (hi : fetchItem f s = .ok i) : step s = exec i s := by
  unfold step
  simp only [hp, hi]

/-- Settles O7: the value fetched at the cursor is the one the bytes there decode from. -/
theorem stepRunsStreamItem : Obligations.StepRunsStreamItem := by
  intro s f i rest hp
  constructor
  · intro hf h
    have hv := decodeValue_of_decode h
    rw [memRead_drop] at hv
    refine step_of_fetchItem hp ?_
    rcases hf with rfl | rfl
    · exact hv
    · exact hv
  · intro hf a ha h
    have hv := decodeValue_of_decode h
    rw [memRead_drop, ← srcBits_eq_memRead, ← ha] at hv
    refine step_of_fetchItem hp ?_
    rcases hf with rfl | rfl
    · exact hv
    · exact hv

/-- A read of `n` bytes between transactions, all there at the cursor, answers them and consumes them. -/
theorem readBytes_after {s : State} {pre bs : Source} (n : Nat) (hs : s.phase = .idle)
    (hpos : s.byr.pos = pre.length) (hsrc : s.byr.src = pre ++ bs) (hn : n ≤ bs.length) :
    (whenIdle s fun s => .next (readBytes n s answer)) = .next (answer (memRead bs 0 n) (s.moveByte n)) := by
  have hfit : bytesFit n s = true := (bytesFit_iff n).2 (by rw [ByteReader.len, hsrc, hpos, List.length_append]; omega)
  rw [whenIdle_idle hs, readBytes_fits hfit, hsrc, hpos, memRead_append_right]

/-- Settles O25: the bytes at the cursor are read big-endian, whatever follows them. -/
theorem byReadsBigEndian : Obligations.ByReadsBigEndian := by
  intro s pre rest b0 b1 b2 b3 hs hpos
  refine ⟨fun hsrc => ?_, fun hsrc => ?_, fun hsrc => ?_⟩
  · have value : memRead (b0 :: rest) 0 1 = b0.toNat := by simp [memRead, srcByte]
    rw [← value]
    exact readBytes_after 1 hs hpos hsrc (by simp)
  · have value : memRead (b0 :: b1 :: rest) 0 2 = b0.toNat * 256 + b1.toNat := by
      simp [memRead, srcByte, Nat.mul_comm]
    rw [← value]
    exact readBytes_after 2 hs hpos hsrc (by simp)
  · have value : memRead (b0 :: b1 :: b2 :: b3 :: rest) 0 4 =
        b0.toNat * 2 ^ 24 + b1.toNat * 2 ^ 16 + b2.toNat * 2 ^ 8 + b3.toNat := by
      simp [memRead, srcByte]
      omega
    rw [← value]
    exact readBytes_after 4 hs hpos hsrc (by simp)

/-- Settles O24: the operands lie in the domain, so the bind is admitted. -/
theorem byBindPositionsReader : Obligations.ByBindPositionsReader := by
  intro src p s hs hlen hp
  have hfit : Config.bufferFits src.length = true := (Config.bufferFits_iff _).2 hlen
  have bind : exec (.byBind src p) s = .next (answerNoValue (s.bindByte src p)) :=
    calc exec (.byBind src p) s
      _ = execByBind src p s := rfl
      _ = .next (answerNoValue (s.bindByte src p)) := by rw [execByBind, whenIdle_idle hs, if_pos hfit, if_pos hp]
  exact ⟨_, bind, rfl⟩

/-- Settles O11: the fields of the reset state. -/
theorem resetLeavesReadersUnbound : Obligations.ResetLeavesReadersUnbound :=
  ⟨rfl, rfl, rfl, rfl, rfl, rfl, rfl, rfl, rfl⟩

/-- Settles O13: at reset everything the invariant bounds is empty or 0. -/
theorem resetMeetsInvariant : Obligations.ResetMeetsInvariant :=
  ⟨reset_readers, rfl, ⟨Nat.two_pow_pos 31, Nat.two_pow_pos 31⟩, fun _ he => nomatch he⟩

/-- In `FINAL` the step is step 7 of `CC_PARSE`. -/
theorem step_final {s : State} (hp : s.phase = .ccFinal) : step s = .next (finishCaption s) := by
  unfold step
  rw [hp]
  rfl

/-- What a flush appends to `OUT`, as the claims name it. -/
theorem flush_out_textEvents (s : State) : (flush s).out = s.out ++ textEvents s.acc s.w.ts := flush_out s

/-- Settles O9: step 7 flushes, answers `OK` and ends the transaction. -/
theorem finalPhaseFlushes : Obligations.FinalPhaseFlushes := by
  intro s hp
  refine ⟨finishCaption s, step_final hp, ?_⟩
  by_cases h : s.acc = []
  · rw [finishCaption, flush_empty h, textEvents, if_pos h, List.append_nil, ← h]
    rfl
  · rw [finishCaption, flush_text h, textEvents, if_neg h]
    rfl

end Sys2Proof.Machine
end

section
/-! PROOFS. Where instructions run (10_state R29, 45_host_commands R252), and what every stream item leaves unchanged
(10_state R20, R33; 45_host_commands R255). -/

namespace Sys2Proof.Machine

variable {s t u : State}

/-! ## Guards -/

/-- Runs `k` in the phases that read format `f`: what `inPhase` and `inField` both do. -/
def inFormat (f : ItemFormat) (s : State) (k : State → State) : StepResult :=
  if phaseFormat s.phase = some f then .next (k s) else .refused .itemOutOfPhase

theorem inField_eq (s : State) (k : State → State) : inField s k = inFormat .ext8 s k := by
  unfold inField inFormat
  cases s.phase <;> rfl

theorem inPhase_seiSignature (s : State) (k : State → State) : inPhase .seiSignature s k = inFormat .sig64 s k := by
  unfold inPhase inFormat
  cases s.phase <;> rfl

theorem inPhase_ccHeader (s : State) (k : State → State) : inPhase .ccHeader s k = inFormat .ccHdr16 s k := by
  unfold inPhase inFormat
  cases s.phase <;> rfl

theorem inPhase_ccEntry (s : State) (k : State → State) : inPhase .ccEntry s k = inFormat .entry24 s k := by
  unfold inPhase inFormat
  cases s.phase <;> rfl

theorem inFormat_next {f : ItemFormat} {k : State → State} (h : inFormat f s k = .next t) :
    phaseFormat s.phase = some f ∧ t = k s := by
  unfold inFormat at h
  split at h
  · injection h with h
    exact ⟨‹_›, h.symm⟩
  · cases h

theorem itemValue_of_encode {i : Instr} {f : ItemFormat} {bs : Source} (h : encode i = some (f, bs)) :
    ∃ v, itemValue i = some (f, v) := by
  obtain ⟨⟨f', v⟩, hv, he⟩ := Option.map_eq_some_iff.1 h
  obtain ⟨rfl, -⟩ := Prod.mk.inj he
  exact ⟨v, hv⟩

/-! ## What a host command can do -/

/-- The next states of host command `i` from `s`: a reader is bound or consumes what it has, or only `RES` is written, or
a whole transaction runs. -/
inductive CommandEffect (s : State) : Instr → State → Prop
  | bindBit (src : Source) (hwf : Memory.wf src) : CommandEffect s (.brReset src) (s.bindBit src)
  | bindByte (src : Source) (p : Nat) (hwf : Memory.wf src) (hp : p ≤ src.length) :
      CommandEffect s (.byBind src p) (answerNoValue (s.bindByte src p))
  | consumeBits (i : Instr) (n : Nat) (r : Result) (d : Nat) (hfit : bitsFit n s = true) :
      CommandEffect s i (((s.moveBit n).setRes r).draw d)
  | consumeBytes (i : Instr) (n : Nat) (r : Result) (hfit : bytesFit n s = true) :
      CommandEffect s i ((s.moveByte n).setRes r)
  | result (i : Instr) (r : Result) : CommandEffect s i (s.setRes r)
  | seiParse : CommandEffect s .seiParse (parseSei (beginSei s))
  | ccParse (buffer : Source) (size : SizeWord) (ts : Timestamp) (hwf : Memory.wf buffer) :
      CommandEffect s (.ccParse buffer size ts) (parseCaption (beginCaption buffer size ts s))

theorem raise_effect (hs : s.phase = .idle) (c : Cause) (i : Instr) : CommandEffect s i (raise c s) := by
  rw [raise_idle hs]
  exact .result i _

theorem skipBits_effect {n : Nat} {k : State → State} (hs : s.phase = .idle) (r : Result) (d : Nat)
    (hk : k (s.moveBit n) = ((s.moveBit n).setRes r).draw d) (i : Instr) : CommandEffect s i (skipBits n s k) := by
  cases hn : bitsFit n s with
  | true =>
    rw [skipBits_fits hn, hk]
    exact .consumeBits i n r d hn
  | false =>
    rw [skipBits_underrun hn]
    exact raise_effect hs _ i

theorem readBytes_effect (n : Nat) (hs : s.phase = .idle) (i : Instr) : CommandEffect s i (readBytes n s answer) := by
  cases hn : bytesFit n s with
  | true =>
    rw [readBytes_fits hn]
    exact .consumeBytes i n _ hn
  | false =>
    rw [readBytes_underrun hn]
    exact raise_effect hs _ i

theorem getBasicChar_effect (x : Byte) (hs : s.phase = .idle) (i : Instr) :
    CommandEffect s i (getBasicChar x s fun c s => answer c.toNat s) := by
  unfold getBasicChar
  split
  · exact .result i _
  · exact raise_effect hs _ i

theorem effect_of_next {i : Instr} {u : State} (h : CommandEffect s i u) :
    ∀ t, (Host.Outcome.next u : StepResult) = .next t → CommandEffect s i t := by
  intro t ht
  cases ht
  exact h

/-- A host command is guarded by the idle phase, and what it then answers is one of its effects. -/
theorem exec_command {i : Instr} (h : i.isCommand = true) (s : State) :
    ∃ k, exec i s = whenIdle s k ∧ (s.phase = .idle → ∀ t, k s = .next t → CommandEffect s i t) := by
  cases i
  case brReset src =>
    refine ⟨_, by rw [exec, execBrReset], fun _ t ht => ?_⟩
    split at ht
    · exact effect_of_next (.bindBit src ‹_›) t ht
    · cases ht
  case brReadBit =>
    refine ⟨_, by rw [exec, execBrReadBit], fun hs => ?_⟩
    exact effect_of_next (skipBits_effect hs ⟨.ok, .none, _⟩ 0 rfl _)
  case brReadBits n =>
    refine ⟨_, by rw [exec, execBrReadBits], fun hs t ht => ?_⟩
    split at ht
    · exact effect_of_next (skipBits_effect hs ⟨.ok, .none, _⟩ 0 rfl _) t ht
    · cases ht
  case brSkipBits n =>
    refine ⟨_, by rw [exec, execBrSkipBits], fun hs => ?_⟩
    exact effect_of_next (skipBits_effect hs _ 1 rfl _)
  case byBind src p =>
    refine ⟨_, by rw [exec, execByBind], fun _ t ht => ?_⟩
    split at ht
    · split at ht
      · exact effect_of_next (.bindByte src p ‹_› ‹_›) t ht
      · cases ht
    · cases ht
  case byReadU8 =>
    refine ⟨_, by rw [exec, execByReadU8], fun hs => ?_⟩
    exact effect_of_next (readBytes_effect 1 hs _)
  case byReadU16 =>
    refine ⟨_, by rw [exec, execByReadU16], fun hs => ?_⟩
    exact effect_of_next (readBytes_effect 2 hs _)
  case byReadI32 =>
    refine ⟨_, by rw [exec, execByReadI32], fun hs => ?_⟩
    exact effect_of_next (readBytes_effect 4 hs _)
  case byPos =>
    refine ⟨_, by rw [exec, execByPos], fun _ => ?_⟩
    exact effect_of_next (.result _ _)
  case getBasic x =>
    refine ⟨_, by rw [exec, execGetBasic], fun hs => ?_⟩
    exact effect_of_next (getBasicChar_effect x hs _)
  case getSpecial =>
    refine ⟨_, by rw [exec, execGetSpecial], fun _ => ?_⟩
    exact effect_of_next (.result _ _)
  case seiParse =>
    refine ⟨_, by rw [exec, execSeiParse], fun _ => ?_⟩
    exact effect_of_next .seiParse
  case ccParse buffer size ts =>
    refine ⟨_, by rw [exec, execCcParse], fun _ t ht => ?_⟩
    split at ht
    · exact effect_of_next (.result _ _) t ht
    · split at ht
      · exact effect_of_next (.ccParse buffer size ts ‹_›) t ht
      · cases ht
  case canParse =>
    refine ⟨_, by rw [exec, execCanParse], fun _ => ?_⟩
    exact effect_of_next (.result _ _)
  all_goals exact absurd h Bool.false_ne_true

/-- A host command that answers a next state was issued between transactions. -/
theorem exec_command_next {i : Instr} (hc : i.isCommand = true) (h : exec i s = .next t) :
    s.phase = .idle ∧ CommandEffect s i t := by
  obtain ⟨k, hk, heffect⟩ := exec_command hc s
  obtain ⟨hs, ht⟩ := whenIdle_next (hk.symm.trans h)
  exact ⟨hs, heffect hs t ht⟩

/-! ## Frames of the stream items -/

/-- What every stream item keeps: both sources and the host's commands. The bit cursor only advances and `OUT` only
grows. -/
structure StreamFrame (s t : State) : Prop where
  bitSrc : t.br.src = s.br.src
  bitPos : s.br.pos ≤ t.br.pos
  byteSrc : t.byr.src = s.byr.src
  cmds : t.cmds = s.cmds
  out : s.out <+: t.out

/-- What every item of `CC_PARSE` keeps. -/
structure CaptionFrame (s t : State) : Prop extends StreamFrame s t where
  byr : t.byr = s.byr

/-- What every item of `SEI_PARSE` keeps. -/
structure SeiFrame (s t : State) : Prop where
  br : t.br = s.br
  acc : t.acc = s.acc
  out : t.out = s.out
  byteSrc : t.byr.src = s.byr.src
  cmds : t.cmds = s.cmds

theorem StreamFrame.trans (h : StreamFrame s t) (h' : StreamFrame t u) : StreamFrame s u :=
  ⟨h'.bitSrc.trans h.bitSrc, h.bitPos.trans h'.bitPos, h'.byteSrc.trans h.byteSrc, h'.cmds.trans h.cmds,
    h.out.trans h'.out⟩

theorem StreamFrame.refl (s : State) : StreamFrame s s := ⟨rfl, le_rfl, rfl, rfl, List.prefix_rfl⟩

theorem SeiFrame.trans (h : SeiFrame s t) (h' : SeiFrame t u) : SeiFrame s u :=
  ⟨h'.br.trans h.br, h'.acc.trans h.acc, h'.out.trans h.out, h'.byteSrc.trans h.byteSrc, h'.cmds.trans h.cmds⟩

theorem SeiFrame.toStreamFrame (h : SeiFrame s t) : StreamFrame s t :=
  ⟨by rw [h.br], by rw [h.br], h.byteSrc, h.cmds, by rw [h.out]⟩

theorem CaptionFrame.trans (h : CaptionFrame s t) (h' : CaptionFrame t u) : CaptionFrame s u :=
  ⟨h.toStreamFrame.trans h'.toStreamFrame, h'.byr.trans h.byr⟩

/-! ### The operations of `CC_PARSE` -/

/-- An update of other fields than those a caption frame speaks of. -/
theorem CaptionFrame.of_eq (hb : t.br = s.br) (hy : t.byr = s.byr) (hc : t.cmds = s.cmds) (ho : s.out <+: t.out) :
    CaptionFrame s t :=
  ⟨⟨by rw [hb], by rw [hb], by rw [hy], hc, ho⟩, hy⟩

theorem moveBit_captionFrame (n : Nat) (s : State) : CaptionFrame s (s.moveBit n) :=
  ⟨⟨rfl, Nat.le_add_right _ _, rfl, rfl, List.prefix_rfl⟩, rfl⟩

theorem raise_captionFrame (c : Cause) (s : State) : CaptionFrame s (raise c s) :=
  .of_eq (raise_br c s) (raise_byr c s) (raise_cmds c s) (by rw [raise_out])

theorem setW_captionFrame (w : CaptionRegs) (s : State) : CaptionFrame s (s.setW w) :=
  .of_eq rfl rfl rfl List.prefix_rfl

theorem nextEntry_captionFrame (s : State) : CaptionFrame s (nextEntry s) := .of_eq rfl rfl rfl List.prefix_rfl

theorem startEntries_captionFrame (n : BitVec 5) (s : State) : CaptionFrame s (startEntries n s) :=
  .of_eq rfl rfl rfl List.prefix_rfl

theorem appendChar_captionFrame (c : CodePoint) (s : State) : CaptionFrame s (appendChar c s) :=
  .of_eq rfl rfl rfl List.prefix_rfl

theorem specialPair_captionFrame (d2 : BitVec 7) (s : State) : CaptionFrame s (specialPair d2 s) :=
  appendChar_captionFrame _ s

theorem flush_captionFrame (s : State) : CaptionFrame s (flush s) :=
  .of_eq (flush_br s) (flush_byr s) (flush_cmds s) (by rw [flush_out]; exact List.prefix_append _ _)

theorem controlPair_captionFrame (d1 d2 : BitVec 7) (s : State) : CaptionFrame s (controlPair d1 d2 s) :=
  (flush_captionFrame s).trans (.of_eq rfl rfl rfl (List.prefix_append _ _))

theorem finishCaption_captionFrame (s : State) : CaptionFrame s (finishCaption s) :=
  (flush_captionFrame s).trans (.of_eq rfl rfl rfl List.prefix_rfl)

theorem skipBits_captionFrame {n : Nat} {k : State → State} (hk : ∀ u, CaptionFrame u (k u)) (s : State) :
    CaptionFrame s (skipBits n s k) := by
  unfold skipBits
  split
  · exact (moveBit_captionFrame n s).trans (hk _)
  · exact raise_captionFrame _ s

theorem takeBits_captionFrame {k : State → State} (hk : ∀ u, CaptionFrame u (k u)) (ws : List Nat) (s : State) :
    CaptionFrame s (takeBits ws s k) := by
  induction ws generalizing s with
  | nil => exact hk s
  | cons n ns ih => exact skipBits_captionFrame ih s

theorem field1Entry_captionFrame {k : State → State} (hk : ∀ u, CaptionFrame u (k u)) (d1 d2 : BitVec 7) (s : State) :
    CaptionFrame s (field1Entry d1 d2 s k) :=
  takeBits_captionFrame (fun u => (setW_captionFrame _ u).trans (hk _)) _ s

theorem otherEntry_captionFrame (c : BitVec 2) (s : State) : CaptionFrame s (otherEntry c s) :=
  takeBits_captionFrame (fun u => (setW_captionFrame _ u).trans (nextEntry_captionFrame _)) _ s

theorem getBasicChar_captionFrame {k : CodePoint → State → State} (hk : ∀ c u, CaptionFrame u (k c u)) (x : Byte)
    (s : State) : CaptionFrame s (getBasicChar x s k) := by
  unfold getBasicChar
  split
  · exact hk _ s
  · exact raise_captionFrame _ s

theorem basicPair_captionFrame {k : State → State} (hk : ∀ u, CaptionFrame u (k u)) (d1 d2 : BitVec 7) (s : State) :
    CaptionFrame s (basicPair d1 d2 s k) := by
  refine getBasicChar_captionFrame (fun c u => (appendChar_captionFrame c u).trans ?_) _ s
  dsimp only
  split
  · exact hk _
  · exact getBasicChar_captionFrame (fun c u => (appendChar_captionFrame c u).trans (hk _)) _ _

/-- An item of `CC_PARSE` runs in the phase that reads its format, and there keeps what the frame says. -/
theorem exec_captionItem {i : Instr} {f : ItemFormat} {bs : Source} (he : encode i = some (f, bs))
    (hf : f = .ccHdr16 ∨ f = .entry24) :
    ∃ k, (∀ s, exec i s = inFormat f s k) ∧ ∀ u, CaptionFrame u (k u) := by
  obtain ⟨v, he⟩ := itemValue_of_encode he
  have basic : ∀ d1 d2 u, CaptionFrame u (basicPair d1 d2 u nextEntry) :=
    basicPair_captionFrame nextEntry_captionFrame
  cases i <;> simp only [itemValue, Option.some.injEq, Prod.mk.injEq, reduceCtorEq] at he <;> obtain ⟨rfl, -⟩ := he
  case extCont | extLast | seihdrMatch | seihdrMismatch => simp at hf
  case ccHdr _ n _ =>
    exact ⟨_, fun s => by rw [exec, execCcHdr, inPhase_ccHeader], takeBits_captionFrame (startEntries_captionFrame n) _⟩
  case entryInvalid =>
    exact ⟨_, fun s => by rw [exec, execEntryInvalid, inPhase_ccEntry],
      takeBits_captionFrame (fun u => (setW_captionFrame _ u).trans (nextEntry_captionFrame _)) _⟩
  case entryOther1 =>
    exact ⟨_, fun s => by rw [exec, execEntryOther1, inPhase_ccEntry], otherEntry_captionFrame _⟩
  case entryOther2 =>
    exact ⟨_, fun s => by rw [exec, execEntryOther2, inPhase_ccEntry], otherEntry_captionFrame _⟩
  case entryOther3 =>
    exact ⟨_, fun s => by rw [exec, execEntryOther3, inPhase_ccEntry], otherEntry_captionFrame _⟩
  case pairPad =>
    exact ⟨_, fun s => by rw [exec, execPairPad, inPhase_ccEntry],
      field1Entry_captionFrame nextEntry_captionFrame _ _⟩
  case pairSpecial =>
    exact ⟨_, fun s => by rw [exec, execPairSpecial, inPhase_ccEntry],
      field1Entry_captionFrame (fun u => (specialPair_captionFrame _ u).trans (nextEntry_captionFrame _)) _ _⟩
  case pairControl =>
    exact ⟨_, fun s => by rw [exec, execPairControl, inPhase_ccEntry],
      field1Entry_captionFrame (fun u => (controlPair_captionFrame _ _ u).trans (nextEntry_captionFrame _)) _ _⟩
  case pairBasic1 =>
    exact ⟨_, fun s => by rw [exec, execPairBasic1, inPhase_ccEntry], field1Entry_captionFrame (basic _ _) _ _⟩
  case pairBasic2A =>
    exact ⟨_, fun s => by rw [exec, execPairBasic2A, inPhase_ccEntry], field1Entry_captionFrame (basic _ _) _ _⟩
  case pairBasic2B =>
    exact ⟨_, fun s => by rw [exec, execPairBasic2B, inPhase_ccEntry], field1Entry_captionFrame (basic _ _) _ _⟩
  case pairIllegal =>
    exact ⟨_, fun s => by rw [exec, execPairIllegal, inPhase_ccEntry], field1Entry_captionFrame (basic _ _) _ _⟩

/-! ### The operations of `SEI_PARSE` -/

/-- The phases of `SEI_PARSE` (43_sei_header R192). -/
def State.InSei (s : State) : Prop := s.phase = .seiType ∨ s.phase = .seiSize ∨ s.phase = .seiSignature

theorem inSei_of_phaseFormat {f : ItemFormat} (hf : f = .ext8 ∨ f = .sig64) (h : phaseFormat s.phase = some f) :
    s.InSei := by
  unfold State.InSei
  cases hp : s.phase <;> rcases hf with rfl | rfl <;> simp [hp, phaseFormat] at h ⊢

theorem raise_seiFrame (hp : s.InSei) (c : Cause) : SeiFrame s (raise c s) := by
  rw [raise_sei hp]
  exact ⟨rfl, rfl, rfl, rfl, rfl⟩

theorem returnSei_seiFrame (v : Nat) (s : State) : SeiFrame s (returnSei v s) := ⟨rfl, rfl, rfl, rfl, rfl⟩

theorem setHdr_seiFrame (h : HeaderRegs) (s : State) : SeiFrame s (s.setHdr h) := ⟨rfl, rfl, rfl, rfl, rfl⟩

theorem moveByte_seiFrame (n : Nat) (s : State) : SeiFrame s (s.moveByte n) := ⟨rfl, rfl, rfl, rfl, rfl⟩

theorem takeBytes_seiFrame {n : Nat} {k : State → State} (hp : s.InSei)
    (hk : SeiFrame (s.moveByte n) (k (s.moveByte n))) : SeiFrame s (takeBytes n s k) := by
  unfold takeBytes
  split
  · exact (moveByte_seiFrame n s).trans hk
  · exact raise_seiFrame hp _

theorem addToField_seiFrame (b : Byte) (s : State) : SeiFrame s (addToField b s) := by
  unfold addToField
  split
  · exact setHdr_seiFrame _ s
  · exact setHdr_seiFrame _ s

theorem endField_seiFrame (s : State) : SeiFrame s (endField s) := by
  unfold endField
  split
  · split
    · exact returnSei_seiFrame _ _
    · exact ⟨rfl, rfl, rfl, rfl, rfl⟩
  · split
    · exact returnSei_seiFrame _ _
    · exact ⟨rfl, rfl, rfl, rfl, rfl⟩

/-- A field of the signature that differs ends the operation, the others go on. -/
theorem returnUnless_seiFrame {p : Prop} [Decidable p] (h : SeiFrame s t) :
    SeiFrame s (if p then returnSei 0 s else t) := by
  split
  · exact returnSei_seiFrame _ _
  · exact h

theorem takeSignature_seiFrame (hp : s.InSei) (c : BitVec 8) (p : BitVec 16) (v : BitVec 32) (d : BitVec 8) :
    SeiFrame s (takeSignature c p v d s) := by
  refine takeBytes_seiFrame hp ((setHdr_seiFrame _ _).trans (returnUnless_seiFrame ?_))
  refine takeBytes_seiFrame hp ((setHdr_seiFrame _ _).trans (returnUnless_seiFrame ?_))
  refine takeBytes_seiFrame hp ((setHdr_seiFrame _ _).trans (returnUnless_seiFrame ?_))
  refine takeBytes_seiFrame hp ((setHdr_seiFrame _ _).trans (returnUnless_seiFrame ?_))
  exact returnSei_seiFrame _ _

/-- An item of `SEI_PARSE` runs in the phases that read its format, and there keeps what the frame says. -/
theorem exec_seiItem {i : Instr} {f : ItemFormat} {bs : Source} (he : encode i = some (f, bs))
    (hf : f = .ext8 ∨ f = .sig64) :
    ∃ k, (∀ s, exec i s = inFormat f s k) ∧ ∀ u, u.InSei → SeiFrame u (k u) := by
  obtain ⟨v, he⟩ := itemValue_of_encode he
  cases i <;> simp only [itemValue, Option.some.injEq, Prod.mk.injEq, reduceCtorEq] at he <;> obtain ⟨rfl, -⟩ := he
  case extCont =>
    exact ⟨_, fun s => by rw [exec, execExtCont, inField_eq],
      fun u hu => takeBytes_seiFrame hu (addToField_seiFrame _ _)⟩
  case extLast b =>
    exact ⟨_, fun s => by rw [exec, execExtLast, inField_eq],
      fun u hu => takeBytes_seiFrame hu ((addToField_seiFrame b _).trans (endField_seiFrame _))⟩
  case seihdrMatch =>
    exact ⟨_, fun s => by rw [exec, execSeihdrMatch, inPhase_seiSignature],
      fun u hu => takeSignature_seiFrame hu _ _ _ _⟩
  case seihdrMismatch =>
    exact ⟨_, fun s => by rw [exec, execSeihdrMismatch, inPhase_seiSignature],
      fun u hu => takeSignature_seiFrame hu _ _ _ _⟩
  all_goals simp at hf

/-! ### Every stream item -/

theorem seiFormat_or_captionFormat (f : ItemFormat) : (f = .ext8 ∨ f = .sig64) ∨ (f = .ccHdr16 ∨ f = .entry24) := by
  cases f <;> simp

section
variable {i : Instr} {f : ItemFormat} {bs : Source} (he : encode i = some (f, bs))
include he

/-- A stream item is guarded by the phases that read its format. -/
theorem exec_item_guarded : ∃ k, ∀ s, exec i s = inFormat f s k := by
  obtain hf | hf := seiFormat_or_captionFormat f
  · obtain ⟨k, hk, -⟩ := exec_seiItem he hf
    exact ⟨k, hk⟩
  · obtain ⟨k, hk, -⟩ := exec_captionItem he hf
    exact ⟨k, hk⟩

theorem exec_captionFrame (hf : f = .ccHdr16 ∨ f = .entry24) (h : exec i s = .next t) : CaptionFrame s t := by
  obtain ⟨k, hexec, hframe⟩ := exec_captionItem he hf
  obtain ⟨-, rfl⟩ := inFormat_next ((hexec s).symm.trans h)
  exact hframe s

theorem exec_seiFrame (hf : f = .ext8 ∨ f = .sig64) (h : exec i s = .next t) : SeiFrame s t := by
  obtain ⟨k, hexec, hframe⟩ := exec_seiItem he hf
  obtain ⟨hp, rfl⟩ := inFormat_next ((hexec s).symm.trans h)
  exact hframe s (inSei_of_phaseFormat hf hp)

/-- Every stream item keeps both sources and the command list, and only advances the bit cursor and appends to `OUT`. -/
theorem exec_streamFrame (h : exec i s = .next t) : StreamFrame s t := by
  obtain hf | hf := seiFormat_or_captionFormat f
  · exact (exec_seiFrame he hf h).toStreamFrame
  · exact (exec_captionFrame he hf h).toStreamFrame

end

/-- Settles O10: a command's guard is the idle phase, an item's the phases that read its format. -/
theorem refusedOutOfTurn : Obligations.RefusedOutOfTurn := by
  intro i s
  constructor
  · intro hc hp
    obtain ⟨k, hk, -⟩ := exec_command hc s
    rw [hk, whenIdle_busy hp]
  · intro f bs he hp
    obtain ⟨k, hk⟩ := exec_item_guarded he
    rw [hk, inFormat, if_neg hp]

/-- Settles O51: the frame of every item, and the closer one of the unit whose format the item has. -/
theorem streamItemFrame : Obligations.StreamItemFrame := by
  intro i f bs s t he h
  have stream := exec_streamFrame he h
  refine ⟨stream.bitSrc, stream.byteSrc, stream.cmds, fun hf => ?_, fun hf => ?_⟩
  · have frame := exec_seiFrame he hf h
    exact ⟨frame.br, frame.acc, frame.out⟩
  · obtain ⟨es, hes⟩ := stream.out
    exact ⟨(exec_captionFrame he hf h).byr, es, hes.symm⟩

end Sys2Proof.Machine
end

section
/-! PROOFS. A transaction as the run of its stream items (10_state R28, R29): the end of a transaction is reached in `k`
steps from a state inside it, and the commands `SEI_PARSE` and `CC_PARSE` answer that end. -/

namespace Sys2Proof.Machine

variable {s t u : State}

/-! ## Runs to the end of a transaction -/

/-- After exactly `k` steps from `s`, and not before, the transaction has ended, in `t`. -/
structure EndsAfter (k : Nat) (s t : State) : Prop where
  run : core.run k s = .next t
  idle : t.phase = .idle
  busy : ∀ j u, j < k → core.run j s = .next u → u.phase ≠ .idle

theorem run_succ {k : Nat} (h : step s = .next u) : core.run (k + 1) s = core.run k u := by
  have hcore : core.step s = .next u := h
  simp only [Host.Core.run, hcore]

theorem EndsAfter.zero (h : s.phase = .idle) : EndsAfter 0 s s :=
  ⟨rfl, h, fun _ _ hj => absurd hj (Nat.not_lt_zero _)⟩

theorem EndsAfter.succ {k : Nat} (hs : s.phase ≠ .idle) (hstep : step s = .next u) (h : EndsAfter k u t) :
    EndsAfter (k + 1) s t := by
  refine ⟨(run_succ hstep).trans h.run, h.idle, fun j v hj hv => ?_⟩
  cases j with
  | zero =>
    cases hv
    exact hs
  | succ j => exact h.busy j v (Nat.lt_of_succ_lt_succ hj) ((run_succ hstep).symm.trans hv)

/-- What every step inside a transaction keeps, holds at its end. -/
theorem EndsAfter.induction {P : State → Prop}
    (hstep : ∀ u v, u.phase ≠ .idle → P u → step u = .next v → P v) {k : Nat} (h : EndsAfter k s t) (hs : P s) :
    P t := by
  induction k generalizing s with
  | zero =>
    cases h.run
    exact hs
  | succ k ih =>
    have hbusy : s.phase ≠ .idle := h.busy 0 s (Nat.succ_pos k) rfl
    have hrun := h.run
    simp only [Host.Core.run] at hrun
    split at hrun
    · rename_i u hu
      refine ih ⟨hrun, h.idle, fun j v hj hv => ?_⟩ (hstep s u hbusy hs hu)
      exact h.busy (j + 1) v (Nat.succ_lt_succ hj) ((run_succ hu).trans hv)
    · cases hrun
    · cases hrun

/-! ## `SEI_PARSE` -/

/-- The command and the single steps inside `SEI_PARSE` see the same state but for the phase and the header registers,
which the command keeps elsewhere until the end (log entry 17). -/
structure SeiSim (s u : State) : Prop where
  eq : ∃ h p, u = (s.setHdr h).setPhase p
  left : s.InSei
  right : u.InSei

theorem SeiSim.byr (h : SeiSim s u) : u.byr = s.byr := by
  obtain ⟨⟨_, _, rfl⟩, -, -⟩ := h
  rfl

theorem SeiSim.moveByte (h : SeiSim s u) (n : Nat) : SeiSim (s.moveByte n) (u.moveByte n) := by
  obtain ⟨⟨r, p, rfl⟩, hs, hu⟩ := h
  exact ⟨⟨r, p, rfl⟩, hs, hu⟩

theorem SeiSim.setHdr (h : SeiSim s u) (a b : HeaderRegs) : SeiSim (s.setHdr a) (u.setHdr b) := by
  obtain ⟨⟨_, p, rfl⟩, hs, hu⟩ := h
  exact ⟨⟨b, p, rfl⟩, hs, hu⟩

theorem SeiSim.setPhase {p : Phase} (h : SeiSim s u) (hp : (u.setPhase p).InSei) : SeiSim s (u.setPhase p) := by
  obtain ⟨⟨r, _, rfl⟩, hs, -⟩ := h
  exact ⟨⟨r, p, rfl⟩, hs, hp⟩

theorem SeiSim.returnSei (h : SeiSim s u) (v : Nat) : returnSei v u = returnSei v s := by
  obtain ⟨⟨_, _, rfl⟩, -, -⟩ := h
  rfl

theorem SeiSim.raise (h : SeiSim s u) (c : Cause) : raise c u = raise c s := by
  rw [raise_sei h.right, raise_sei h.left]
  obtain ⟨⟨_, _, rfl⟩, -, -⟩ := h
  rfl

/-- The same read in both, with what follows it in each. -/
theorem SeiSim.takeBytes {n : Nat} {k l : State → State} (h : SeiSim s u)
    (hk : l (u.moveByte n) = k (s.moveByte n)) : takeBytes n u l = takeBytes n s k := by
  unfold Machine.takeBytes bytesFit
  rw [h.byr, h.raise, hk]

theorem busy_of_inSei (h : s.InSei) : s.phase ≠ .idle := by
  obtain h | h | h := h <;> simp [h]

/-! ### The signature -/

/-- In the signature the size read before it must agree too: it is what a match returns. -/
structure SignatureSim (s u : State) : Prop extends SeiSim s u where
  size : u.hdr.payloadSize = s.hdr.payloadSize

theorem SignatureSim.read (h : SignatureSim s u) (n : Nat) (f : HeaderRegs → HeaderRegs)
    (hf : ∀ r, (f r).payloadSize = r.payloadSize) :
    SignatureSim ((s.moveByte n).setHdr (f s.hdr)) ((u.moveByte n).setHdr (f u.hdr)) :=
  ⟨(h.moveByte n).setHdr _ _, by simp [hf, h.size]⟩

theorem SignatureSim.takeSignature (h : SignatureSim s u) (c : BitVec 8) (p : BitVec 16) (v : BitVec 32)
    (d : BitVec 8) : takeSignature c p v d u = takeSignature c p v d s := by
  have country := h.read 1 (fun r => { r with countryCode := c }) fun _ => rfl
  have provider := country.read 2 (fun r => { r with providerCode := p }) fun _ => rfl
  have userId := provider.read 4 (fun r => { r with userIdentifier := v }) fun _ => rfl
  have dataType := userId.read 1 (fun r => { r with userDataTypeCode := d }) fun _ => rfl
  refine h.takeBytes (ite_congr rfl (fun _ => country.returnSei 0) fun _ => ?_)
  refine country.takeBytes (ite_congr rfl (fun _ => provider.returnSei 0) fun _ => ?_)
  refine provider.takeBytes (ite_congr rfl (fun _ => userId.returnSei 0) fun _ => ?_)
  refine userId.takeBytes (ite_congr rfl (fun _ => dataType.returnSei 0) fun _ => ?_)
  refine (dataType.returnSei _).trans ?_
  exact congrArg (Machine.returnSei · _) dataType.size

/-! ### A type or size field -/

/-- The value so far of the field that the phase reads (log entry 17). -/
def fieldValue (s : State) : Nat :=
  match s.phase with
  | .seiType => s.hdr.payloadType
  | _ => s.hdr.payloadSize

theorem addToField_eq (b : Byte) (s : State) : ∃ r, addToField b s = s.setHdr r := by
  unfold addToField
  split
  · exact ⟨_, rfl⟩
  · exact ⟨_, rfl⟩

theorem addToField_phase (b : Byte) (s : State) : (addToField b s).phase = s.phase := by
  obtain ⟨r, h⟩ := addToField_eq b s
  rw [h, State.setHdr_phase]

theorem fieldValue_addToField (b : Byte) (s : State) : fieldValue (addToField b s) = fieldValue s + b.toNat := by
  unfold fieldValue addToField
  cases hp : s.phase <;> simp [hp]

theorem SeiSim.addToField (h : SeiSim s u) (r : HeaderRegs) (b : Byte) :
    SeiSim (s.setHdr r) (addToField b u) := by
  obtain ⟨r', hr⟩ := addToField_eq b u
  rw [hr]
  exact h.setHdr r r'

theorem bytesFit_one_iff (s : State) : bytesFit 1 s = decide (0 < bytesLeft s) := by
  unfold bytesFit bytesLeft
  congr 1
  rw [eq_iff_iff]
  omega

/-- `READEXT` as the command runs it ends where the single steps do that read its bytes, if what follows the field
does. -/
theorem readExt_ends {p : Phase} {k : Nat → State → State} (hp : p = .seiType ∨ p = .seiSize)
    (hk : ∀ s u, SeiSim s u → u.phase = p → ∃ n, EndsAfter n (endField u) (k (fieldValue u) s)) (fuel : Nat)
    (s u : State) (h : SeiSim s u) (hu : u.phase = p) (hfuel : bytesLeft s = fuel) :
    ∃ n, EndsAfter n u (readExt fuel (fieldValue u) s k) := by
  have hfield : u.phase = .seiType ∨ u.phase = .seiSize := by rwa [hu]
  induction fuel generalizing s u with
  | zero =>
    have hfit : bytesFit 1 u = false := by rw [bytesFit_one_iff, bytesLeft, h.byr, ← bytesLeft, hfuel]; rfl
    have hstep := step_field hfield
    rw [takeBytes_underrun hfit, h.raise] at hstep
    exact ⟨1, .succ (busy_of_inSei h.right) hstep (.zero (raise_phase _ _))⟩
  | succ fuel ih =>
    have hfit : bytesFit 1 s = true := by rw [bytesFit_one_iff, hfuel]; rfl
    have hfit' : bytesFit 1 u = true := by rw [bytesFit, h.byr]; exact hfit
    have hvalue : memRead s.byr.src s.byr.pos 1 = (srcByte u.byr.src u.byr.pos).toNat := by simp [memRead, h.byr]
    have hstep := step_field hfield
    rw [takeBytes_fits hfit'] at hstep
    rw [readExt, readBytes_fits hfit, hvalue, BitVec.ofNat_toNat, BitVec.setWidth_eq]
    generalize srcByte u.byr.src u.byr.pos = b at hstep ⊢
    have hsim := (h.moveByte 1).addToField { s.hdr with b := b } b
    have hphase : (addToField b (u.moveByte 1)).phase = p := (addToField_phase _ _).trans hu
    have hadd : fieldValue (addToField b (u.moveByte 1)) = fieldValue u + b.toNat := fieldValue_addToField _ _
    rw [← hadd]
    by_cases hb : b = 0xFF
    · subst hb
      have hleft : bytesLeft ((s.moveByte 1).setHdr { s.hdr with b := 0xFF }) = fuel := by
        simp [bytesLeft, ByteReader.len] at hfuel ⊢
        omega
      obtain ⟨n, hn⟩ := ih _ _ hsim hphase hleft (by rwa [hphase])
      exact ⟨n + 1, hn.succ (busy_of_inSei h.right) hstep⟩
    · rw [if_neg hb] at hstep
      obtain ⟨n, hn⟩ := hk _ _ hsim hphase
      have hlast : continues b = false := beq_eq_false_iff_ne.2 hb
      simp only [hlast]
      exact ⟨n + 1, hn.succ (busy_of_inSei h.right) hstep⟩

/-! ### The three fields in turn -/

theorem takeBytes_phase {n : Nat} {k : State → State} (hk : (k (s.moveByte n)).phase = .idle) :
    (takeBytes n s k).phase = .idle := by
  unfold takeBytes
  split
  · exact hk
  · exact raise_phase _ _

theorem returnUnless_phase {p : Prop} [Decidable p] (h : t.phase = .idle) :
    (if p then returnSei 0 s else t).phase = .idle := by
  split
  · rfl
  · exact h

theorem takeSignature_phase (c : BitVec 8) (p : BitVec 16) (v : BitVec 32) (d : BitVec 8) (s : State) :
    (takeSignature c p v d s).phase = .idle := by
  refine takeBytes_phase (returnUnless_phase ?_)
  refine takeBytes_phase (returnUnless_phase ?_)
  refine takeBytes_phase (returnUnless_phase ?_)
  exact takeBytes_phase (returnUnless_phase rfl)

theorem readSignature_phase (s : State) : (readSignature s).phase = .idle := by
  rw [readSignature_eq, takeSignature_phase]

theorem readSignature_ends (h : SignatureSim s u) (hu : u.phase = .seiSignature) : EndsAfter 1 u (readSignature s) := by
  have hsame : readSignature u = readSignature s := by
    rw [readSignature_eq, readSignature_eq, h.byr, h.takeSignature]
  have hstep := step_signature hu
  rw [hsame] at hstep
  exact .succ (busy_of_inSei h.right) hstep (.zero (readSignature_phase s))

/-- What `SEI_PARSE` does with the size `v` (43_sei_header R192 steps 2 to 4). -/
def afterSize (v : Nat) (s : State) : State :=
  if v ≤ 0 then returnSei 0 (s.setHdr { s.hdr with payloadSize := v })
  else readSignature (s.setHdr { s.hdr with payloadSize := v })

/-- What `SEI_PARSE` does with the type `v` (43_sei_header R192 steps 1 to 4). -/
def afterType (v : Nat) (s : State) : State :=
  if v ≠ 4 then returnSei 0 (s.setHdr { s.hdr with payloadType := v })
  else readExt (bytesLeft s) 0 (s.setHdr { s.hdr with payloadType := v }) afterSize

theorem parseSei_eq (s : State) : parseSei s = readExt (bytesLeft s) 0 s afterType := rfl

theorem endField_seiType (hu : u.phase = .seiType) :
    endField u = if u.hdr.payloadType ≠ 4 then returnSei 0 u
      else (u.setPhase .seiSize).setHdr { u.hdr with payloadSize := 0 } := by
  simp only [endField, hu]

theorem endField_seiSize (hu : u.phase = .seiSize) :
    endField u = if u.hdr.payloadSize ≤ 0 then returnSei 0 u else u.setPhase .seiSignature := by
  simp only [endField, hu]

theorem afterSize_ends (s u : State) (h : SeiSim s u) (hu : u.phase = .seiSize) :
    ∃ n, EndsAfter n (endField u) (afterSize (fieldValue u) s) := by
  have hvalue : fieldValue u = u.hdr.payloadSize := by simp only [fieldValue, hu]
  rw [endField_seiSize hu, hvalue, afterSize]
  have hsim := h.setHdr { s.hdr with payloadSize := u.hdr.payloadSize } u.hdr
  by_cases hzero : u.hdr.payloadSize ≤ 0
  · rw [if_pos hzero, if_pos hzero, ← hsim.returnSei 0]
    exact ⟨0, .zero rfl⟩
  · rw [if_neg hzero, if_neg hzero]
    exact ⟨1, readSignature_ends ⟨hsim.setPhase (.inr (.inr rfl)), rfl⟩ rfl⟩

theorem afterType_ends (s u : State) (h : SeiSim s u) (hu : u.phase = .seiType) :
    ∃ n, EndsAfter n (endField u) (afterType (fieldValue u) s) := by
  have hvalue : fieldValue u = u.hdr.payloadType := by simp only [fieldValue, hu]
  rw [endField_seiType hu, hvalue, afterType]
  have hsim := h.setHdr { s.hdr with payloadType := u.hdr.payloadType } u.hdr
  by_cases hother : u.hdr.payloadType ≠ 4
  · rw [if_pos hother, if_pos hother, ← hsim.returnSei 0]
    exact ⟨0, .zero rfl⟩
  · rw [if_neg hother, if_neg hother]
    have hsize := (hsim.setPhase (p := .seiSize) (.inr (.inl rfl))).setHdr
      { s.hdr with payloadType := u.hdr.payloadType } { u.hdr with payloadSize := 0 }
    exact readExt_ends (.inr rfl) afterSize_ends _ _ _ hsize rfl rfl

/-- Single steps from the start of `SEI_PARSE` end where the command does. -/
theorem parseSei_ends (s : State) : ∃ k, EndsAfter k (beginSei s) (parseSei (beginSei s)) := by
  rw [parseSei_eq]
  exact readExt_ends (.inl rfl) afterType_ends _ _ _ ⟨⟨(beginSei s).hdr, .seiType, rfl⟩, .inl rfl, .inl rfl⟩ rfl rfl

/-- Settles O42: the run of the items ends in the state the command answers. -/
theorem seiParseIsItsStreamItems : Obligations.SeiParseIsItsStreamItems := by
  intro s hs
  obtain ⟨k, hk⟩ := parseSei_ends s
  have hexec : exec .seiParse s = .next (parseSei (beginSei s)) := by rw [exec, execSeiParse, whenIdle_idle hs]
  exact ⟨k, _, hexec, hk.idle, hk.run, rfl, rfl, hk.busy⟩

/-! ## `CC_PARSE` -/

/-- The bits of an item are consumed whatever follows: the first read or skip that is not admitted faults, or what
follows runs at the state past them. Either way the cursor stays within the source. -/
theorem takeBits_outcome (ws : List Nat) (s : State) :
    (∃ n, (s.br.pos ≤ 8 * s.br.len → s.br.pos + n ≤ 8 * s.br.len) ∧
      ∀ k, takeBits ws s k = raise .bitUnderrun (s.moveBit n)) ∨
    ((s.br.pos ≤ 8 * s.br.len → s.br.pos + ws.sum ≤ 8 * s.br.len) ∧ ∀ k, takeBits ws s k = k (s.moveBit ws.sum)) := by
  induction ws generalizing s with
  | nil => exact .inr ⟨fun h => h, fun _ => rfl⟩
  | cons m ms ih =>
    cases hm : bitsFit m s with
    | false => exact .inl ⟨0, fun h => h, fun k => by rw [takeBits, skipBits_underrun hm, moveBit_zero]⟩
    | true =>
      have hfit : (s.moveBit m).br.pos ≤ 8 * (s.moveBit m).br.len := (bitsFit_iff m).1 hm
      have htake : ∀ k, takeBits (m :: ms) s k = takeBits ms (s.moveBit m) k := fun k => by
        rw [takeBits, skipBits_fits hm]
      obtain ⟨n, hn, hfault⟩ | ⟨hsum, hgo⟩ := ih (s.moveBit m)
      · refine .inl ⟨m + n, fun _ => ?_, fun k => by rw [htake, hfault, moveBit_moveBit]⟩
        simpa [BitReader.len, Nat.add_assoc] using hn hfit
      · refine .inr ⟨fun _ => ?_, fun k => by rw [htake, hgo, moveBit_moveBit, List.sum_cons]⟩
        simpa [BitReader.len, Nat.add_assoc] using hsum hfit

/-! ### An entry -/

/-- The text collected becomes `a`, and `es` is emitted. -/
def State.withText (s : State) (a : List CodePoint) (es : List Event) : State := { s with acc := a, out := s.out ++ es }

theorem withText_nil (s : State) (a : List CodePoint) : s.withText a [] = s.setAcc a := by
  simp [State.withText, State.setAcc]

theorem controlPair_eq (d1 d2 : BitVec 7) (s : State) :
    controlPair d1 d2 s =
      s.withText [] (textEvents s.acc s.w.ts ++ [.control (dataByte d1) (dataByte d2) s.w.ts]) := by
  by_cases h : s.acc = []
  · rw [controlPair, flush_empty h, textEvents, if_pos h, List.nil_append, State.withText, ← h]
    rfl
  · rw [controlPair, flush_text h, textEvents, if_neg h, State.withText, ← List.append_assoc]
    rfl

/-- What an entry can do to `ACC` and `OUT` (44_caption_decoder R216 to R224): append at most two characters, or flush
and emit one control event. -/
def PairText (s : State) (a : List CodePoint) (es : List Event) : Prop :=
  (a.length ≤ s.acc.length + 2 ∧ es = []) ∨
  (a = [] ∧ ∃ d1 d2, d1 < 0x20 ∧
    es = textEvents s.acc s.w.ts ++ [.control (dataByte d1) (dataByte d2) s.w.ts])

/-- A pair is interpreted whatever follows: a lookup faults, or what follows runs with the pair's text. -/
theorem interpretPair_outcome (d1 d2 : BitVec 7) (s : State) :
    (∃ a, ∀ k, interpretPair d1 d2 s k = raise .tableIndexRange (s.setAcc a)) ∨
    (∃ a es, PairText s a es ∧ ∀ k, interpretPair d1 d2 s k = k (s.withText a es)) := by
  unfold interpretPair
  by_cases hpad : d1 = 0 ∧ d2 = 0
  · refine .inr ⟨s.acc, [], .inl ⟨Nat.le_add_right _ _, rfl⟩, fun k => ?_⟩
    rw [if_pos hpad, withText_nil]
    rfl
  by_cases hspecial : d1 = 0x11 ∧ d2 &&& 0x70 = 0x30
  · refine .inr ⟨s.acc ++ [lookupSpecial (dataByte d2)], [], .inl ⟨by simp, rfl⟩, fun k => ?_⟩
    rw [if_neg hpad, if_pos hspecial, withText_nil]
    rfl
  by_cases hcontrol : d1 < 0x20
  · refine .inr ⟨[], _, .inr ⟨rfl, d1, d2, hcontrol, rfl⟩, fun k => ?_⟩
    rw [if_neg hpad, if_neg hspecial, if_pos hcontrol, controlPair_eq]
  simp only [if_neg hpad, if_neg hspecial, if_neg hcontrol, basicPair, getBasicChar]
  cases lookupBasic (dataByte d1) with
  | none => exact .inl ⟨s.acc, fun _ => rfl⟩
  | some c1 =>
    by_cases hone : d2 = 0
    · refine .inr ⟨s.acc ++ [c1], [], .inl ⟨by simp, rfl⟩, fun k => ?_⟩
      simp only [withText_nil, if_pos hone]
      rfl
    simp only [if_neg hone]
    cases lookupBasic (dataByte d2) with
    | none => exact .inl ⟨s.acc ++ [c1], fun _ => rfl⟩
    | some c2 =>
      refine .inr ⟨s.acc ++ [c1] ++ [c2], [], .inl ⟨by simp, rfl⟩, fun k => ?_⟩
      rw [withText_nil]
      rfl

/-- The registers that an entry leaves alone: it writes its own fields only. -/
def KeepsLoop (s : State) (w : CaptionRegs) : Prop := w.i = s.w.i ∧ w.ccCount = s.w.ccCount ∧ w.ts = s.w.ts

/-- An entry is read whatever follows: it faults, or what follows runs past its 24 bits with its text. -/
theorem parseEntry_outcome (hp : s.phase = .ccEntry) :
    (∃ c n w a, (s.br.pos ≤ 8 * s.br.len → s.br.pos + n ≤ 8 * s.br.len) ∧
      ∀ k, parseEntry s k = raise c (((s.moveBit n).setW w).setAcc a)) ∨
    (∃ w a es, (s.br.pos ≤ 8 * s.br.len → s.br.pos + 24 ≤ 8 * s.br.len) ∧ KeepsLoop s w ∧ PairText s a es ∧
      ∀ k, parseEntry s k = k (((s.moveBit 24).setW w).withText a es)) := by
  simp only [parseEntry_eq hp]
  split
  · obtain ⟨n, hn, hfault⟩ | ⟨hfit, hgo⟩ := takeBits_outcome invalidWidths s
    · exact .inl ⟨_, n, s.w, s.acc, hn, fun k => hfault _⟩
    · refine .inr ⟨{ s.w with ccValid := 0 }, s.acc, [], hfit, ⟨rfl, rfl, rfl⟩,
        .inl ⟨Nat.le_add_right _ _, rfl⟩, fun k => ?_⟩
      rw [hgo, withText_nil]
      rfl
  generalize BitVec.ofNat 2 (srcBits s.br.src (s.br.pos + 6) 2) = t
  split
  · obtain ⟨n, hn, hfault⟩ | ⟨hfit, hgo⟩ := takeBits_outcome otherWidths s
    · exact .inl ⟨_, n, s.w, s.acc, hn, fun k => hfault _⟩
    · refine .inr ⟨{ s.w with ccValid := 1, ccType := t }, s.acc, [], hfit, ⟨rfl, rfl, rfl⟩,
        .inl ⟨Nat.le_add_right _ _, rfl⟩, fun k => ?_⟩
      rw [hgo, withText_nil]
      rfl
  · generalize BitVec.ofNat 7 (srcBits s.br.src (s.br.pos + 9) 7) = d1
    generalize BitVec.ofNat 7 (srcBits s.br.src (s.br.pos + 17) 7) = d2
    obtain ⟨n, hn, hfault⟩ | ⟨hfit, hgo⟩ := takeBits_outcome field1Widths s
    · exact .inl ⟨_, n, s.w, s.acc, hn, fun k => hfault _⟩
    simp only [hgo]
    obtain ⟨a, ha⟩ | ⟨a, es, htext, hk⟩ := interpretPair_outcome d1 d2 _
    · exact .inl ⟨_, _, _, a, hfit, ha⟩
    · exact .inr ⟨{ s.w with ccValid := 1, ccType := 0, ccData1 := d1, ccData2 := d2 }, a, es, hfit, ⟨rfl, rfl, rfl⟩,
        htext, hk⟩

/-! ### The loop -/

/-- The loop counter of an entry that is not the last stays in its register. -/
theorem loopCounter_succ {i count : BitVec 5} (h : i.toNat < count.toNat) : (i + 1).toNat = i.toNat + 1 := by
  bv_omega

/-- The loop over the `n` entries left and step 7 are at most one step for each. -/
theorem parseEntries_ends (n : Nat) (s : State) (hp : s.phase = entryOrFinal s.w.i.toNat s.w.ccCount.toNat)
    (hn : s.w.ccCount.toNat = s.w.i.toNat + n) : ∃ k ≤ n + 1, EndsAfter k s (parseEntries n s) := by
  induction n generalizing s with
  | zero =>
    have hfinal : s.phase = .ccFinal := by rw [hp, entryOrFinal, if_neg (by omega)]
    have hbusy : s.phase ≠ .idle := by simp [hfinal]
    exact ⟨1, le_rfl, .succ hbusy (step_final hfinal) (.zero rfl)⟩
  | succ n ih =>
    have hlt : s.w.i.toNat < s.w.ccCount.toNat := by omega
    have hentry : s.phase = .ccEntry := by rw [hp, entryOrFinal, if_pos hlt]
    have hbusy : s.phase ≠ .idle := by simp [hentry]
    have hstep := step_entry hentry
    rw [parseEntries]
    obtain ⟨c, m, w, a, -, hfault⟩ | ⟨w, a, es, -, ⟨hi, hcount, -⟩, -, hgo⟩ := parseEntry_outcome hentry
    · rw [hfault] at hstep ⊢
      exact ⟨1, Nat.le_add_left _ _, .succ hbusy hstep (.zero (raise_phase _ _))⟩
    · rw [hgo] at hstep ⊢
      have hsucc : (w.i + 1).toNat = w.i.toNat + 1 := loopCounter_succ (count := w.ccCount) (by rwa [hi, hcount])
      obtain ⟨k, hk, hends⟩ := ih (nextEntry (((s.moveBit 24).setW w).withText a es))
        (congrArg (entryOrFinal · _) hsucc.symm) (by
          change w.ccCount.toNat = (w.i + 1).toNat + n
          rw [hsucc, hi, hcount]
          omega)
      exact ⟨k + 1, Nat.succ_le_succ hk, hends.succ hbusy hstep⟩

/-- Single steps from the header on end where the command does, after at most one step for the header, 31 for entries
and one for step 7. -/
theorem parseCaption_ends (s : State) (hp : s.phase = .ccHeader) : ∃ k ≤ 33, EndsAfter k s (parseCaption s) := by
  have hstep := step_header hp
  have hbusy : s.phase ≠ .idle := by simp [hp]
  have hcount := srcBits_lt s.br.src (s.br.pos + 3) 5
  rw [parseCaption_eq]
  generalize srcBits s.br.src (s.br.pos + 3) 5 = n at hstep hcount ⊢
  obtain ⟨m, -, hfault⟩ | ⟨-, hgo⟩ := takeBits_outcome headerWidths s
  · rw [hfault] at hstep ⊢
    exact ⟨1, by decide, .succ hbusy hstep (.zero (raise_phase _ _))⟩
  · rw [hgo] at hstep ⊢
    have htoNat : (BitVec.ofNat 5 n).toNat = n := by rw [BitVec.toNat_ofNat, Nat.mod_eq_of_lt hcount]
    obtain ⟨k, hk, hends⟩ := parseEntries_ends n (startEntries (BitVec.ofNat 5 n) (s.moveBit headerWidths.sum)) rfl
      (htoNat.trans (Nat.zero_add n).symm)
    exact ⟨k + 1, by omega, hends.succ hbusy hstep⟩

/-- Settles O55: the run of the items ends in the state the command answers. -/
theorem ccParseIsItsStreamItems : Obligations.CcParseIsItsStreamItems := by
  intro buffer size ts s hs hsize hlen
  obtain ⟨k, hk, hends⟩ := parseCaption_ends (beginCaption buffer size ts s) rfl
  have hpositive : sizeNotPositive size = false := decide_eq_false (Int.not_le.2 hsize)
  have hfits : Config.bufferFits buffer.length = true := (Config.bufferFits_iff _).2 hlen
  have hexec : exec (.ccParse buffer size ts) s = .next (parseCaption (beginCaption buffer size ts s)) := by
    simp only [exec, execCcParse, whenIdle_idle hs, hpositive, hfits, Bool.false_eq_true, if_false, if_true]
  exact ⟨k, _, hexec, hends.idle, hk, hends.run, hends.busy⟩

end Sys2Proof.Machine
end

section
/-! PROOFS. What a step and a command can do to `OUT` and the Bit Reader (10_state R22, R33; 70_reset_and_hazards
R311). -/

namespace Sys2Proof.Machine

variable {s t : State}

/-! ## Cases of a step -/

/-- Between transactions a step waits or runs the host's next command. -/
theorem step_idle (hs : s.phase = .idle) (h : step s = .next t) :
    t = s ∨ ∃ i rest, i.isCommand = true ∧ exec i (s.setCmds rest) = .next t := by
  unfold step at h
  simp only [hs, phaseFormat, reduceCtorEq, if_false] at h
  split at h
  · cases h
    exact .inl rfl
  · split at h
    · exact .inr ⟨_, _, ‹_›, h⟩
    · cases h

theorem isCommand_or_encode (i : Instr) : i.isCommand = true ∨ ∃ f bs, encode i = some (f, bs) := by
  cases i <;> simp [Instr.isCommand, encode, itemValue]

/-- Inside a transaction a step runs a stream item, or is step 7 of `CC_PARSE`. -/
theorem step_busy (hs : s.phase ≠ .idle) (h : step s = .next t) :
    (∃ i f bs, encode i = some (f, bs) ∧ exec i s = .next t) ∨ t = finishCaption s := by
  unfold step at h
  split at h
  · split at h
    · rename_i i _
      refine .inl ⟨i, ?_⟩
      obtain hc | ⟨f, bs, he⟩ := isCommand_or_encode i
      · exact absurd (exec_command_next hc h).1 hs
      · exact ⟨f, bs, he, h⟩
    · cases h
  · rename_i hnone
    have hfinal : s.phase = .ccFinal := by cases hp : s.phase <;> simp [hp, phaseFormat] at hs hnone ⊢
    rw [if_pos hfinal] at h
    cases h
    exact .inr rfl

/-! ## Frames of whole transactions -/

theorem step_busy_streamFrame (hs : s.phase ≠ .idle) (h : step s = .next t) : StreamFrame s t := by
  obtain ⟨i, f, bs, he, hexec⟩ | rfl := step_busy hs h
  · exact exec_streamFrame he hexec
  · exact (finishCaption_captionFrame s).toStreamFrame

/-- What every step inside a transaction keeps, the transaction keeps. -/
theorem EndsAfter.streamFrame {k : Nat} (h : EndsAfter k s t) : StreamFrame s t :=
  h.induction (P := StreamFrame s) (fun _ _ hbusy hframe hstep => hframe.trans (step_busy_streamFrame hbusy hstep))
    (.refl s)

theorem parseSei_streamFrame (s : State) : StreamFrame s (parseSei (beginSei s)) := by
  obtain ⟨k, hk⟩ := parseSei_ends s
  have start : StreamFrame s (beginSei s) := ⟨rfl, le_rfl, rfl, rfl, List.prefix_rfl⟩
  exact start.trans hk.streamFrame

theorem parseCaption_out (buffer : Source) (size : SizeWord) (ts : Timestamp) (s : State) :
    s.out <+: (parseCaption (beginCaption buffer size ts s)).out := by
  obtain ⟨k, -, hk⟩ := parseCaption_ends (beginCaption buffer size ts s) rfl
  exact hk.streamFrame.out

theorem CommandEffect.out {i : Instr} (h : CommandEffect s i t) : s.out <+: t.out := by
  cases h with
  | seiParse => exact (parseSei_streamFrame s).out
  | ccParse buffer size ts _ => exact parseCaption_out buffer size ts s
  | bindBit | bindByte | consumeBits | consumeBytes | result => exact List.prefix_rfl

/-- Settles O15: every step inside a transaction appends, and so does every command. -/
theorem outputOnlyGrows : Obligations.OutputOnlyGrows := by
  intro s t h
  suffices hout : s.out <+: t.out by
    obtain ⟨es, hes⟩ := hout
    exact ⟨es, hes.symm⟩
  by_cases hs : s.phase = .idle
  · obtain rfl | ⟨i, rest, hc, hexec⟩ := step_idle hs h
    · exact List.prefix_rfl
    · exact (exec_command_next hc hexec).2.out
  · exact (step_busy_streamFrame hs h).out

/-- Settles O16: a stream item and `SEI_PARSE` only advance the bit cursor, and so does every other command that does
not bind the Bit Reader. -/
theorem bitCursorOnlyAdvances : Obligations.BitCursorOnlyAdvances := by
  intro i s t hreset hparse h
  obtain hc | ⟨f, bs, he⟩ := isCommand_or_encode i
  · obtain ⟨-, heffect⟩ := exec_command_next hc h
    cases heffect with
    | bindBit src => exact absurd rfl (hreset src)
    | ccParse buffer size ts => exact absurd rfl (hparse buffer size ts)
    | seiParse => exact ⟨(parseSei_streamFrame s).bitSrc, (parseSei_streamFrame s).bitPos⟩
    | consumeBits i n => exact ⟨rfl, Nat.le_add_right _ _⟩
    | bindByte | consumeBytes | result => exact ⟨rfl, le_rfl⟩
  · have frame := exec_streamFrame he h
    exact ⟨frame.bitSrc, frame.bitPos⟩

end Sys2Proof.Machine
end

section
/-! PROOFS. The invariant (Safety.lean) is kept by every step: by each phase of a transaction, hence by whole
transactions, and by the host commands. -/

namespace Sys2Proof.Machine

variable {s t : State}

/-! ## Events -/

/-- A flush emits at most `ACC_CAP` code points if there are no more. -/
theorem textEvents_wf {acc : List CodePoint} {ts : Timestamp} (h : acc.length ≤ Config.accCap) :
    ∀ e ∈ textEvents acc ts, e.wf := by
  intro e he
  unfold textEvents at he
  split at he
  · cases he
  · rw [List.mem_singleton.1 he]
    exact ⟨‹_›, h⟩

theorem controlEvent_wf {d1 : BitVec 7} (h : d1 < 0x20) (d2 : BitVec 7) (ts : Timestamp) :
    (Event.control (dataByte d1) (dataByte d2) ts).wf := by
  simp only [Event.wf, dataByte]
  bv_omega

theorem outInv_append {es : List Event} (h : s.OutInv) (hes : ∀ e ∈ es, e.wf) (ht : t.out = s.out ++ es) :
    t.OutInv := by
  intro e he
  rw [ht] at he
  exact (List.mem_append.1 he).elim (h e) (hes e)

/-- The text of an entry keeps the events well-formed while `ACC` is within its bound. -/
theorem pairText_wf {a : List CodePoint} {es : List Event} (h : PairText s a es) (hacc : s.acc.length ≤ Config.accCap) :
    ∀ e ∈ es, e.wf := by
  obtain ⟨-, rfl⟩ | ⟨-, d1, d2, hd1, rfl⟩ := h
  · exact fun _ he => nomatch he
  · intro e he
    obtain he | he := List.mem_append.1 he
    · exact textEvents_wf hacc e he
    · rw [List.mem_singleton.1 he]
      exact controlEvent_wf hd1 d2 _

theorem pairText_length {a : List CodePoint} {es : List Event} (h : PairText s a es) :
    a.length ≤ s.acc.length + 2 := by
  obtain ⟨ha, -⟩ | ⟨rfl, -⟩ := h
  · exact ha
  · exact Nat.zero_le _

/-! ## The ends of a transaction -/

theorem freeHeaderRegs_bounded (n : Nat) :
    (freeHeaderRegs n).payloadType < 2 ^ 31 ∧ (freeHeaderRegs n).payloadSize < 2 ^ 31 :=
  ⟨Nat.mod_lt _ (Nat.two_pow_pos 31), Nat.mod_lt _ (Nat.two_pow_pos 31)⟩

/-- A state between transactions. -/
theorem inv_of_idle (hp : s.phase = .idle) (hr : s.ReadersInv) (ha : s.acc = []) (hh : s.HeaderInv) (ho : s.OutInv) :
    s.Inv := ⟨hr, by rwa [State.PhaseInv, hp], hh, ho⟩

theorem raise_caption_inv (hp : s.phase = .ccHeader ∨ s.phase = .ccEntry ∨ s.phase = .ccFinal) (hr : s.ReadersInv)
    (ho : s.OutInv) (c : Cause) : (raise c s).Inv := by
  have hreaders := raise_readers c hr
  rw [raise_caption hp] at hreaders ⊢
  exact inv_of_idle rfl hreaders rfl (freeHeaderRegs_bounded _) ho

/-- What the states inside `SEI_PARSE` have in common: all that the end of the operation asks for. -/
structure SeiInv (s : State) : Prop where
  readers : s.ReadersInv
  acc : s.acc = []
  out : s.OutInv
  phase : s.InSei

theorem SeiInv.setHdr (h : SeiInv s) (r : HeaderRegs) : SeiInv (s.setHdr r) := ⟨h.readers, h.acc, h.out, h.phase⟩

theorem SeiInv.returnSei (h : SeiInv s) (v : Nat) : (returnSei v s).Inv :=
  inv_of_idle rfl h.readers h.acc (freeHeaderRegs_bounded _) h.out

theorem SeiInv.raise (h : SeiInv s) (c : Cause) : (raise c s).Inv := by
  have hreaders := raise_readers c h.readers
  rw [raise_sei h.phase] at hreaders ⊢
  exact inv_of_idle rfl hreaders h.acc (freeHeaderRegs_bounded _) h.out

/-- Bytes are consumed within the source, or the operation ends. -/
theorem SeiInv.takeBytes {n : Nat} {k : State → State} (h : SeiInv s)
    (hk : SeiInv (s.moveByte n) → (k (s.moveByte n)).Inv) : (takeBytes n s k).Inv := by
  cases hn : bytesFit n s with
  | true =>
    rw [takeBytes_fits hn]
    exact hk ⟨moveByte_readers h.readers hn, h.acc, h.out, h.phase⟩
  | false =>
    rw [takeBytes_underrun hn]
    exact h.raise _

/-! ## The phases of `SEI_PARSE` -/

theorem SeiInv.returnUnless {p : Prop} [Decidable p] (h : SeiInv s) (ht : t.Inv) :
    (if p then Machine.returnSei 0 s else t).Inv := by
  split
  · exact h.returnSei 0
  · exact ht

theorem takeSignature_inv (h : SeiInv s) (c : BitVec 8) (p : BitVec 16) (v : BitVec 32) (d : BitVec 8) :
    (takeSignature c p v d s).Inv := by
  refine h.takeBytes fun h => (h.setHdr _).returnUnless ?_
  refine (h.setHdr _).takeBytes fun h => (h.setHdr _).returnUnless ?_
  refine (h.setHdr _).takeBytes fun h => (h.setHdr _).returnUnless ?_
  refine (h.setHdr _).takeBytes fun h => (h.setHdr _).returnUnless ?_
  exact (h.setHdr _).returnSei _

theorem seiInv_of_inSei (hp : s.InSei) (h : s.Inv) : SeiInv s := by
  obtain ⟨hr, hphase, -, ho⟩ := h
  have ha : s.acc = [] := by
    unfold State.PhaseInv at hphase
    obtain hp | hp | hp := hp <;> rw [hp] at hphase <;> exact hphase.1
  exact ⟨hr, ha, ho, hp⟩

/-- At most `255` per byte read fits the accumulators (00_scope R12 (a)): a source is within `MAX_BUF_BYTES`. -/
theorem accumulator_lt {n : Nat} (hr : s.ReadersInv) (h : n ≤ 255 * s.byr.pos) : n < 2 ^ 31 := by
  obtain ⟨-, -, hwf, hpos⟩ := hr
  have hlen : s.byr.len ≤ Config.maxBufBytes := (Config.bufferFits_iff _).1 hwf
  have hmax := Config.maxBufBytes_le
  omega

/-- A byte more is at most `255` more in the accumulator. -/
theorem addToField_inv (b : Byte) (hp : s.phase = .seiType ∨ s.phase = .seiSize) (h : s.Inv)
    (hn : bytesFit 1 s = true) : (addToField b (s.moveByte 1)).Inv := by
  obtain ⟨hr, hphase, ⟨htype, hsize⟩, ho⟩ := h
  have hb : b.toNat ≤ 255 := Nat.le_of_lt_succ b.isLt
  have hr' := moveByte_readers hr hn
  obtain hp | hp := hp
  · simp only [State.PhaseInv, hp] at hphase
    obtain ⟨ha, hvalue⟩ := hphase
    have hadd : s.hdr.payloadType + b.toNat ≤ 255 * (s.moveByte 1).byr.pos := by
      change _ ≤ 255 * (s.byr.pos + 1)
      omega
    simp only [addToField, State.moveByte_phase, hp]
    exact ⟨hr', by simpa only [State.PhaseInv, State.setHdr_phase, State.moveByte_phase, hp] using ⟨ha, hadd⟩,
      ⟨accumulator_lt hr' hadd, hsize⟩, ho⟩
  · simp only [State.PhaseInv, hp] at hphase
    obtain ⟨ha, hfour, hvalue⟩ := hphase
    have hadd : s.hdr.payloadSize + b.toNat ≤ 255 * (s.moveByte 1).byr.pos := by
      change _ ≤ 255 * (s.byr.pos + 1)
      omega
    simp only [addToField, State.moveByte_phase, hp]
    exact ⟨hr', by simpa only [State.PhaseInv, State.setHdr_phase, State.moveByte_phase, hp] using ⟨ha, hfour, hadd⟩,
      ⟨htype, accumulator_lt hr' hadd⟩, ho⟩

/-- A complete field is tested, and the next one starts within its bound. -/
theorem endField_inv (hp : s.phase = .seiType ∨ s.phase = .seiSize) (h : s.Inv) : (endField s).Inv := by
  have hsei : SeiInv s := seiInv_of_inSei (hp.imp_right .inl) h
  obtain ⟨hr, hphase, ⟨htype, hsize⟩, ho⟩ := h
  obtain hp | hp := hp
  · rw [endField_seiType hp]
    split
    · exact hsei.returnSei 0
    · rename_i hfour
      exact ⟨hr, ⟨hsei.acc, not_not.1 hfour, Nat.zero_le _⟩, ⟨htype, Nat.two_pow_pos 31⟩, ho⟩
  · simp only [State.PhaseInv, hp] at hphase
    obtain ⟨ha, hfour, hvalue⟩ := hphase
    rw [endField_seiSize hp]
    split
    · exact hsei.returnSei 0
    · rename_i hpos
      exact ⟨hr, ⟨ha, hfour, Nat.lt_of_not_le hpos, hvalue⟩, ⟨htype, hsize⟩, ho⟩

theorem step_field_inv (hp : s.phase = .seiType ∨ s.phase = .seiSize) (h : s.Inv) (hstep : step s = .next t) :
    t.Inv := by
  rw [step_field hp] at hstep
  cases hstep
  cases hn : bytesFit 1 s with
  | true =>
    rw [takeBytes_fits hn]
    split
    · exact addToField_inv _ hp h hn
    · exact endField_inv (by rwa [addToField_phase]) (addToField_inv _ hp h hn)
  | false =>
    rw [takeBytes_underrun hn]
    exact (seiInv_of_inSei (hp.imp_right .inl) h).raise _

theorem step_signature_inv (hp : s.phase = .seiSignature) (h : s.Inv) (hstep : step s = .next t) : t.Inv := by
  rw [step_signature hp, readSignature_eq] at hstep
  cases hstep
  exact takeSignature_inv (seiInv_of_inSei (.inr (.inr hp)) h) _ _ _ _

/-! ## The phases of `CC_PARSE` -/

/-- Some of an item's bits are consumed, within the source. -/
theorem moveBit_le_readers {n : Nat} (h : s.ReadersInv) (hn : s.br.pos ≤ 8 * s.br.len → s.br.pos + n ≤ 8 * s.br.len) :
    (s.moveBit n).ReadersInv := moveBit_readers h ((bitsFit_iff n).2 (hn h.2.1))

/-- The loop stands before entry `i`, or after the last: what `ENTRY(i)` and `FINAL` have in common. -/
structure LoopInv (s : State) : Prop where
  readers : s.ReadersInv
  header : s.HeaderInv
  out : s.OutInv
  count : s.w.i.toNat ≤ s.w.ccCount.toNat
  pos : s.br.pos = 16 + 24 * s.w.i.toNat
  acc : s.acc.length ≤ 2 * s.w.i.toNat
  phase : s.phase = entryOrFinal s.w.i.toNat s.w.ccCount.toNat

theorem LoopInv.inv (h : LoopInv s) : s.Inv := by
  refine ⟨h.readers, ?_, h.header, h.out⟩
  have hcount := h.count
  have hphase := h.phase
  unfold entryOrFinal at hphase
  split at hphase
  · simp only [State.PhaseInv, hphase]
    exact ⟨‹_›, h.pos, h.acc⟩
  · simp only [State.PhaseInv, hphase]
    exact ⟨BitVec.eq_of_toNat_eq (by omega), h.pos, h.acc⟩

/-- Characters collected over the entries fit `ACC_CAP` (44_caption_decoder R226). -/
theorem acc_le_accCap {i : BitVec 5} {acc : List CodePoint} (h : acc.length ≤ 2 * i.toNat) :
    acc.length ≤ Config.accCap := by
  have := i.isLt
  unfold Config.accCap
  omega

theorem step_header_inv (hp : s.phase = .ccHeader) (h : s.Inv) (hstep : step s = .next t) : t.Inv := by
  obtain ⟨hr, hphase, hh, ho⟩ := h
  simp only [State.PhaseInv, hp] at hphase
  obtain ⟨ha, hpos⟩ := hphase
  rw [step_header hp] at hstep
  cases hstep
  obtain ⟨n, hn, hfault⟩ | ⟨hfit, hgo⟩ := takeBits_outcome headerWidths s
  · rw [hfault]
    exact raise_caption_inv (s := s.moveBit n) (.inl hp) (moveBit_le_readers hr hn) ho _
  · rw [hgo]
    refine LoopInv.inv ⟨moveBit_le_readers hr hfit, hh, ho, Nat.zero_le _, ?_, ?_, rfl⟩
    · exact congrArg (· + 16) hpos
    · exact (congrArg List.length ha).le

theorem step_entry_inv (hp : s.phase = .ccEntry) (h : s.Inv) (hstep : step s = .next t) : t.Inv := by
  obtain ⟨hr, hphase, hh, ho⟩ := h
  simp only [State.PhaseInv, hp] at hphase
  obtain ⟨hlt, hpos, hacc⟩ := hphase
  rw [step_entry hp] at hstep
  cases hstep
  obtain ⟨c, n, w, a, hn, hfault⟩ | ⟨w, a, es, hfit, ⟨hi, hcount, -⟩, htext, hgo⟩ := parseEntry_outcome hp
  · rw [hfault]
    exact raise_caption_inv (s := ((s.moveBit n).setW w).setAcc a) (.inr (.inl hp)) (moveBit_le_readers hr hn) ho _
  · rw [hgo]
    have hsucc : (w.i + 1).toNat = s.w.i.toNat + 1 := by
      rw [loopCounter_succ (count := w.ccCount) (by rwa [hi, hcount]), hi]
    have ha := pairText_length htext
    refine LoopInv.inv ⟨moveBit_le_readers hr hfit, hh, ?_, ?_, ?_, ?_, congrArg (entryOrFinal · _) ?_⟩
    · exact outInv_append ho (pairText_wf htext (acc_le_accCap hacc)) rfl
    · change (w.i + 1).toNat ≤ w.ccCount.toNat
      rw [hsucc, hcount]
      omega
    · change s.br.pos + 24 = 16 + 24 * (w.i + 1).toNat
      rw [hsucc, hpos]
      omega
    · change a.length ≤ 2 * (w.i + 1).toNat
      rw [hsucc]
      omega
    · change w.i.toNat + 1 = (w.i + 1).toNat
      rw [hsucc, hi]

theorem step_final_inv (hp : s.phase = .ccFinal) (h : s.Inv) (hstep : step s = .next t) : t.Inv := by
  obtain ⟨hr, hphase, hh, ho⟩ := h
  simp only [State.PhaseInv, hp] at hphase
  obtain ⟨-, -, hacc⟩ := hphase
  rw [step_final hp] at hstep
  cases hstep
  have hflush : (finishCaption s).hdr = s.hdr := flush_hdr s
  refine inv_of_idle rfl (flush_readers hr) (flush_acc s) ?_ ?_
  · rw [State.HeaderInv, hflush]
    exact hh
  · exact outInv_append ho (textEvents_wf (acc_le_accCap hacc)) (flush_out_textEvents s)

/-! ## Every step -/

theorem step_busy_inv (hs : s.phase ≠ .idle) (h : s.Inv) (hstep : step s = .next t) : t.Inv := by
  cases hp : s.phase with
  | idle => exact absurd hp hs
  | seiType => exact step_field_inv (.inl hp) h hstep
  | seiSize => exact step_field_inv (.inr hp) h hstep
  | seiSignature => exact step_signature_inv hp h hstep
  | ccHeader => exact step_header_inv hp h hstep
  | ccEntry => exact step_entry_inv hp h hstep
  | ccFinal => exact step_final_inv hp h hstep

/-- A transaction that starts in the invariant ends in it. -/
theorem EndsAfter.inv {k : Nat} (hends : EndsAfter k s t) (h : s.Inv) : t.Inv :=
  hends.induction (P := State.Inv) (fun _ _ hs h hstep => step_busy_inv hs h hstep) h

theorem acc_of_idle (hs : s.phase = .idle) (h : s.PhaseInv) : s.acc = [] := by
  rwa [State.PhaseInv, hs] at h

theorem beginSei_inv (hs : s.phase = .idle) (h : s.Inv) : (beginSei s).Inv := by
  obtain ⟨hr, hphase, -, ho⟩ := h
  have ha := acc_of_idle hs hphase
  exact ⟨hr, ⟨ha, Nat.zero_le _⟩, ⟨Nat.two_pow_pos 31, (freeHeaderRegs_bounded _).2⟩, ho⟩

theorem beginCaption_inv {buffer : Source} (size : SizeWord) (ts : Timestamp) (hwf : Memory.wf buffer) (h : s.Inv) :
    (beginCaption buffer size ts s).Inv := by
  obtain ⟨hr, -, hh, ho⟩ := h
  have hbound : (s.bindBit buffer).ReadersInv := bindBit_readers hr hwf
  exact ⟨hbound, ⟨rfl, rfl⟩, hh, ho⟩

theorem CommandEffect.inv {i : Instr} (hs : s.phase = .idle) (h : s.Inv) (heffect : CommandEffect s i t) : t.Inv := by
  have ⟨hr, hphase, hh, ho⟩ := h
  have ha := acc_of_idle hs hphase
  cases heffect with
  | bindBit src hwf => exact inv_of_idle hs (bindBit_readers hr hwf) ha hh ho
  | bindByte src p hwf hp =>
    have hbound : (s.bindByte src p).ReadersInv := bindByte_readers hr hwf hp
    exact inv_of_idle hs hbound ha hh ho
  | consumeBits i n r d hfit => exact inv_of_idle hs (moveBit_readers hr hfit) ha hh ho
  | consumeBytes i n r hfit => exact inv_of_idle hs (moveByte_readers hr hfit) ha hh ho
  | result i r => exact inv_of_idle hs hr ha hh ho
  | seiParse =>
    obtain ⟨k, hk⟩ := parseSei_ends s
    exact hk.inv (beginSei_inv hs h)
  | ccParse buffer size ts hwf =>
    obtain ⟨k, -, hk⟩ := parseCaption_ends (beginCaption buffer size ts s) rfl
    exact hk.inv (beginCaption_inv size ts hwf h)

/-- Settles O14: each phase of a transaction keeps the invariant, and a command either does one small thing or is the
run of its items. -/
theorem stepKeepsInvariant : Obligations.StepKeepsInvariant := by
  intro s t h hstep
  by_cases hs : s.phase = .idle
  · obtain rfl | ⟨i, rest, hc, hexec⟩ := step_idle hs hstep
    · exact h
    · obtain ⟨hidle, heffect⟩ := exec_command_next hc hexec
      exact heffect.inv hidle h
  · exact step_busy_inv hs h hstep

end Sys2Proof.Machine
end

section
/-! PROOFS. The next bit of a source (20_memory R61; 40_bit_reader R131), and aligned bits as bytes (20_memory R63). -/

namespace Sys2Proof

/-- Settles O6: the two reads agree at every byte boundary, past the end too. -/
theorem bitAndByteReadsAgree : Obligations.BitAndByteReadsAgree :=
  fun src a n _ => srcBits_eq_memRead src a n

/-- A bit of a byte that the source has. -/
theorem srcBit_of_getElem? {src : Source} {p : Nat} {byte : Byte} (h : src[p / 8]? = some byte) :
    srcBit src p = byte.getLsbD (7 - p % 8) := by
  rw [srcBit, srcByte, List.getD_eq_getElem?_getD, h, Option.getD_some]

end Sys2Proof

namespace Sys2Proof.Machine

variable {s : State}

theorem boolValue_eq_toNat (b : Bool) : boolValue b = b.toNat := by
  cases b with
  | false => rfl
  | true => rfl

/-- Where the byte of the next bit exists, the bit does. -/
theorem bitsFit_one_of_getElem? {byte : Byte} (h : s.br.src[s.br.pos / 8]? = some byte) : bitsFit 1 s = true := by
  obtain ⟨hbyte, -⟩ := List.getElem?_eq_some_iff.1 h
  rw [bitsFit_iff, BitReader.len]
  omega

/-- An admitted `BR.READBIT` between transactions answers the bit at the cursor and consumes it. -/
theorem exec_brReadBit_fits (hs : s.phase = .idle) (h : bitsFit 1 s = true) :
    exec .brReadBit s = .next (answer (boolValue (srcBit s.br.src s.br.pos)) (s.moveBit 1)) := by
  calc exec .brReadBit s
    _ = execBrReadBit s := rfl
    _ = .next (readBit s fun b s => answer (boolValue b) s) := by rw [execBrReadBit, whenIdle_idle hs]
    _ = .next (answer (boolValue (srcBit s.br.src s.br.pos)) (s.moveBit 1)) := by rw [readBit_fits h]

/-- Settles O19: the bit at the cursor is the one R131 names. -/
theorem brReadBitReturnsNextBit : Obligations.BrReadBitReturnsNextBit := by
  intro s byte hs hbyte
  rw [exec_brReadBit_fits hs (bitsFit_one_of_getElem? hbyte), srcBit_of_getElem? hbyte, boolValue_eq_toNat]
  rfl

end Sys2Proof.Machine
end

section
/-! PROOFS. What the host commands other than `SEI_PARSE` and `CC_PARSE` leave unchanged (20_memory R66; 45_host_commands
R255). -/

namespace Sys2Proof.Machine

variable {s t : State}

/-- The commands of the Bit Reader (45_host_commands R251). -/
inductive BitCommand : Instr → Prop
  | reset (src : Source) : BitCommand (.brReset src)
  | readBit : BitCommand .brReadBit
  | readBits (n : Nat) : BitCommand (.brReadBits n)
  | skipBits (n : Nat) : BitCommand (.brSkipBits n)

/-- The commands that bind the Byte Reader or read from it (R251); `BY.POS` only looks at the cursor. -/
inductive ByteCommand : Instr → Prop
  | bind (src : Source) (p : Nat) : ByteCommand (.byBind src p)
  | readU8 : ByteCommand .byReadU8
  | readU16 : ByteCommand .byReadU16
  | readI32 : ByteCommand .byReadI32

/-- Consuming bits leaves the Byte Reader to what follows. -/
theorem skipBits_byr {n : Nat} {k : State → State} (hk : ∀ u, (k u).byr = u.byr) : (skipBits n s k).byr = s.byr := by
  unfold skipBits
  split
  · exact hk _
  · exact raise_byr _ s

/-- Reading bytes leaves the Bit Reader. -/
theorem readBytes_br (n : Nat) (s : State) : (readBytes n s answer).br = s.br := by
  unfold readBytes
  split
  · rfl
  · exact raise_br _ s

/-- A lookup leaves both readers. -/
theorem getBasicChar_readers (x : Byte) (s : State) :
    (getBasicChar x s fun c s => answer c.toNat s).br = s.br ∧
      (getBasicChar x s fun c s => answer c.toNat s).byr = s.byr := by
  unfold getBasicChar
  split
  · exact ⟨rfl, rfl⟩
  · exact ⟨raise_br _ s, raise_byr _ s⟩

/-- What an unconditional command answers between transactions. -/
theorem eq_of_whenIdle_next {k : State → State} (h : (whenIdle s fun s => .next (k s)) = .next t) : t = k s := by
  obtain ⟨-, hk⟩ := whenIdle_next h
  injection hk with hk
  exact hk.symm

/-- A component command belongs to one reader and leaves the other, or to none and leaves both. -/
theorem componentCommand_readers {i : Instr} (hc : i.isCommand = true) (hsei : i ≠ .seiParse)
    (hcc : ∀ b z ts, i ≠ .ccParse b z ts) (h : exec i s = .next t) :
    BitCommand i ∧ t.byr = s.byr ∨ ByteCommand i ∧ t.br = s.br ∨ t.br = s.br ∧ t.byr = s.byr := by
  cases i
  case brReset src =>
    rw [exec, execBrReset] at h
    obtain ⟨-, h⟩ := whenIdle_next h
    split at h
    · cases h
      exact .inl ⟨.reset src, rfl⟩
    · cases h
  case brReadBit =>
    rw [exec, execBrReadBit] at h
    obtain rfl := eq_of_whenIdle_next h
    exact .inl ⟨.readBit, skipBits_byr fun _ => rfl⟩
  case brReadBits n =>
    rw [exec, execBrReadBits] at h
    obtain ⟨-, h⟩ := whenIdle_next h
    split at h
    · cases h
      exact .inl ⟨.readBits n, skipBits_byr fun _ => rfl⟩
    · cases h
  case brSkipBits n =>
    rw [exec, execBrSkipBits] at h
    obtain rfl := eq_of_whenIdle_next h
    exact .inl ⟨.skipBits n, skipBits_byr fun _ => rfl⟩
  case byBind src p =>
    rw [exec, execByBind] at h
    obtain ⟨-, h⟩ := whenIdle_next h
    split at h
    · split at h
      · cases h
        exact .inr (.inl ⟨.bind src p, rfl⟩)
      · cases h
    · cases h
  case byReadU8 =>
    rw [exec, execByReadU8] at h
    obtain rfl := eq_of_whenIdle_next h
    exact .inr (.inl ⟨.readU8, readBytes_br 1 s⟩)
  case byReadU16 =>
    rw [exec, execByReadU16] at h
    obtain rfl := eq_of_whenIdle_next h
    exact .inr (.inl ⟨.readU16, readBytes_br 2 s⟩)
  case byReadI32 =>
    rw [exec, execByReadI32] at h
    obtain rfl := eq_of_whenIdle_next h
    exact .inr (.inl ⟨.readI32, readBytes_br 4 s⟩)
  case byPos =>
    rw [exec, execByPos] at h
    obtain rfl := eq_of_whenIdle_next h
    exact .inr (.inr ⟨rfl, rfl⟩)
  case getBasic x =>
    rw [exec, execGetBasic] at h
    obtain rfl := eq_of_whenIdle_next h
    exact .inr (.inr (getBasicChar_readers x s))
  case getSpecial y =>
    rw [exec, execGetSpecial] at h
    obtain rfl := eq_of_whenIdle_next h
    exact .inr (.inr ⟨rfl, rfl⟩)
  case canParse formatId =>
    rw [exec, execCanParse] at h
    obtain rfl := eq_of_whenIdle_next h
    exact .inr (.inr ⟨rfl, rfl⟩)
  case seiParse => exact absurd rfl hsei
  case ccParse b z ts => exact absurd rfl (hcc b z ts)
  all_goals exact absurd hc Bool.false_ne_true

/-- Outside the two parsers a command's effect is on a reader, `RES` and the count of free values. -/
theorem CommandEffect.componentFrame {i : Instr} (heffect : CommandEffect s i t) (hsei : i ≠ .seiParse)
    (hcc : ∀ b z ts, i ≠ .ccParse b z ts) :
    t.acc = s.acc ∧ t.out = s.out ∧ t.w = s.w ∧ t.hdr = s.hdr ∧ t.phase = s.phase ∧ t.cmds = s.cmds := by
  cases heffect with
  | seiParse => exact absurd rfl hsei
  | ccParse b z ts => exact absurd rfl (hcc b z ts)
  | bindBit | bindByte | consumeBits | consumeBytes | result => exact ⟨rfl, rfl, rfl, rfl, rfl, rfl⟩

theorem not_bitCommand {i : Instr} (hreset : ∀ src, i ≠ .brReset src) (hbit : i ≠ .brReadBit)
    (hbits : ∀ n, i ≠ .brReadBits n) (hskip : ∀ n, i ≠ .brSkipBits n) : ¬ BitCommand i
  | .reset src => hreset src rfl
  | .readBit => hbit rfl
  | .readBits n => hbits n rfl
  | .skipBits n => hskip n rfl

theorem not_byteCommand {i : Instr} (hbind : ∀ src p, i ≠ .byBind src p) (hu8 : i ≠ .byReadU8) (hu16 : i ≠ .byReadU16)
    (hi32 : i ≠ .byReadI32) : ¬ ByteCommand i
  | .bind src p => hbind src p rfl
  | .readU8 => hu8 rfl
  | .readU16 => hu16 rfl
  | .readI32 => hi32 rfl

/-- Settles O52: the effect of a component command spares all but the readers, and the command the other reader. -/
theorem componentCommandFrame : Obligations.ComponentCommandFrame := by
  intro i s t hc hsei hcc h
  obtain ⟨hacc, hout, hw, hhdr, hphase, hcmds⟩ := (exec_command_next hc h).2.componentFrame hsei hcc
  have readers := componentCommand_readers hc hsei hcc h
  refine ⟨hacc, hout, hw, hhdr, hphase, hcmds, fun hreset hbit hbits hskip => ?_, fun hbind hu8 hu16 hi32 => ?_⟩
  · obtain ⟨hi, -⟩ | ⟨-, hbr⟩ | ⟨hbr, -⟩ := readers
    · exact absurd hi (not_bitCommand hreset hbit hbits hskip)
    · exact hbr
    · exact hbr
  · obtain ⟨-, hbyr⟩ | ⟨hi, -⟩ | ⟨-, hbyr⟩ := readers
    · exact hbyr
    · exact absurd hi (not_byteCommand hbind hu8 hu16 hi32)
    · exact hbyr

end Sys2Proof.Machine
end

section
/-! PROOFS. The decoder and the encoder of the stream items are inverse to each other (30_encoding R91 to R98, R106): a
value of each format is one item, whose fields make up the value again, and bytes are the digits of a value. -/

namespace Sys2Proof

/-! ## Bytes of a source as a value -/

/-- Writing back the bytes that were read. -/
theorem bytesOf_memRead (bs : Source) (n : Nat) (h : n ≤ bs.length) : bytesOf n (memRead bs 0 n) = bs.take n := by
  induction n with
  | zero => rfl
  | succ n ih =>
    have hbyte : srcByte bs n = bs[n] := by rw [srcByte, List.getD_eq_getElem _ _ h]
    have hhigh : memRead bs 0 (n + 1) / 256 = memRead bs 0 n := by
      rw [memRead]
      omega
    have hlow : BitVec.ofNat 8 (memRead bs 0 (n + 1)) = bs[n] := by
      apply BitVec.eq_of_toNat_eq
      rw [memRead, Nat.zero_add, hbyte, BitVec.toNat_ofNat]
      omega
    rw [bytesOf, hhigh, hlow, ih (by omega), List.take_concat_get' bs n h]

/-! ## Items as values: the fixed formats -/

/-- The item of a byte of an extended value (30_encoding R91). -/
def extItem (b : Byte) : Instr := if b = 0xFF then .extCont else .extLast b

theorem extItem_encodes (b : Byte) :
    (extItem b).wf = true ∧ itemValue (extItem b) = some (.ext8, b.toNat) := by
  unfold extItem
  split_ifs with h
  · subst h
    exact ⟨rfl, rfl⟩
  · exact ⟨bne_iff_ne.2 h, rfl⟩

theorem firstRow_ext (b : Byte) : firstRow ext8Rows b = some (extItem b) := by
  have hmask : b &&& (0xFF : BitVec 8) = b := BitVec.and_allOnes
  have hall : b &&& (0x00 : BitVec 8) = 0x00 := BitVec.and_zero
  simp only [ext8Rows, firstRow, hmask, hall, if_true, extItem, apply_ite some]

theorem firstRow_header (r : BitVec 3) (n : BitVec 5) (m : BitVec 8) :
    firstRow ccHdr16Rows (r ++ n ++ m) = some (.ccHdr r n m) := by
  have hr : (r ++ n ++ m).extractLsb' 13 3 = r := by
    rw [BitVec.extractLsb'_append_eq_of_le (by decide)]
    exact BitVec.extractLsb'_append_eq_left
  have hn : (r ++ n ++ m).extractLsb' 8 5 = n := by
    rw [BitVec.extractLsb'_append_eq_of_le (by decide)]
    exact BitVec.extractLsb'_append_eq_right
  have hm : (r ++ n ++ m).extractLsb' 0 8 = m := BitVec.extractLsb'_append_eq_right
  have hall : (r ++ n ++ m) &&& (0x0000 : BitVec 16) = 0x0000 := BitVec.and_zero
  simp only [ccHdr16Rows, firstRow, hall, if_true, hr, hn, hm]

/-- Every 16-bit value is made of its fields. -/
theorem header_fields (h : BitVec 16) : h.extractLsb' 13 3 ++ h.extractLsb' 8 5 ++ h.extractLsb' 0 8 = h := by
  rw [BitVec.extractLsb'_append_extractLsb'_eq_extractLsb' (show 13 = 8 + 5 from rfl),
    BitVec.extractLsb'_append_extractLsb'_eq_extractLsb' (show 8 = 0 + 8 from rfl)]
  exact BitVec.extractLsb'_eq_self

/-- The item of a signature with these fields (30_encoding R92, R93). -/
def signatureItem (c : BitVec 8) (p : BitVec 16) (u : BitVec 32) (t : BitVec 8) : Instr :=
  if c = 0xB5 ∧ p = 0x0031 ∧ u = 0x47413934 ∧ t = 3 then .seihdrMatch else .seihdrMismatch c p u t

section
variable (c : BitVec 8) (p : BitVec 16) (u : BitVec 32) (t : BitVec 8)

theorem signature_country : (c ++ p ++ u ++ t).extractLsb' 56 8 = c := by
  rw [BitVec.extractLsb'_append_eq_of_le (by decide), BitVec.extractLsb'_append_eq_of_le (by decide)]
  exact BitVec.extractLsb'_append_eq_left

theorem signature_provider : (c ++ p ++ u ++ t).extractLsb' 40 16 = p := by
  rw [BitVec.extractLsb'_append_eq_of_le (by decide), BitVec.extractLsb'_append_eq_of_le (by decide)]
  exact BitVec.extractLsb'_append_eq_right

theorem signature_userId : (c ++ p ++ u ++ t).extractLsb' 8 32 = u := by
  rw [BitVec.extractLsb'_append_eq_of_le (by decide)]
  exact BitVec.extractLsb'_append_eq_right

theorem signature_dataType : (c ++ p ++ u ++ t).extractLsb' 0 8 = t := BitVec.extractLsb'_append_eq_right

theorem signature_required_iff : c ++ p ++ u ++ t = (0xB500314741393403 : BitVec 64) ↔
    c = 0xB5 ∧ p = 0x0031 ∧ u = 0x47413934 ∧ t = 3 := by
  constructor
  · intro h
    have hc := signature_country c p u t
    have hp := signature_provider c p u t
    have hu := signature_userId c p u t
    have ht := signature_dataType c p u t
    rw [h] at hc hp hu ht
    exact ⟨hc.symm, hp.symm, hu.symm, ht.symm⟩
  · rintro ⟨rfl, rfl, rfl, rfl⟩
    decide

theorem wf_seihdrMismatch_iff :
    (Instr.seihdrMismatch c p u t).wf = true ↔ ¬ (c = 0xB5 ∧ p = 0x0031 ∧ u = 0x47413934 ∧ t = 3) := by
  simp only [Instr.wf, Bool.not_eq_true', Bool.and_eq_false_iff, beq_eq_false_iff_ne, not_and_or, or_assoc, ne_eq]

theorem signatureItem_encodes : (signatureItem c p u t).wf = true ∧
    itemValue (signatureItem c p u t) = some (.sig64, (c ++ p ++ u ++ t).toNat) := by
  unfold signatureItem
  split_ifs with h
  · obtain ⟨rfl, rfl, rfl, rfl⟩ := h
    exact ⟨rfl, rfl⟩
  · exact ⟨(wf_seihdrMismatch_iff ..).2 h, rfl⟩

theorem firstRow_signature : firstRow sig64Rows (c ++ p ++ u ++ t) = some (signatureItem c p u t) := by
  have hmask : (c ++ p ++ u ++ t) &&& (0xFFFFFFFFFFFFFFFF : BitVec 64) = c ++ p ++ u ++ t := BitVec.and_allOnes
  have hall : (c ++ p ++ u ++ t) &&& (0x0000000000000000 : BitVec 64) = 0x0000000000000000 := BitVec.and_zero
  simp only [sig64Rows, firstRow, hmask, hall, signature_required_iff, signature_country, signature_provider,
    signature_userId, signature_dataType, if_true, signatureItem, apply_ite some]

end

/-- Every 64-bit value is made of its fields. -/
theorem signature_fields (v : BitVec 64) :
    v.extractLsb' 56 8 ++ v.extractLsb' 40 16 ++ v.extractLsb' 8 32 ++ v.extractLsb' 0 8 = v := by
  rw [BitVec.extractLsb'_append_extractLsb'_eq_extractLsb' (show 56 = 40 + 16 from rfl),
    BitVec.extractLsb'_append_extractLsb'_eq_extractLsb' (show 40 = 8 + 32 from rfl),
    BitVec.extractLsb'_append_extractLsb'_eq_extractLsb' (show 8 = 0 + 8 from rfl)]
  exact BitVec.extractLsb'_eq_self

/-! ## Items as values: the entry -/

/-- A data value in the range of the special pairs, as the table masks it (30_encoding R98, R106). -/
theorem and_special_iff : ∀ d : BitVec 7, d &&& 0x70 = 0x30 ↔ 0x30 ≤ d ∧ d ≤ 0x3F := by decide

theorem and_control_iff : ∀ d : BitVec 7, d &&& 0x60 = 0 ↔ d < 0x20 := by decide

theorem and_upper_iff : ∀ d : BitVec 7, d &&& 0x40 = 0x40 ↔ 0x40 ≤ d := by decide

theorem and_middle_iff : ∀ d : BitVec 7, ¬ 0x40 ≤ d → (d &&& 0x60 = 0x20 ↔ 0x20 ≤ d) := by decide

theorem special_low : ∀ d : BitVec 7, 0x30 ≤ d ∧ d ≤ 0x3F → 0b011#3 ++ d.extractLsb' 0 4 = d := by decide

theorem special_range : ∀ k : BitVec 4, 0x30 ≤ 0b011#3 ++ k ∧ 0b011#3 ++ k ≤ 0x3F := by decide

/-- The item of a field-1 entry, by its data values in the order of the pair map (30_encoding R98, R99). -/
def pairItem (mk : BitVec 5) (p1 : BitVec 1) (d1 : BitVec 7) (p2 : BitVec 1) (d2 : BitVec 7) : Instr :=
  if d1 = 0 ∧ d2 = 0 then .pairPad mk p1 p2
  else if d1 = 0x11 ∧ 0x30 ≤ d2 ∧ d2 ≤ 0x3F then .pairSpecial mk p1 p2 (d2.extractLsb' 0 4)
  else if d1 < 0x20 then .pairControl mk p1 d1 p2 d2
  else if d2 = 0 then .pairBasic1 mk p1 d1 p2
  else if 0x40 ≤ d2 then .pairBasic2A mk p1 d1 p2 d2
  else if 0x20 ≤ d2 then .pairBasic2B mk p1 d1 p2 d2
  else .pairIllegal mk p1 d1 p2 d2

/-- The item of an entry, by its fields (30_encoding R97). -/
def entryItem (mk : BitVec 5) (v : BitVec 1) (t : BitVec 2) (p1 : BitVec 1) (d1 : BitVec 7) (p2 : BitVec 1)
    (d2 : BitVec 7) : Instr :=
  if v = 0 then .entryInvalid mk t p1 d1 p2 d2
  else if t = 1 then .entryOther1 mk p1 d1 p2 d2
  else if t = 2 then .entryOther2 mk p1 d1 p2 d2
  else if t = 3 then .entryOther3 mk p1 d1 p2 d2
  else pairItem mk p1 d1 p2 d2

section
variable (mk : BitVec 5) (v : BitVec 1) (t : BitVec 2) (p1 : BitVec 1) (d1 : BitVec 7) (p2 : BitVec 1) (d2 : BitVec 7)

theorem firstRow_entry :
    firstRow entry24Rows (entryWord mk v t p1 d1 p2 d2) = some (entryItem mk v t p1 d1 p2 d2) := by
  simp only [firstRow_entryWord, entryItem, pairItem, apply_ite some, and_special_iff, and_control_iff, and_upper_iff]
  by_cases hupper : 0x40 ≤ d2
  · simp only [if_pos hupper]
  · simp only [if_neg hupper, and_middle_iff d2 hupper]

theorem wf_pairControl_iff : (Instr.pairControl mk p1 d1 p2 d2).wf = true ↔
    d1 < 0x20 ∧ ¬ (d1 = 0 ∧ d2 = 0) ∧ ¬ (d1 = 0x11 ∧ 0x30 ≤ d2 ∧ d2 ≤ 0x3F) := by
  rw [← and_special_iff]
  simp only [Instr.wf, isPad, isSpecial, Bool.and_eq_true, decide_eq_true_eq, Bool.not_eq_true', Bool.and_eq_false_iff,
    beq_eq_false_iff_ne, not_and_or, and_assoc, ne_eq]

theorem wf_pairBasic1_iff : (Instr.pairBasic1 mk p1 d1 p2).wf = true ↔ 0x20 ≤ d1 := decide_eq_true_iff

theorem wf_pairBasic2A_iff : (Instr.pairBasic2A mk p1 d1 p2 d2).wf = true ↔ 0x20 ≤ d1 ∧ 0x40 ≤ d2 := by
  simp only [Instr.wf, Bool.and_eq_true, decide_eq_true_eq]

theorem wf_pairBasic2B_iff :
    (Instr.pairBasic2B mk p1 d1 p2 d2).wf = true ↔ 0x20 ≤ d1 ∧ 0x20 ≤ d2 ∧ d2 < 0x40 := by
  simp only [Instr.wf, Bool.and_eq_true, decide_eq_true_eq, and_assoc]

theorem wf_pairIllegal_iff :
    (Instr.pairIllegal mk p1 d1 p2 d2).wf = true ↔ 0x20 ≤ d1 ∧ 0x01 ≤ d2 ∧ d2 < 0x20 := by
  simp only [Instr.wf, Bool.and_eq_true, decide_eq_true_eq, and_assoc]

/-- The item of a pair whose first value has a table entry, by the second (30_encoding R99 regions f to h). -/
theorem pairItem_basic (h : 0x20 ≤ d1) : pairItem mk p1 d1 p2 d2 =
    if d2 = 0 then .pairBasic1 mk p1 d1 p2
    else if 0x40 ≤ d2 then .pairBasic2A mk p1 d1 p2 d2
    else if 0x20 ≤ d2 then .pairBasic2B mk p1 d1 p2 d2
    else .pairIllegal mk p1 d1 p2 d2 := by
  have hpad : ¬ (d1 = 0 ∧ d2 = 0) := by bv_omega
  have hspecial : ¬ (d1 = 0x11 ∧ 0x30 ≤ d2 ∧ d2 ≤ 0x3F) := by bv_omega
  rw [pairItem, if_neg hpad, if_neg hspecial, if_neg (BitVec.not_lt.2 h)]

theorem pairItem_special (k : BitVec 4) : pairItem mk p1 0x11 p2 (0b011#3 ++ k) = .pairSpecial mk p1 p2 k := by
  have hpad : ¬ ((0x11 : BitVec 7) = 0 ∧ 0b011#3 ++ k = 0) := fun h => absurd h.1 (by decide)
  have hlow : (0b011#3 ++ k).extractLsb' 0 4 = k := BitVec.extractLsb'_append_eq_right
  rw [pairItem, if_neg hpad, if_pos ⟨rfl, special_range k⟩, hlow]

/-- A pair's item holds values that its own row selects, and they make up the pair again. -/
theorem pairItem_encodes : (pairItem mk p1 d1 p2 d2).wf = true ∧
    itemValue (pairItem mk p1 d1 p2 d2) = some (.entry24, (entryWord mk 1 0 p1 d1 p2 d2).toNat) := by
  unfold pairItem
  split_ifs with hpad hspecial hcontrol hone hupper hmiddle
  · obtain ⟨rfl, rfl⟩ := hpad
    exact ⟨rfl, rfl⟩
  · obtain ⟨rfl, hrange⟩ := hspecial
    refine ⟨rfl, ?_⟩
    rw [itemValue, special_low d2 hrange]
  · exact ⟨(wf_pairControl_iff ..).2 ⟨hcontrol, hpad, hspecial⟩, rfl⟩
  · subst hone
    exact ⟨(wf_pairBasic1_iff ..).2 (BitVec.not_lt.1 hcontrol), rfl⟩
  · exact ⟨(wf_pairBasic2A_iff ..).2 ⟨BitVec.not_lt.1 hcontrol, hupper⟩, rfl⟩
  · exact ⟨(wf_pairBasic2B_iff ..).2 ⟨BitVec.not_lt.1 hcontrol, hmiddle, BitVec.not_le.1 hupper⟩, rfl⟩
  · exact ⟨(wf_pairIllegal_iff ..).2 ⟨BitVec.not_lt.1 hcontrol, by bv_omega, BitVec.not_le.1 hmiddle⟩, rfl⟩

theorem entryItem_encodes : (entryItem mk v t p1 d1 p2 d2).wf = true ∧
    itemValue (entryItem mk v t p1 d1 p2 d2) = some (.entry24, (entryWord mk v t p1 d1 p2 d2).toNat) := by
  unfold entryItem
  split_ifs with hinvalid h1 h2 h3
  · subst hinvalid
    exact ⟨rfl, rfl⟩
  · obtain ⟨rfl, rfl⟩ : v = 1 ∧ t = 1 := ⟨by bv_omega, h1⟩
    exact ⟨rfl, rfl⟩
  · obtain ⟨rfl, rfl⟩ : v = 1 ∧ t = 2 := ⟨by bv_omega, h2⟩
    exact ⟨rfl, rfl⟩
  · obtain ⟨rfl, rfl⟩ : v = 1 ∧ t = 3 := ⟨by bv_omega, h3⟩
    exact ⟨rfl, rfl⟩
  · obtain ⟨rfl, rfl⟩ : v = 1 ∧ t = 0 := ⟨by bv_omega, by bv_omega⟩
    exact pairItem_encodes mk p1 d1 p2 d2

end

/-! ## Items of any format -/

/-- `i` is the item that the value `v` of format `f` makes, by the fields of the value. -/
inductive ItemOf : ItemFormat → Nat → Instr → Prop
  | ext (b : Byte) : ItemOf .ext8 b.toNat (extItem b)
  | signature (c : BitVec 8) (p : BitVec 16) (u : BitVec 32) (t : BitVec 8) :
      ItemOf .sig64 (c ++ p ++ u ++ t).toNat (signatureItem c p u t)
  | header (r : BitVec 3) (n : BitVec 5) (m : BitVec 8) : ItemOf .ccHdr16 (r ++ n ++ m).toNat (.ccHdr r n m)
  | entry (mk : BitVec 5) (v : BitVec 1) (t : BitVec 2) (p1 : BitVec 1) (d1 : BitVec 7) (p2 : BitVec 1)
      (d2 : BitVec 7) : ItemOf .entry24 (entryWord mk v t p1 d1 p2 d2).toNat (entryItem mk v t p1 d1 p2 d2)

section
variable {f : ItemFormat} {v : Nat} {i : Instr}

theorem ItemOf.lt (h : ItemOf f v i) : v < 256 ^ f.bytes := by
  cases h with
  | ext | signature | header | entry => exact BitVec.isLt _

theorem ItemOf.decodes (h : ItemOf f v i) : decodeValue f v = .ok i := by
  cases h with
  | ext b =>
    rw [decodeValue, BitVec.ofNat_toNat, BitVec.setWidth_eq, firstRow_ext]
    rfl
  | signature c p u t =>
    rw [decodeValue, BitVec.ofNat_toNat, BitVec.setWidth_eq, firstRow_signature]
    rfl
  | header r n m =>
    rw [decodeValue, BitVec.ofNat_toNat, BitVec.setWidth_eq, firstRow_header]
    rfl
  | entry mk v t p1 d1 p2 d2 =>
    rw [decodeValue, BitVec.ofNat_toNat, BitVec.setWidth_eq, firstRow_entry]
    rfl

theorem ItemOf.encodes (h : ItemOf f v i) : i.wf = true ∧ itemValue i = some (f, v) := by
  cases h with
  | ext b => exact extItem_encodes b
  | signature c p u t => exact signatureItem_encodes c p u t
  | header => exact ⟨rfl, rfl⟩
  | entry mk v t p1 d1 p2 d2 => exact entryItem_encodes mk v t p1 d1 p2 d2

/-- Every value of a format makes an item (30_encoding R106). -/
theorem exists_itemOf (h : v < 256 ^ f.bytes) : ∃ i, ItemOf f v i := by
  cases f with
  | ext8 =>
    obtain ⟨b, rfl⟩ : ∃ b : BitVec 8, v = b.toNat := ⟨BitVec.ofNatLT v h, rfl⟩
    exact ⟨_, .ext b⟩
  | sig64 =>
    obtain ⟨e, rfl⟩ : ∃ e : BitVec 64, v = e.toNat := ⟨BitVec.ofNatLT v h, rfl⟩
    rw [← signature_fields e]
    exact ⟨_, .signature _ _ _ _⟩
  | ccHdr16 =>
    obtain ⟨e, rfl⟩ : ∃ e : BitVec 16, v = e.toNat := ⟨BitVec.ofNatLT v h, rfl⟩
    rw [← header_fields e]
    exact ⟨_, .header _ _ _⟩
  | entry24 =>
    obtain ⟨e, rfl⟩ : ∃ e : BitVec 24, v = e.toNat := ⟨BitVec.ofNatLT v h, rfl⟩
    rw [← entryWord_fields e]
    exact ⟨_, .entry _ _ _ _ _ _ _⟩

/-- A well-formed item is the one that its value makes: its fields are at values that its own row selects. -/
theorem itemOf_of_wf (hwf : i.wf = true) (h : itemValue i = some (f, v)) : ItemOf f v i := by
  cases i <;> simp only [itemValue, Option.some.injEq, Prod.mk.injEq, reduceCtorEq] at h <;> obtain ⟨rfl, rfl⟩ := h
  case extCont => exact .ext 0xFF
  case extLast b =>
    have hitem : extItem b = .extLast b := if_neg (bne_iff_ne.1 hwf)
    rw [← hitem]
    exact .ext b
  case seihdrMatch => exact .signature 0xB5 0x0031 0x47413934 3
  case seihdrMismatch c p u t =>
    have hitem : signatureItem c p u t = .seihdrMismatch c p u t := if_neg ((wf_seihdrMismatch_iff c p u t).1 hwf)
    rw [← hitem]
    exact .signature c p u t
  case ccHdr r n m => exact .header r n m
  case entryInvalid mk t p1 d1 p2 d2 => exact .entry mk 0 t p1 d1 p2 d2
  case entryOther1 mk p1 d1 p2 d2 => exact .entry mk 1 1 p1 d1 p2 d2
  case entryOther2 mk p1 d1 p2 d2 => exact .entry mk 1 2 p1 d1 p2 d2
  case entryOther3 mk p1 d1 p2 d2 => exact .entry mk 1 3 p1 d1 p2 d2
  case pairPad mk p1 p2 => exact .entry mk 1 0 p1 0 p2 0
  case pairSpecial mk p1 p2 k =>
    rw [← pairItem_special mk p1 p2 k]
    exact .entry mk 1 0 p1 0x11 p2 (0b011#3 ++ k)
  case pairControl mk p1 d1 p2 d2 =>
    obtain ⟨hcontrol, hpad, hspecial⟩ := (wf_pairControl_iff ..).1 hwf
    have hitem : pairItem mk p1 d1 p2 d2 = .pairControl mk p1 d1 p2 d2 := by
      rw [pairItem, if_neg hpad, if_neg hspecial, if_pos hcontrol]
    rw [← hitem]
    exact .entry mk 1 0 p1 d1 p2 d2
  case pairBasic1 mk p1 d1 p2 =>
    have hitem : pairItem mk p1 d1 p2 0 = .pairBasic1 mk p1 d1 p2 :=
      pairItem_basic _ _ _ _ _ ((wf_pairBasic1_iff ..).1 hwf)
    rw [← hitem]
    exact .entry mk 1 0 p1 d1 p2 0
  case pairBasic2A mk p1 d1 p2 d2 =>
    obtain ⟨hd1, hupper⟩ := (wf_pairBasic2A_iff ..).1 hwf
    have hitem : pairItem mk p1 d1 p2 d2 = .pairBasic2A mk p1 d1 p2 d2 := by
      rw [pairItem_basic _ _ _ _ _ hd1, if_neg (by bv_omega), if_pos hupper]
    rw [← hitem]
    exact .entry mk 1 0 p1 d1 p2 d2
  case pairBasic2B mk p1 d1 p2 d2 =>
    obtain ⟨hd1, hmiddle, hupper⟩ := (wf_pairBasic2B_iff ..).1 hwf
    have hitem : pairItem mk p1 d1 p2 d2 = .pairBasic2B mk p1 d1 p2 d2 := by
      rw [pairItem_basic _ _ _ _ _ hd1, if_neg (by bv_omega), if_neg (BitVec.not_le.2 hupper), if_pos hmiddle]
    rw [← hitem]
    exact .entry mk 1 0 p1 d1 p2 d2
  case pairIllegal mk p1 d1 p2 d2 =>
    obtain ⟨hd1, hone, hmiddle⟩ := (wf_pairIllegal_iff ..).1 hwf
    have hitem : pairItem mk p1 d1 p2 d2 = .pairIllegal mk p1 d1 p2 d2 := by
      rw [pairItem_basic _ _ _ _ _ hd1, if_neg (by bv_omega), if_neg (by bv_omega), if_neg (BitVec.not_le.2 hmiddle)]
    rw [← hitem]
    exact .entry mk 1 0 p1 d1 p2 d2

/-! ## Bytes of any format -/

/-- With enough bytes the decoder gives the item of the value read, and the bytes that follow. -/
theorem ItemOf.decode_of_le {bs : Source} (h : ItemOf f (memRead bs 0 f.bytes) i) (hlength : f.bytes ≤ bs.length) :
    decode f bs = .ok (i, bs.drop f.bytes) := by
  simp only [decode, if_neg (Nat.not_lt.2 hlength), h.decodes]

/-- What the decoder gives was read from all the bytes of its format. -/
theorem decode_eq_ok {bs rest : Source} (h : decode f bs = .ok (i, rest)) :
    f.bytes ≤ bs.length ∧ rest = bs.drop f.bytes := by
  unfold decode at h
  split at h
  · cases h
  · split at h
    · cases h
      exact ⟨Nat.not_lt.1 ‹_›, rfl⟩
    · cases h

end

/-- Settles O1: the bytes of an item's value are read back as that value, which makes the item. -/
theorem decodeEncodeAgree : Obligations.DecodeEncodeAgree := by
  intro i f bs rest hwf h
  obtain ⟨⟨f', v⟩, hvalue, hbytes⟩ := Option.map_eq_some_iff.1 h
  obtain ⟨rfl, rfl⟩ := Prod.mk.inj hbytes
  have hitem : ItemOf f' v i := itemOf_of_wf hwf hvalue
  have hread : memRead (bytesOf f'.bytes v ++ rest) 0 f'.bytes = v := by
    rw [memRead_append_left _ _ _ _ (by simp), memRead_bytesOf, Nat.mod_eq_of_lt hitem.lt]
  rw [ItemOf.decode_of_le (hread.symm ▸ hitem) (by simp), List.drop_left' (bytesOf_length _ _)]

/-- Settles O2: the value read is the item's own, and its bytes are those it was read from. -/
theorem encodeDecodeAgree : Obligations.EncodeDecodeAgree := by
  intro f bs rest i h
  obtain ⟨hlength, rfl⟩ := decode_eq_ok h
  obtain ⟨j, hitem⟩ := exists_itemOf (memRead_lt bs 0 f.bytes)
  obtain rfl : i = j := Except.ok.inj ((decodeValue_of_decode h).symm.trans hitem.decodes)
  obtain ⟨hwf, hvalue⟩ := hitem.encodes
  refine ⟨hwf, bs.take f.bytes, (List.take_append_drop _ _).symm, ?_⟩
  rw [encode, hvalue, ← bytesOf_memRead bs f.bytes hlength]
  rfl

/-- Settles O3: the value read from enough bytes makes an item, and too few are refused before any row is looked at. -/
theorem everyItemValueDecodes : Obligations.EveryItemValueDecodes := by
  intro f bs
  obtain ⟨i, hitem⟩ := exists_itemOf (memRead_lt bs 0 f.bytes)
  exact ⟨fun h => ⟨i, hitem.decode_of_le h⟩, fun h => if_pos h⟩

theorem entryValid_eq_ofBool (e : BitVec 24) : entryValid e = BitVec.ofBool (e.getLsbD 18) := by
  apply BitVec.eq_of_getLsbD_eq
  intro i hi
  obtain rfl : i = 0 := by omega
  simp [entryValid]

/-- Settles O4: an entry is the word of its fields, whose first row `entryItem` names. -/
theorem entryTableMatchesPairMap : Obligations.EntryTableMatchesPairMap := by
  intro e
  have hvalid : e.getLsbD 18 = false ↔ entryValid e = 0 := by
    rw [entryValid_eq_ofBool]
    cases e.getLsbD 18 <;> decide
  calc firstRow entry24Rows e
    _ = firstRow entry24Rows (entryWord (entryMk e) (entryValid e) (entryType e) (entryP1 e) (entryD1 e) (entryP2 e)
          (entryD2 e)) := by rw [entryWord_fields]
    _ = some (entryItem (entryMk e) (entryValid e) (entryType e) (entryP1 e) (entryD1 e) (entryP2 e) (entryD2 e)) :=
        firstRow_entry ..
    _ = _ := by
      simp only [entryItem, ← hvalid]
      rfl

/-- Settles O5: the decoder evaluates on each word. -/
theorem specWordsDecode : Obligations.SpecWordsDecode := by
  unfold Obligations.SpecWordsDecode
  decide

end Sys2Proof
end

section
/-! PROOFS. Single stream items: a byte of an extended value (43_sei_header R191 to R194), the caption header
(44_caption_decoder R213, R214) and the pair that faults (30_encoding R102). -/

namespace Sys2Proof.Machine

variable {s : State}

/-! ## A byte of a type or size field -/

theorem bytesFit_one_of_lt (h : s.byr.pos < s.byr.src.length) : bytesFit 1 s = true := (bytesFit_iff 1).2 h

theorem addToField_seiType (hp : s.phase = .seiType) (b : Byte) :
    addToField b s = s.setHdr { s.hdr with b := b, payloadType := s.hdr.payloadType + b.toNat } := by
  simp only [addToField, hp]

theorem addToField_seiSize (hp : s.phase = .seiSize) (b : Byte) :
    addToField b s = s.setHdr { s.hdr with b := b, payloadSize := s.hdr.payloadSize + b.toNat } := by
  simp only [addToField, hp]

/-- A byte that a field goes on after is added to it. -/
theorem exec_extCont (hp : s.phase = .seiType ∨ s.phase = .seiSize) (h : s.byr.pos < s.byr.src.length) :
    exec .extCont s = .next (addToField 0xFF (s.moveByte 1)) := by
  rw [exec, execExtCont, inField, if_pos hp, takeBytes_fits (bytesFit_one_of_lt h)]

/-- A byte that ends a field is added to it, and the field is tested. -/
theorem exec_extLast (hp : s.phase = .seiType ∨ s.phase = .seiSize) (h : s.byr.pos < s.byr.src.length) (b : Byte) :
    exec (.extLast b) s = .next (endField (addToField b (s.moveByte 1))) := by
  rw [exec, execExtLast, inField, if_pos hp, takeBytes_fits (bytesFit_one_of_lt h)]

/-- Settles O34: the field that the phase reads takes the byte. -/
theorem extContAccumulates : Obligations.ExtContAccumulates := by
  intro s h
  refine ⟨fun hp => ?_, fun hp => ?_⟩
  · rw [exec_extCont (.inl hp) h, addToField_seiType (s := s.moveByte 1) hp]
    rfl
  · rw [exec_extCont (.inr hp) h, addToField_seiSize (s := s.moveByte 1) hp]
    rfl

/-- Settles O35: the sum decides how the field ends. -/
theorem extLastEndsField : Obligations.ExtLastEndsField := by
  intro b s _ h
  refine ⟨fun hp => ?_, fun hp => ?_⟩
  · have hadd := addToField_seiType (s := s.moveByte 1) hp b
    have hphase : (addToField b (s.moveByte 1)).phase = .seiType := (addToField_phase _ _).trans hp
    have hsum : (addToField b (s.moveByte 1)).hdr.payloadType = s.hdr.payloadType + b.toNat := by rw [hadd]; rfl
    rw [exec_extLast (.inl hp) h, endField_seiType hphase, hsum, hadd]
    refine ⟨fun hfour => ?_, fun hother => ?_⟩
    · rw [if_neg (not_not.2 hfour), ← hfour]
      rfl
    · rw [if_pos hother]
      exact ⟨_, rfl, rfl⟩
  · have hadd := addToField_seiSize (s := s.moveByte 1) hp b
    have hphase : (addToField b (s.moveByte 1)).phase = .seiSize := (addToField_phase _ _).trans hp
    have hsum : (addToField b (s.moveByte 1)).hdr.payloadSize = s.hdr.payloadSize + b.toNat := by rw [hadd]; rfl
    rw [exec_extLast (.inr hp) h, endField_seiSize hphase, hsum, hadd]
    refine ⟨fun hpositive => ?_, fun hzero => ?_⟩
    · rw [if_neg (Nat.not_le.2 hpositive)]
      rfl
    · rw [if_pos (Nat.le_zero.2 hzero)]
      exact ⟨_, rfl, rfl⟩

/-! ## The caption header -/

theorem entryOrFinal_zero (n : BitVec 5) : entryOrFinal 0 n.toNat = if n = 0 then .ccFinal else .ccEntry := by
  unfold entryOrFinal
  by_cases hn : n = 0
  · subst hn
    rfl
  · have hpos : 0 < n.toNat := by bv_omega
    rw [if_pos hpos, if_neg hn]

/-- Settles O43: the 16 bits of the header are consumed and the loop starts. -/
theorem ccHdrStartsLoop : Obligations.CcHdrStartsLoop := by
  intro r n m s hp h
  rw [exec, execCcHdr, inPhase_eq hp, takeBits_fits headerWidths s h, startEntries, entryOrFinal_zero]
  rfl

/-! ## The pair that faults -/

theorem lookupBasic_dataByte {d : BitVec 7} (h : 0x20 ≤ d) :
    lookupBasic (dataByte d) = some (basicTable (basicIndex (dataByte d))) := by
  have hrange : ∀ d : BitVec 7, 0x20 ≤ d → 0x20 ≤ dataByte d ∧ dataByte d ≤ 0x7F := by decide
  rw [lookupBasic, if_pos (hrange d h)]

theorem lookupBasic_dataByte_low {d : BitVec 7} (h : d < 0x20) : lookupBasic (dataByte d) = none := by
  have hlow : ∀ d : BitVec 7, d < 0x20 → ¬ 0x20 ≤ dataByte d := by decide
  rw [lookupBasic, if_neg fun hrange => hlow d h hrange.1]

/-- A second value with no table entry faults, after the first character was collected (30_encoding R102). -/
theorem basicPair_illegal {d1 d2 : BitVec 7} (h1 : 0x20 ≤ d1) (h2 : 0x01 ≤ d2) (h2' : d2 < 0x20) (s : State)
    (k : State → State) :
    basicPair d1 d2 s k = raise .tableIndexRange (appendChar (basicTable (basicIndex (dataByte d1))) s) := by
  have hne : d2 ≠ 0 := by bv_omega
  simp only [basicPair, getBasicChar, lookupBasic_dataByte h1, lookupBasic_dataByte_low h2', if_neg hne]

/-- Settles O48: the fault discards the first character with the rest of `ACC`. -/
theorem illegalPairAborts : Obligations.IllegalPairAborts := by
  intro mk p1 d1 p2 d2 s hwf hp h
  obtain ⟨h1, h2, h2'⟩ := (wf_pairIllegal_iff ..).1 hwf
  rw [exec, execPairIllegal, inPhase_eq hp, field1Entry, takeBits_fits field1Widths s h, basicPair_illegal h1 h2 h2']
  refine ⟨_, rfl, ?_⟩
  rw [raise_caption (.inr (.inl ?_))]
  · rfl
  · exact hp

end Sys2Proof.Machine
end

section
/-! PROOFS. `CC_PARSE` reads no ignored bit (30_encoding R101): on two buffers that differ in ignored bits only, the runs
are the same but for the source that the Bit Reader is bound to. -/

namespace Sys2Proof

/-! ## Bits of a source by byte -/

theorem srcBit_of_byte (src : Source) (j : Nat) {r : Nat} (hr : r < 8) :
    srcBit src (8 * j + r) = (srcByte src j).getLsbD (7 - r) := by
  rw [srcBit, show (8 * j + r) / 8 = j by omega, show (8 * j + r) % 8 = r by omega]

theorem srcBits_congr {a b : Source} {p n : Nat} (h : ∀ k < n, srcBit a (p + k) = srcBit b (p + k)) :
    srcBits a p n = srcBits b p n := by
  induction n with
  | zero => rfl
  | succ n ih => rw [srcBits, srcBits, ih fun k hk => h k (by omega), h n (by omega)]

end Sys2Proof

namespace Sys2Proof.Machine

/-! ## What the two buffers have in common -/

section
variable {a b : Source}

/-- The bytes agree under the mask at every position: past the end both read 0. -/
theorem SameReadBits.byte (h : SameReadBits a b) (j : Nat) :
    srcByte a j &&& readMask a j = srcByte b j &&& readMask a j := by
  obtain ⟨hlength, hbytes⟩ := h
  by_cases hj : j < a.length
  · exact hbytes j hj
  · have ha : srcByte a j = 0 := List.getD_eq_default _ _ (Nat.not_lt.1 hj)
    have hb : srcByte b j = 0 := List.getD_eq_default _ _ (hlength ▸ Nat.not_lt.1 hj)
    rw [ha, hb]

/-- A bit of byte `j` that is not ignored is the same in both. -/
theorem SameReadBits.bit (h : SameReadBits a b) {j r : Nat} (hr : r < 8) (hread : (readMask a j).getLsbD (7 - r) = true) :
    srcBit a (8 * j + r) = srcBit b (8 * j + r) := by
  have hbit := congrArg (BitVec.getLsbD · (7 - r)) (h.byte j)
  simpa only [BitVec.getLsbD_and, hread, Bool.and_true, ← srcBit_of_byte _ _ hr] using hbit

/-- So are bits of a byte none of which is ignored. -/
theorem SameReadBits.bits (h : SameReadBits a b) {j r n : Nat} (hr : r + n ≤ 8)
    (hread : ∀ k < n, (readMask a j).getLsbD (7 - (r + k)) = true) :
    srcBits a (8 * j + r) n = srcBits b (8 * j + r) n :=
  srcBits_congr fun k hk => by
    rw [Nat.add_assoc]
    exact h.bit (by omega) (hread k hk)

end

/-- The fields of the entry at bit `p` that `CC_PARSE` uses, read the same way from both sources: `ccValid`; of a valid
entry `ccType`; of a field-1 entry both data values. -/
structure SameEntry (a b : Source) (p : Nat) : Prop where
  valid : srcBit a (p + 5) = srcBit b (p + 5)
  type : srcBit a (p + 5) = true → srcBits a (p + 6) 2 = srcBits b (p + 6) 2
  data1 : srcBit a (p + 5) = true → srcBits a (p + 6) 2 = 0 → srcBits a (p + 9) 7 = srcBits b (p + 9) 7
  data2 : srcBit a (p + 5) = true → srcBits a (p + 6) 2 = 0 → srcBits a (p + 17) 7 = srcBits b (p + 17) 7

theorem SameReadBits.count {a b : Source} (h : SameReadBits a b) : srcBits a 3 5 = srcBits b 3 5 :=
  h.bits (j := 0) (r := 3) (by decide) (show ∀ k < 5, (0x1F : Byte).getLsbD (7 - (3 + k)) = true by decide)

theorem readMask_head (src : Source) (i : Nat) :
    readMask src (2 + 3 * i) = if (srcByte src (2 + 3 * i)).getLsbD 2 = true then 0x07 else 0x04 := by
  have hentry : (2 + 3 * i - 2) / 3 = i := by omega
  have hmod : (2 + 3 * i) % 3 = 2 := by omega
  have hbit : ∀ x : Byte, (if x &&& 0x04 = 0 then 0x04 else 0x07 : Byte) = if x.getLsbD 2 = true then 0x07 else 0x04 := by
    decide
  rw [readMask, if_neg (by omega), if_neg (by omega), hentry, if_pos hmod]
  exact hbit _

theorem readMask_data (src : Source) (i : Nat) {j : Nat} (hj : j = 2 + 3 * i + 1 ∨ j = 2 + 3 * i + 2)
    (hfield1 : srcByte src (2 + 3 * i) &&& 0x07 = 0x04) : readMask src j = 0x7F := by
  have hentry : (j - 2) / 3 = i := by omega
  rw [readMask, if_neg (by omega), if_neg (by omega), hentry, if_neg (by omega)]
  exact if_pos hfield1

/-- A byte whose bits for `ccValid` and `ccType` are those of a field-1 entry (30_encoding R96). -/
theorem field1_head : ∀ x : Byte, x.getLsbD 2 = true → x.getLsbD 1 = false → x.getLsbD 0 = false →
    x &&& 0x07 = 0x04 := by decide

/-- Bit 0 of entry `i` is bit 0 of byte `2 + 3·i`, so its fields lie in three bytes (30_encoding R95, R96). -/
theorem SameReadBits.entry {a b : Source} (h : SameReadBits a b) (i : Nat) : SameEntry a b (16 + 24 * i) := by
  have hhead : 16 + 24 * i = 8 * (2 + 3 * i) := by omega
  have hdata1 : 16 + 24 * i + 9 = 8 * (2 + 3 * i + 1) + 1 := by omega
  have hdata2 : 16 + 24 * i + 17 = 8 * (2 + 3 * i + 2) + 1 := by omega
  have hmask := readMask_head a i
  have field1 : srcBit a (16 + 24 * i + 5) = true → srcBits a (16 + 24 * i + 6) 2 = 0 →
      srcByte a (2 + 3 * i) &&& 0x07 = 0x04 := by
    intro hvalid htype
    have hbits : srcBit a (16 + 24 * i + 6) = false ∧ srcBit a (16 + 24 * i + 7) = false := by
      simpa [srcBits, Nat.add_assoc] using htype
    rw [hhead, srcBit_of_byte _ _ (by decide)] at hvalid
    rw [hhead, srcBit_of_byte _ _ (by decide), srcBit_of_byte _ _ (by decide)] at hbits
    exact field1_head _ hvalid hbits.1 hbits.2
  have data : ∀ k < 7, (0x7F : Byte).getLsbD (7 - (1 + k)) = true := by decide
  constructor
  case valid =>
    rw [hhead]
    refine h.bit (by decide) ?_
    rw [hmask]
    split <;> rfl
  case type =>
    intro hvalid
    rw [hhead] at hvalid ⊢
    rw [srcBit_of_byte _ _ (by decide)] at hvalid
    refine h.bits (by decide) ?_
    rw [hmask, if_pos hvalid]
    decide
  case data1 =>
    intro hvalid htype
    rw [hdata1]
    exact h.bits (by decide) (readMask_data a i (.inl rfl) (field1 hvalid htype) ▸ data)
  case data2 =>
    intro hvalid htype
    rw [hdata2]
    exact h.bits (by decide) (readMask_data a i (.inr rfl) (field1 hvalid htype) ▸ data)

/-! ## The run on the other source -/

/-- The state with the Bit Reader bound to `b`, the cursor kept. -/
def State.onSource (s : State) (b : Source) : State := { s with br := ⟨b, s.br.pos⟩ }

/-- Where the Bit Reader stands at `r`, `k` does the same on the source `b`. -/
def SameOn (b : Source) (r : BitReader) (k : State → State) : Prop :=
  ∀ s : State, s.br = r → k (s.onSource b) = (k s).onSource b

section
variable {a b : Source} {p : Nat}

theorem raise_onSource (c : Cause) (s : State) : raise c (s.onSource b) = (raise c s).onSource b := by
  rcases s with ⟨_, _, _, _, _, _, _, phase, _, _⟩
  cases phase <;> rfl

theorem skipBits_sameOn {n : Nat} {k : State → State} (hlength : a.length = b.length) (hk : SameOn b ⟨a, p + n⟩ k) :
    SameOn b ⟨a, p⟩ fun s => skipBits n s k := by
  intro s hs
  have hfit : bitsFit n (s.onSource b) = bitsFit n s := by
    simp only [bitsFit, State.onSource, hs, BitReader.len, hlength]
  beta_reduce
  cases hn : bitsFit n s with
  | true =>
    rw [skipBits_fits hn, skipBits_fits (hfit.trans hn)]
    exact hk (s.moveBit n) (by rw [State.moveBit_br, hs])
  | false =>
    rw [skipBits_underrun hn, skipBits_underrun (hfit.trans hn)]
    exact raise_onSource _ s

theorem readBits_sameOn {n : Nat} {k : Nat → State → State} (hlength : a.length = b.length)
    (hbits : srcBits a p n = srcBits b p n) (hk : SameOn b ⟨a, p + n⟩ (k (srcBits a p n))) :
    SameOn b ⟨a, p⟩ fun s => readBits n s k := by
  intro s hs
  have hread : srcBits (s.onSource b).br.src (s.onSource b).br.pos n = srcBits a p n := by rw [State.onSource, hs, hbits]
  have hread' : srcBits s.br.src s.br.pos n = srcBits a p n := by rw [hs]
  beta_reduce
  rw [readBits_eq, readBits_eq, hread, hread']
  exact skipBits_sameOn hlength hk s hs

theorem readBit_sameOn {k : Bool → State → State} (hlength : a.length = b.length)
    (hbit : srcBit a p = srcBit b p) (hk : SameOn b ⟨a, p + 1⟩ (k (srcBit a p))) :
    SameOn b ⟨a, p⟩ fun s => readBit s k := by
  intro s hs
  have hread : srcBit (s.onSource b).br.src (s.onSource b).br.pos = srcBit a p := by rw [State.onSource, hs, hbit]
  have hread' : srcBit s.br.src s.br.pos = srcBit a p := by rw [hs]
  beta_reduce
  rw [readBit_eq, readBit_eq, hread, hread']
  exact skipBits_sameOn hlength hk s hs

/-- Working registers may be written before what does the same on both, with values that the source has no part in. -/
theorem SameOn.setW {r : BitReader} {k : State → State} {w : State → CaptionRegs} (hk : SameOn b r k)
    (hw : ∀ s, w (s.onSource b) = w s) : SameOn b r fun s => k (s.setW (w s)) := by
  intro s hs
  beta_reduce
  rw [hw]
  exact hk (s.setW (w s)) hs

theorem flush_onSource (s : State) : flush (s.onSource b) = (flush s).onSource b := by
  by_cases h : s.acc = []
  · rw [flush_empty h, flush_empty (s := s.onSource b) h]
  · rw [flush_text h, flush_text (s := s.onSource b) h]
    rfl

theorem finishCaption_onSource (s : State) : finishCaption (s.onSource b) = (finishCaption s).onSource b := by
  rw [finishCaption, flush_onSource]
  rfl

theorem controlPair_onSource (d1 d2 : BitVec 7) (s : State) :
    controlPair d1 d2 (s.onSource b) = (controlPair d1 d2 s).onSource b := by
  rw [controlPair, flush_onSource]
  rfl

theorem getBasicChar_sameOn {r : BitReader} {k : CodePoint → State → State} (hk : ∀ c, SameOn b r (k c)) (x : Byte) :
    SameOn b r fun s => getBasicChar x s k := by
  intro s hs
  unfold getBasicChar
  cases lookupBasic x with
  | some c => exact hk c s hs
  | none => exact raise_onSource _ s

theorem SameOn.appendChar {r : BitReader} {k : State → State} (hk : SameOn b r k) (c : CodePoint) :
    SameOn b r fun s => k (appendChar c s) :=
  fun s hs => hk (Machine.appendChar c s) hs

theorem basicPair_sameOn {r : BitReader} {k : State → State} (hk : SameOn b r k) (d1 d2 : BitVec 7) :
    SameOn b r fun s => basicPair d1 d2 s k := by
  refine getBasicChar_sameOn (fun c => ?_) _
  by_cases hone : d2 = 0
  · simpa only [if_pos hone] using hk.appendChar c
  · simp only [if_neg hone]
    exact (getBasicChar_sameOn (fun c => hk.appendChar c) _).appendChar c

theorem interpretPair_sameOn {r : BitReader} {k : State → State} (hk : SameOn b r k) (d1 d2 : BitVec 7) :
    SameOn b r fun s => interpretPair d1 d2 s k := by
  unfold interpretPair
  split_ifs with hpad hspecial hcontrol
  · exact hk
  · exact hk.appendChar _
  · intro s hs
    beta_reduce
    rw [controlPair_onSource]
    exact hk _ (by rw [controlPair_eq]; exact hs)
  · exact basicPair_sameOn hk d1 d2

/-- An entry is read without its ignored bits. -/
theorem parseEntry_sameOn {k : State → State} (hlength : a.length = b.length) (h : SameEntry a b p)
    (hk : SameOn b ⟨a, p + 24⟩ k) : SameOn b ⟨a, p⟩ fun s => parseEntry s k := by
  unfold parseEntry
  refine skipBits_sameOn hlength (readBit_sameOn hlength h.valid ?_)
  simp only [State.setW_w, validFlag_bit]
  cases hvalid : srcBit a (p + 5) with
  | false =>
    exact SameOn.setW (k := (skipBits 18 · k)) (skipBits_sameOn (p := p + 6) hlength hk) fun _ => rfl
  | true =>
    simp only [Bool.not_true, Bool.false_eq_true, if_false]
    refine SameOn.setW (k := (readBits 2 · _)) (readBits_sameOn hlength (h.type hvalid) ?_) fun _ => rfl
    simp only [otherField_ofNat (srcBits_lt _ _ 2), decide_eq_true_eq]
    by_cases htype : srcBits a (p + 6) 2 = 0
    · simp only [htype, ne_eq, not_true_eq_false, if_false]
      refine SameOn.setW (k := (skipBits 1 · _)) (skipBits_sameOn hlength ?_) fun _ => rfl
      refine readBits_sameOn hlength (h.data1 hvalid htype) ?_
      refine SameOn.setW (k := (skipBits 1 · _)) (skipBits_sameOn hlength ?_) fun _ => rfl
      refine readBits_sameOn hlength (h.data2 hvalid htype) ?_
      exact SameOn.setW (k := (interpretPair _ _ · k)) (interpretPair_sameOn hk _ _) fun _ => rfl
    · simp only [ne_eq, htype, not_false_eq_true, if_true]
      exact SameOn.setW (k := (skipBits 16 · k)) (skipBits_sameOn (p := p + 8) hlength hk) fun _ => rfl

theorem nextEntry_sameOn {r : BitReader} {k : State → State} (hk : SameOn b r k) :
    SameOn b r fun s => k (nextEntry s) :=
  fun s hs => hk (nextEntry s) hs

theorem parseEntries_sameOn (h : SameReadBits a b) (n i : Nat) : SameOn b ⟨a, 16 + 24 * i⟩ (parseEntries n) := by
  induction n generalizing i with
  | zero => exact fun s _ => finishCaption_onSource s
  | succ n ih => exact parseEntry_sameOn h.1 (h.entry i) (nextEntry_sameOn (ih (i + 1)))

theorem parseCaption_sameOn (h : SameReadBits a b) : SameOn b ⟨a, 0⟩ parseCaption := by
  refine skipBits_sameOn h.1 (readBits_sameOn h.1 ?_ (skipBits_sameOn h.1 ?_))
  · exact h.count
  · exact fun s hs => parseEntries_sameOn h _ 0 (startEntries _ s) hs

end

/-- A transaction of `CC_PARSE` with a positive size that is not refused runs to its end. -/
theorem exec_ccParse_next {buffer : Source} {size : SizeWord} {ts : Timestamp} {s t : State} (hs : s.phase = .idle)
    (hsize : 0 < size.toInt) (h : exec (.ccParse buffer size ts) s = .next t) :
    t = parseCaption (beginCaption buffer size ts s) := by
  have hpositive : sizeNotPositive size = false := decide_eq_false (Int.not_le.2 hsize)
  simp only [exec, execCcParse, whenIdle_idle hs, hpositive, Bool.false_eq_true, if_false] at h
  split at h
  · cases h
    rfl
  · cases h

/-- Settles O59: the run on the second buffer is the run on the first but for the source. -/
theorem ccParseIgnoresSkippedBits : Obligations.CcParseIgnoresSkippedBits := by
  intro a b z ts s t u hsame hs hz ht hu
  obtain rfl := exec_ccParse_next hs hz ht
  obtain rfl := exec_ccParse_next hs hz hu
  have hrun : parseCaption (beginCaption b z ts s) = (parseCaption (beginCaption a z ts s)).onSource b :=
    parseCaption_sameOn hsame (beginCaption a z ts s) rfl
  rw [hrun]
  exact ⟨rfl, rfl, rfl⟩

end Sys2Proof.Machine
end

section
/-! PROOFS. The Bit Reader's commands (40_bit_reader): what each does between transactions, where it underruns, how
consecutive reads concatenate; and the operands that lie outside a command's domain. -/

namespace Sys2Proof.Machine

variable {s t : State} {n : Nat}

/-! ## The commands between transactions -/

theorem exec_brReset_idle (hs : s.phase = .idle) (src : Source) :
    exec (.brReset src) s =
      if Config.bufferFits src.length then .next (s.bindBit src) else .refused .sourceTooLong := by
  rw [exec, execBrReset, whenIdle_idle hs]

theorem exec_brReadBit_idle (hs : s.phase = .idle) :
    exec .brReadBit s = .next (readBit s fun b s => answer (boolValue b) s) := by
  rw [exec, execBrReadBit, whenIdle_idle hs]

theorem exec_brReadBits_idle (hs : s.phase = .idle) (n : Nat) :
    exec (.brReadBits n) s = if n ≤ 32 then .next (readBits n s answer) else .refused .readTooWide := by
  rw [exec, execBrReadBits, whenIdle_idle hs, Config.readBitsMax]

theorem exec_brSkipBits_idle (hs : s.phase = .idle) (n : Nat) :
    exec (.brSkipBits n) s = .next (skipBits n s answerNoValue) := by
  rw [exec, execBrSkipBits, whenIdle_idle hs]

theorem exec_byBind_idle (hs : s.phase = .idle) (src : Source) (p : Nat) :
    exec (.byBind src p) s =
      if Config.bufferFits src.length then
        if p ≤ src.length then .next (answerNoValue (s.bindByte src p)) else .refused .bindPastEnd
      else .refused .sourceTooLong := by
  rw [exec, execByBind, whenIdle_idle hs]

theorem exec_ccParse_positive (hs : s.phase = .idle) (src : Source) {size : SizeWord} (hsize : 0 < size.toInt)
    (ts : Timestamp) :
    exec (.ccParse src size ts) s =
      if Config.bufferFits src.length then .next (parseCaption (beginCaption src size ts s))
      else .refused .sourceTooLong := by
  have hpositive : ¬ sizeNotPositive size = true := fun h => Int.not_le.2 hsize (of_decide_eq_true h)
  rw [exec, execCcParse, whenIdle_idle hs, if_neg hpositive]

/-! ## Bit requests that are admitted, and that underrun (R131 to R136) -/

/-- A `BR.READBITS(n)` that reports `OK` is an admitted one (R132). -/
theorem exec_brReadBits_ok (h : exec (.brReadBits n) s = .next t) (hok : t.res.status = .ok) :
    s.phase = .idle ∧ bitsFit n s = true ∧ t = answer (srcBits s.br.src s.br.pos n) (s.moveBit n) := by
  rw [exec, execBrReadBits] at h
  obtain ⟨hs, hread⟩ := whenIdle_next h
  split at hread
  · cases hread
    cases hfit : bitsFit n s with
    | true => exact ⟨hs, rfl, readBits_fits hfit answer⟩
    | false =>
      rw [readBits_underrun hfit, raise_idle hs] at hok
      cases hok
  · cases hread

/-- Settles O23: both reads are admitted, so the read of all their bits is, and `srcBits_add` cuts its value. -/
theorem consecutiveReadsConcatenate : Obligations.ConsecutiveReadsConcatenate := by
  intro a b s t u hab ht htok hu huok
  obtain ⟨hs, -, rfl⟩ := exec_brReadBits_ok ht htok
  obtain ⟨-, hfit, rfl⟩ := exec_brReadBits_ok hu huok
  have hend : s.br.pos + a + b ≤ 8 * s.br.len := (bitsFit_iff b).1 hfit
  have hboth : bitsFit (a + b) s = true := (bitsFit_iff (a + b)).2 (by omega)
  rw [exec_brReadBits_fits hs hab hboth, srcBits_add, ← moveBit_moveBit]
  rfl

/-- Settles O18: a source that fits is bound. -/
theorem brResetBindsSource : Obligations.BrResetBindsSource := by
  intro src s hs hlen
  rw [exec_brReset_idle hs, if_pos ((Config.bufferFits_iff _).2 hlen)]
  rfl

/-- Settles O21: an admitted skip moves the cursor and answers no value. -/
theorem brSkipBitsAdvances : Obligations.BrSkipBitsAdvances := by
  intro n s hs hend
  have hskip : exec (.brSkipBits n) s = .next (answerNoValue (s.moveBit n)) := by
    rw [exec_brSkipBits_idle hs, skipBits_fits ((bitsFit_iff n).2 hend)]
  exact ⟨_, hskip, rfl⟩

/-- Settles O22: no request is admitted, and the fault of an idle command writes `RES` alone. -/
theorem bitUnderrunTouchesNothing : Obligations.BitUnderrunTouchesNothing := by
  intro n s hs hend
  have hfit : bitsFit n s = false := (bitsFit_false_iff n).2 hend
  have hraise : raise .bitUnderrun s = { s with res := ⟨.bufferUnderrun, .bitUnderrun, 0⟩ } := raise_idle hs _
  refine ⟨fun hone => ?_, fun hn => ?_, ?_⟩
  · subst hone
    rw [exec_brReadBit_idle hs, readBit_underrun hfit, hraise]
  · rw [exec_brReadBits_idle hs, if_pos hn, readBits_underrun hfit, hraise]
  · rw [exec_brSkipBits_idle hs, skipBits_underrun hfit, hraise]

/-! ## Operands outside a command's domain -/

/-- Settles O28: a wide read, a bind past the end, and a long source for each command that binds one. -/
theorem outOfDomainRefused : Obligations.OutOfDomainRefused := by
  intro s src n size ts hs
  refine ⟨fun hwide => ?_, fun hlen hpast => ?_, fun hlong => ?_⟩
  · rw [exec_brReadBits_idle hs, if_neg (Nat.not_le.2 hwide)]
  · rw [exec_byBind_idle hs, if_pos ((Config.bufferFits_iff _).2 hlen), if_neg (Nat.not_le.2 hpast)]
  · have hunfit : ¬ Config.bufferFits src.length = true := by
      rwa [Config.bufferFits_iff, Nat.not_le]
    refine ⟨?_, ?_, fun hsize => ?_⟩
    · rw [exec_brReset_idle hs, if_neg hunfit]
    · rw [exec_byBind_idle hs, if_neg hunfit]
    · rw [exec_ccParse_positive hs src hsize, if_neg hunfit]

end Sys2Proof.Machine
end

section
/-! PROOFS. The Byte Reader's commands (41_byte_reader) between transactions: what each runs, where a read underruns, and
what `BY.POS` answers. -/

namespace Sys2Proof.Machine

variable {s : State}

theorem exec_byReadU8_idle (hs : s.phase = .idle) : exec .byReadU8 s = .next (readBytes 1 s answer) := by
  rw [exec, execByReadU8, whenIdle_idle hs]

theorem exec_byReadU16_idle (hs : s.phase = .idle) : exec .byReadU16 s = .next (readBytes 2 s answer) := by
  rw [exec, execByReadU16, whenIdle_idle hs]

theorem exec_byReadI32_idle (hs : s.phase = .idle) : exec .byReadI32 s = .next (readBytes 4 s answer) := by
  rw [exec, execByReadI32, whenIdle_idle hs]

theorem exec_byPos_idle (hs : s.phase = .idle) : exec .byPos s = .next (answer s.byr.pos s) := by
  rw [exec, execByPos, whenIdle_idle hs]

/-- Of a read that is not admitted nothing runs, and the fault of an idle command writes `RES` alone (R154, R280). -/
theorem readBytes_idle_underrun {n : Nat} (hs : s.phase = .idle) (hend : s.byr.src.length < s.byr.pos + n)
    (k : Nat → State → State) : readBytes n s k = { s with res := ⟨.bufferUnderrun, .byteUnderrun, 0⟩ } := by
  have hfit : bytesFit n s = false := (bytesFit_false_iff n).2 hend
  rw [readBytes_underrun hfit, raise_idle hs]
  rfl

/-- Settles O26: each width is one read of the Byte Reader, and the read is not admitted. -/
theorem byteUnderrunTouchesNothing : Obligations.ByteUnderrunTouchesNothing := by
  intro s hs
  refine ⟨fun hend => ?_, fun hend => ?_, fun hend => ?_⟩
  · rw [exec_byReadU8_idle hs, readBytes_idle_underrun hs hend]
  · rw [exec_byReadU16_idle hs, readBytes_idle_underrun hs hend]
  · rw [exec_byReadI32_idle hs, readBytes_idle_underrun hs hend]

/-- Settles O27: the answer is the byte cursor, and an answer writes `RES` alone. -/
theorem byPosReportsCursor : Obligations.ByPosReportsCursor := fun _ hs => exec_byPos_idle hs

end Sys2Proof.Machine
end

section
/-! PROOFS. The character tables (42_char_tables): the lookups as arithmetic on the byte, the entries the source fixes,
and what the two commands answer between transactions. -/

namespace Sys2Proof.Machine

variable {s : State}

/-! ## Lookups -/

theorem lookupBasic_inRange {x : Byte} (hlow : 0x20 ≤ x.toNat) (hhigh : x.toNat ≤ 0x7F) :
    lookupBasic x = some (basicTable (x.toNat - 0x20)) := by
  have hrange : 0x20 ≤ x ∧ x ≤ 0x7F := ⟨hlow, hhigh⟩
  rw [lookupBasic, if_pos hrange, basicIndex]

theorem lookupBasic_outOfRange {x : Byte} (hout : x.toNat < 0x20 ∨ 0x7F < x.toNat) : lookupBasic x = none := by
  have hrange : ¬(0x20 ≤ x ∧ x ≤ 0x7F) := by bv_omega
  rw [lookupBasic, if_neg hrange]

/-- The mask `0x0F` keeps the byte modulo 16 (R172). -/
theorem specialIndex_eq_mod (y : Byte) : specialIndex y = y.toNat % 16 := by
  rw [specialIndex, BitVec.toNat_and]
  exact Nat.and_two_pow_sub_one_eq_mod y.toNat 4

/-! ## Fixed entries -/

/-- The letters `'A'` to `'Z'` map to themselves (R174). -/
theorem basicTable_letter {x : Byte} (hA : 0x41 ≤ x.toNat) (hZ : x.toNat ≤ 0x5A) :
    (basicTable (x.toNat - 0x20)).toNat = x.toNat := by
  have hletter : 33 ≤ x.toNat - 0x20 ∧ x.toNat - 0x20 ≤ 58 := by omega
  rw [basicTable, basicWith, if_pos hletter, BitVec.toNat_ofNat]
  omega

theorem basicTable_ten : basicTable 10 = 0xE1 := rfl

theorem specialTable_zero : specialTable 0 = 0xAE := rfl

theorem specialTable_nine : specialTable 9 = 0x20 := rfl

/-! ## The commands -/

theorem exec_getBasic_idle (hs : s.phase = .idle) (x : Byte) :
    exec (.getBasic x) s = .next (getBasicChar x s fun c s => answer c.toNat s) := by
  rw [exec, execGetBasic, whenIdle_idle hs]

theorem exec_getSpecial_idle (hs : s.phase = .idle) (y : Byte) :
    exec (.getSpecial y) s = .next (answer (lookupSpecial y).toNat s) := by
  rw [exec, execGetSpecial, whenIdle_idle hs]

/-- Settles O29: the lookup has an entry in the range and none outside, and an idle fault writes `RES` alone. -/
theorem getBasicReadsTable : Obligations.GetBasicReadsTable := by
  intro x s hs
  rw [exec_getBasic_idle hs, getBasicChar]
  refine ⟨fun ⟨hlow, hhigh⟩ => ?_, fun hout => ?_⟩
  · rw [lookupBasic_inRange hlow hhigh]
    rfl
  · rw [lookupBasic_outOfRange hout, raise_idle hs]
    rfl

/-- Settles O30: the fixed bytes are in the table's range, so the answers are their entries. -/
theorem basicFixedEntries : Obligations.BasicFixedEntries := by
  intro s hs
  refine ⟨fun x hA hZ => ?_, ?_⟩
  · rw [(getBasicReadsTable x s hs).1 ⟨by omega, by omega⟩, basicTable_letter hA hZ]
  · have hentry : (basicTable ((0x2A : Byte).toNat - 0x20)).toNat = 0xE1 := congrArg BitVec.toNat basicTable_ten
    rw [(getBasicReadsTable 0x2A s hs).1 (by decide), hentry]

/-- Settles O31: every index has an entry, and an answer writes `RES` alone. -/
theorem getSpecialReadsTable : Obligations.GetSpecialReadsTable := by
  intro y s hs
  rw [exec_getSpecial_idle hs, lookupSpecial, specialIndex_eq_mod]
  rfl

/-- Settles O32: the low four bits of the two bytes are 0 and 9. -/
theorem specialFixedEntries : Obligations.SpecialFixedEntries := by
  intro s hs
  have hzero : (specialTable ((0x30 : Byte).toNat % 16)).toNat = 0xAE := congrArg BitVec.toNat specialTable_zero
  have hnine : (specialTable ((0x39 : Byte).toNat % 16)).toNat = 0x20 := congrArg BitVec.toNat specialTable_nine
  rw [getSpecialReadsTable 0x30 s hs, getSpecialReadsTable 0x39 s hs, hzero, hnine]
  exact ⟨rfl, rfl⟩

end Sys2Proof.Machine
end

section
/-! PROOFS. `SEI_PARSE` and its items as one reading of the unread bytes (43_sei_header R191 to R200): how a transaction
ends is a function of those bytes alone, and the statements about whole headers evaluate that function. -/

namespace Sys2Proof.Machine

variable {s t : State}

/-! ## The reading of bytes -/

/-- How `SEI_PARSE` ends on the bytes before it: the value it returns, none for an underrun, and the bytes consumed. -/
structure SeiReading where
  value : Option Nat
  consumed : Nat

/-- The reading `r` after `n` bytes that were consumed before it. -/
def SeiReading.after (r : SeiReading) (n : Nat) : SeiReading := ⟨r.value, n + r.consumed⟩

@[simp] theorem SeiReading.after_value (r : SeiReading) (n : Nat) : (r.after n).value = r.value := rfl
@[simp] theorem SeiReading.after_consumed (r : SeiReading) (n : Nat) : (r.after n).consumed = n + r.consumed := rfl

/-- Fields of fixed width, each given by its width and whether it differs from what is required, when `left` bytes
remain: the first that differs returns 0, and `size` is returned if none does (R195, R196). -/
def fieldsReading (size : Nat) : List (Nat × Bool) → Nat → SeiReading
  | [], _ => ⟨some size, 0⟩
  | (n, differs) :: fs, left =>
    if n ≤ left then (if differs then ⟨some 0, 0⟩ else fieldsReading size fs (left - n)).after n else ⟨none, 0⟩

/-- The bytes up to and with the first field that differs. -/
def fieldsEnd : List (Nat × Bool) → Nat
  | [] => 0
  | (n, differs) :: fs => n + if differs then 0 else fieldsEnd fs

/-- The four fields of the signature (R195). -/
def signatureFields (c : BitVec 8) (p : BitVec 16) (u : BitVec 32) (d : BitVec 8) : List (Nat × Bool) :=
  [(1, decide (c ≠ 0xB5)), (2, decide (p ≠ 0x0031)), (4, decide (u ≠ 0x47413934)), (1, decide (d ≠ 3))]

/-- The signature's fields as they stand in `bs`. -/
def signatureFieldsOf (bs : Source) : List (Nat × Bool) :=
  signatureFields (BitVec.ofNat 8 (memRead bs 0 1)) (BitVec.ofNat 16 (memRead bs 1 2))
    (BitVec.ofNat 32 (memRead bs 3 4)) (BitVec.ofNat 8 (memRead bs 7 1))

/-- `READEXT` from the sum `acc` (R191), and `k` on the value read and the bytes after it. -/
def extReading (k : Nat → Source → SeiReading) (acc : Nat) : Source → SeiReading
  | [] => ⟨none, 0⟩
  | b :: bs => (if b = 0xFF then extReading k (acc + b.toNat) bs else k (acc + b.toNat) bs).after 1

/-- What follows the size `v` (R194 to R196). -/
def sizeReading (v : Nat) (bs : Source) : SeiReading :=
  if v = 0 then ⟨some 0, 0⟩ else fieldsReading v (signatureFieldsOf bs) bs.length

/-- What follows the type `v` (R193). -/
def typeReading (v : Nat) (bs : Source) : SeiReading :=
  if v = 4 then extReading sizeReading 0 bs else ⟨some 0, 0⟩

/-- `SEI_PARSE` as a function of the bytes at the cursor (R192, R200). -/
def seiReading (bs : Source) : SeiReading := extReading typeReading 0 bs

/-! ### Fields of fixed width -/

theorem fieldsReading_complete (size : Nat) (fs : List (Nat × Bool)) {left : Nat} (h : fieldsEnd fs ≤ left) :
    fieldsReading size fs left = ⟨some (if fs.any Prod.snd then 0 else size), fieldsEnd fs⟩ := by
  induction fs generalizing left with
  | nil => rfl
  | cons f fs ih =>
    obtain ⟨n, differs⟩ := f
    rw [fieldsEnd] at h
    rw [fieldsReading, if_pos (by omega)]
    cases differs with
    | true => rfl
    | false =>
      rw [ih (left := left - n) (by simp at h; omega)]
      rfl

/-- Too few bytes for the first field that differs, or for all: the whole fields that fit stay consumed (R198). -/
theorem fieldsReading_truncated (size : Nat) (fs : List (Nat × Bool)) {left : Nat} (h : left < fieldsEnd fs) :
    fieldsReading size fs left = ⟨none, admitted (fs.map Prod.fst) left⟩ := by
  induction fs generalizing left with
  | nil => exact absurd h (Nat.not_lt_zero _)
  | cons f fs ih =>
    obtain ⟨n, differs⟩ := f
    rw [fieldsEnd] at h
    rw [fieldsReading, List.map_cons, admitted]
    by_cases hn : n ≤ left
    · cases differs with
      | true => simp at h; omega
      | false =>
        rw [if_pos hn, if_pos hn, ih (left := left - n) (by simp at h; omega)]
        rfl
    · rw [if_neg hn, if_neg hn]

theorem fieldsReading_consumed_le (size : Nat) (fs : List (Nat × Bool)) (left : Nat) :
    (fieldsReading size fs left).consumed ≤ left := by
  induction fs generalizing left with
  | nil => exact Nat.zero_le _
  | cons f fs ih =>
    obtain ⟨n, differs⟩ := f
    rw [fieldsReading]
    split
    · have htail := ih (left - n)
      split <;> simp <;> omega
    · exact Nat.zero_le _

theorem fieldsEnd_signatureFields (c : BitVec 8) (p : BitVec 16) (u : BitVec 32) (d : BitVec 8) :
    fieldsEnd (signatureFields c p u d) = signatureEnd c p u := by
  simp only [signatureFields, fieldsEnd, signatureEnd, decide_eq_true_eq]
  split_ifs <;> rfl

theorem any_signatureFields_iff (c : BitVec 8) (p : BitVec 16) (u : BitVec 32) (d : BitVec 8) :
    (signatureFields c p u d).any Prod.snd = true ↔ c ≠ 0xB5 ∨ p ≠ 0x0031 ∨ u ≠ 0x47413934 ∨ d ≠ 3 := by
  simp only [signatureFields, List.any_cons, List.any_nil, Bool.or_false, Bool.or_eq_true, decide_eq_true_eq]

/-! ### Extended values -/

/-- A whole extended value is its sum, and its `j + 1` bytes are consumed (R191). -/
theorem extReading_extBytes {b : Byte} (hb : b ≠ 0xFF) (k : Nat → Source → SeiReading) (j acc : Nat) (rest : Source) :
    extReading k acc (extBytes j b ++ rest) = (k (acc + (255 * j + b.toNat)) rest).after (j + 1) := by
  induction j generalizing acc with
  | zero =>
    rw [show extBytes 0 b ++ rest = b :: rest from rfl, extReading, if_neg hb]
    simp
  | succ j ih =>
    rw [show extBytes (j + 1) b ++ rest = 0xFF :: (extBytes j b ++ rest) from rfl, extReading, if_pos rfl, ih,
      show acc + (0xFF : Byte).toNat + (255 * j + b.toNat) = acc + (255 * (j + 1) + b.toNat) by simp; omega]
    simp only [SeiReading.after, SeiReading.mk.injEq, true_and]
    omega

/-- Continuation bytes alone are an underrun. -/
theorem extReading_replicate (k : Nat → Source → SeiReading) (j acc : Nat) :
    (extReading k acc (List.replicate j 0xFF)).value = none := by
  induction j generalizing acc with
  | zero => rfl
  | succ j ih => rw [List.replicate_succ, extReading, if_pos rfl, SeiReading.after_value, ih]

theorem extReading_consumed_le {k : Nat → Source → SeiReading} (hk : ∀ v bs, (k v bs).consumed ≤ bs.length) (acc : Nat)
    (bs : Source) : (extReading k acc bs).consumed ≤ bs.length := by
  induction bs generalizing acc with
  | nil => exact Nat.zero_le _
  | cons b bs ih =>
    rw [extReading, SeiReading.after_consumed, List.length_cons, Nat.add_comm]
    refine Nat.succ_le_succ ?_
    split
    · exact ih _
    · exact hk _ bs

/-! ### Headers -/

theorem sizeReading_consumed_le (v : Nat) (bs : Source) : (sizeReading v bs).consumed ≤ bs.length := by
  unfold sizeReading
  split
  · exact Nat.zero_le _
  · exact fieldsReading_consumed_le _ _ _

theorem typeReading_consumed_le (v : Nat) (bs : Source) : (typeReading v bs).consumed ≤ bs.length := by
  unfold typeReading
  split
  · exact extReading_consumed_le sizeReading_consumed_le 0 bs
  · exact Nat.zero_le _

theorem seiReading_consumed_le (bs : Source) : (seiReading bs).consumed ≤ bs.length :=
  extReading_consumed_le typeReading_consumed_le 0 bs

/-- The type 4 is one byte, and the size follows (R193). -/
theorem seiReading_four (bs : Source) : seiReading (0x04 :: bs) = (extReading sizeReading 0 bs).after 1 := rfl

theorem seiReading_otherType {k : Nat} {b : Byte} (hb : b ≠ 0xFF) (h : 255 * k + b.toNat ≠ 4) (rest : Source) :
    seiReading (extBytes k b ++ rest) = ⟨some 0, k + 1⟩ := by
  rw [seiReading, extReading_extBytes hb, Nat.zero_add, typeReading, if_neg h]
  rfl

theorem signatureFieldsOf_signatureBytes (rest : Source) :
    signatureFieldsOf (signatureBytes ++ rest) = signatureFields 0xB5 0x0031 0x47413934 3 := by
  simp [signatureFieldsOf, signatureBytes, memRead, srcByte]

/-- A caption header returns its size as read (R196). -/
theorem seiReading_captionHeader {k : Nat} {b : Byte} (hb : b ≠ 0xFF) (h : 0 < 255 * k + b.toNat) (rest : Source) :
    seiReading (0x04 :: (extBytes k b ++ (signatureBytes ++ rest))) =
      ⟨some (255 * k + b.toNat), 1 + (k + 1) + 8⟩ := by
  have hlength : fieldsEnd (signatureFields 0xB5 0x0031 0x47413934 3) ≤ (signatureBytes ++ rest).length := by
    rw [List.length_append]
    exact Nat.le_add_right 8 _
  rw [seiReading_four, extReading_extBytes hb, Nat.zero_add, sizeReading, if_neg h.ne', signatureFieldsOf_signatureBytes,
    fieldsReading_complete _ _ hlength, Nat.add_assoc]
  rfl

/-- A proper part of the signature ends before its first field that differs. -/
theorem lt_fieldsEnd_of_truncated :
    ∀ m < 8, (signatureBytes.take m).length < fieldsEnd (signatureFieldsOf (signatureBytes.take m)) := by
  decide

/-- A caption header cut short anywhere is an underrun (R198). -/
theorem seiReading_truncated {k m : Nat} {b : Byte} (hb : b ≠ 0xFF) (h : 0 < 255 * k + b.toNat)
    (hm : m < 1 + (k + 1) + 8) :
    (seiReading ((0x04 :: extBytes k b ++ signatureBytes).take m)).value = none := by
  cases m with
  | zero => rfl
  | succ m =>
    have hlength : (extBytes k b).length = k + 1 := by simp [extBytes]
    rw [List.cons_append, List.take_succ_cons, seiReading_four, SeiReading.after_value, List.take_append, hlength]
    by_cases hext : m ≤ k
    · have hcut : (extBytes k b).take m = List.replicate m 0xFF := by
        simp [extBytes, List.take_append, Nat.sub_eq_zero_of_le hext, hext]
      rw [hcut, Nat.sub_eq_zero_of_le (Nat.le_succ_of_le hext), List.take_zero, List.append_nil, extReading_replicate]
    · have hsignature : m - (k + 1) < 8 := by omega
      rw [List.take_of_length_le (by omega), extReading_extBytes hb, SeiReading.after_value, Nat.zero_add, sizeReading,
        if_neg h.ne', fieldsReading_truncated _ _ (lt_fieldsEnd_of_truncated _ hsignature)]

/-! ## What the machine does is that reading -/

/-- The bytes from the byte cursor on. -/
def unread (s : State) : Source := s.byr.src.drop s.byr.pos

theorem bytesLeft_eq_length (s : State) : bytesLeft s = (unread s).length := List.length_drop.symm

theorem unread_of_append {pre bs : Source} (hsrc : s.byr.src = pre ++ bs) (hpos : s.byr.pos = pre.length) :
    unread s = bs := by
  rw [unread, hsrc, hpos, List.drop_left]

theorem memRead_unread (s : State) (a n : Nat) : memRead (unread s) a n = memRead s.byr.src (s.byr.pos + a) n := by
  rw [← memRead_drop, ← memRead_drop s.byr.src, unread, List.drop_drop]

theorem bytesFit_eq {n : Nat} (hn : 0 < n) (s : State) : bytesFit n s = decide (n ≤ bytesLeft s) := by
  unfold bytesFit bytesLeft
  congr 1
  rw [eq_iff_iff]
  omega

/-- The next byte is read, and the rest are left. -/
theorem unread_cons {b : Byte} {bs : Source} (h : unread s = b :: bs) :
    bytesFit 1 s = true ∧ memRead s.byr.src s.byr.pos 1 = b.toNat ∧ unread (s.moveByte 1) = bs := by
  refine ⟨?_, ?_, ?_⟩
  · rw [bytesFit_eq Nat.one_pos, bytesLeft_eq_length, h]
    simp
  · rw [← memRead_drop, ← unread, h]
    simp [memRead, srcByte]
  · calc unread (s.moveByte 1)
      _ = (unread s).drop 1 := List.drop_drop.symm
      _ = bs := by rw [h, List.drop_one, List.tail_cons]

/-- `RES` for a returned value, or for an underrun (R198). -/
def seiResult : Option Nat → Result
  | some v => ⟨.ok, .none, v⟩
  | none => ⟨.bufferUnderrun, .byteUnderrun, 0⟩

/-- `t` is where `SEI_PARSE` ends from `s` if the unread bytes are read as `r` says; the working registers are left
open, but those of captions only by a fault (60_exceptions R280). -/
structure Parsed (r : SeiReading) (s t : State) : Prop where
  state : t = { s with
    byr := ⟨s.byr.src, s.byr.pos + r.consumed⟩
    res := seiResult r.value
    phase := .idle
    w := t.w
    hdr := t.hdr
    draws := t.draws }
  caption : r.value ≠ none → t.w = s.w

theorem Parsed.of_moveByte {r : SeiReading} {n : Nat} (h : Parsed r (s.moveByte n) t) : Parsed (r.after n) s t := by
  obtain ⟨hstate, hw⟩ := h
  refine ⟨hstate.trans ?_, hw⟩
  simp [State.moveByte, Nat.add_assoc]

theorem Parsed.of_setHdr {r : SeiReading} {h : HeaderRegs} (hparsed : Parsed r (s.setHdr h) t) : Parsed r s t :=
  ⟨hparsed.state, hparsed.caption⟩

theorem Parsed.of_beginSei {r : SeiReading} (h : Parsed r (beginSei s) t) : Parsed r s t := ⟨h.state, h.caption⟩

theorem Parsed.returned {v n : Nat} (h : Parsed ⟨some v, n⟩ s t) :
    t = { s with
      byr := ⟨s.byr.src, s.byr.pos + n⟩
      res := ⟨.ok, .none, v⟩
      phase := .idle
      hdr := t.hdr
      draws := t.draws } := by
  have hstate := h.state
  rwa [h.caption (Option.some_ne_none v)] at hstate

/-- A transaction started between transactions ends as one that returns to where it began. -/
theorem Parsed.returned_idle {v n : Nat} (hs : s.phase = .idle) (h : Parsed ⟨some v, n⟩ s t) :
    t = { s with
      byr := ⟨s.byr.src, s.byr.pos + n⟩
      res := ⟨.ok, .none, v⟩
      hdr := t.hdr
      draws := t.draws } := by
  have hreturned := h.returned
  rwa [← hs] at hreturned

theorem returnSei_parsed (v : Nat) (s : State) : Parsed ⟨some v, 0⟩ s (returnSei v s) := ⟨rfl, fun _ => rfl⟩

theorem raise_parsed (hp : s.InSei) : Parsed ⟨none, 0⟩ s (raise .byteUnderrun s) := by
  rw [raise_sei hp]
  exact ⟨rfl, fun h => absurd rfl h⟩

/-! ### The signature -/

/-- A field is read whole, and then ends the operation or lets it go on to `v`. -/
theorem takeField_parsed {n left size : Nat} {fs : List (Nat × Bool)} {k : State → State} {v : State} {r : HeaderRegs}
    {differs : Prop} [Decidable differs] (hn : 0 < n) (hp : s.InSei) (hleft : bytesLeft s = left)
    (hk : k (s.moveByte n) = if differs then returnSei 0 ((s.moveByte n).setHdr r) else v)
    (hv : bytesLeft ((s.moveByte n).setHdr r) = left - n →
      Parsed (fieldsReading size fs (left - n)) ((s.moveByte n).setHdr r) v) :
    Parsed (fieldsReading size ((n, decide differs) :: fs) left) s (takeBytes n s k) := by
  have hfit := bytesFit_eq hn s
  rw [fieldsReading]
  by_cases hle : n ≤ left
  · rw [takeBytes_fits (by rw [hfit, hleft, decide_eq_true hle]), hk, if_pos hle]
    refine (Parsed.of_setHdr (h := r) ?_).of_moveByte
    by_cases hd : differs
    · rw [if_pos hd, if_pos (decide_eq_true hd)]
      exact returnSei_parsed 0 _
    · rw [if_neg hd, decide_eq_false hd]
      exact hv (by rw [← hleft]; exact Nat.sub_add_eq _ _ _)
  · rw [takeBytes_underrun (by rw [hfit, hleft, decide_eq_false hle]), if_neg hle]
    exact raise_parsed hp

theorem takeSignature_parsed (hp : s.InSei) (c : BitVec 8) (p : BitVec 16) (u : BitVec 32) (d : BitVec 8) :
    Parsed (fieldsReading s.hdr.payloadSize (signatureFields c p u d) (bytesLeft s)) s (takeSignature c p u d s) := by
  refine takeField_parsed (by decide) hp rfl rfl fun hprovider => ?_
  refine takeField_parsed (by decide) hp hprovider rfl fun huserId => ?_
  refine takeField_parsed (by decide) hp huserId rfl fun hdataType => ?_
  refine takeField_parsed (by decide) hp hdataType rfl fun _ => ?_
  exact returnSei_parsed _ _

theorem readSignature_parsed (hp : s.InSei) :
    Parsed (fieldsReading s.hdr.payloadSize (signatureFieldsOf (unread s)) (unread s).length) s (readSignature s) := by
  rw [readSignature_eq, signatureFieldsOf, ← bytesLeft_eq_length]
  simp only [memRead_unread]
  exact takeSignature_parsed hp _ _ _ _

/-! ### The whole operation -/

/-- `READEXT` reads as `extReading` does, if what follows it does. -/
theorem readExt_parsed {k : Nat → State → State} {r : Nat → Source → SeiReading}
    (hk : ∀ v u, u.InSei → Parsed (r v (unread u)) u (k v u)) (bs : Source) (acc : Nat) (s : State) (hp : s.InSei)
    (hbs : unread s = bs) : Parsed (extReading r acc bs) s (readExt bs.length acc s k) := by
  induction bs generalizing acc s with
  | nil => exact raise_parsed hp
  | cons b bs ih =>
    obtain ⟨hfit, hvalue, hrest⟩ := unread_cons hbs
    rw [List.length_cons, readExt, readBytes_fits hfit, hvalue, BitVec.ofNat_toNat, BitVec.setWidth_eq, extReading]
    refine (Parsed.of_setHdr (h := { s.hdr with b := b }) ?_).of_moveByte
    by_cases hb : b = 0xFF
    · subst hb
      exact ih _ _ hp hrest
    · have hlast : continues b = false := beq_eq_false_iff_ne.2 hb
      simp only [hlast, Bool.false_eq_true, if_false]
      rw [if_neg hb, ← hrest]
      exact hk _ ((s.moveByte 1).setHdr { s.hdr with b := b }) hp

theorem afterSize_parsed (v : Nat) (s : State) (hp : s.InSei) : Parsed (sizeReading v (unread s)) s (afterSize v s) := by
  unfold sizeReading afterSize
  refine Parsed.of_setHdr (h := { s.hdr with payloadSize := v }) ?_
  by_cases hv : v = 0
  · rw [if_pos hv, if_pos (Nat.le_zero.2 hv)]
    exact returnSei_parsed 0 _
  · rw [if_neg hv, if_neg (mt Nat.le_zero.1 hv)]
    exact readSignature_parsed (s := s.setHdr { s.hdr with payloadSize := v }) hp

theorem afterType_parsed (v : Nat) (s : State) (hp : s.InSei) : Parsed (typeReading v (unread s)) s (afterType v s) := by
  unfold typeReading afterType
  refine Parsed.of_setHdr (h := { s.hdr with payloadType := v }) ?_
  by_cases hv : v = 4
  · rw [if_pos hv, if_neg (not_not.2 hv), bytesLeft_eq_length]
    exact readExt_parsed afterSize_parsed _ _ _ hp rfl
  · rw [if_neg hv, if_pos hv]
    exact returnSei_parsed 0 _

/-- `SEI_PARSE` between transactions ends as the reading of the unread bytes says. -/
theorem exec_seiParse_parsed (hs : s.phase = .idle) :
    ∃ t, exec .seiParse s = .next t ∧ Parsed (seiReading (unread s)) s t := by
  refine ⟨parseSei (beginSei s), by rw [exec, execSeiParse, whenIdle_idle hs], ?_⟩
  rw [parseSei_eq, bytesLeft_eq_length]
  exact (readExt_parsed afterType_parsed _ 0 _ (.inl rfl) rfl).of_beginSei

/-! ## The statements -/

theorem exec_seihdrMatch (hp : s.phase = .seiSignature) :
    exec .seihdrMatch s = .next (takeSignature 0xB5 0x0031 0x47413934 3 s) := by
  rw [exec, execSeihdrMatch, inPhase_eq hp]

theorem exec_seihdrMismatch (hp : s.phase = .seiSignature) (c : BitVec 8) (p : BitVec 16) (u : BitVec 32)
    (d : BitVec 8) : exec (.seihdrMismatch c p u d) s = .next (takeSignature c p u d s) := by
  rw [exec, execSeihdrMismatch, inPhase_eq hp]

/-- A signature whose fields are there up to and with the first that differs. -/
theorem takeSignature_complete (hp : s.phase = .seiSignature) (c : BitVec 8) (p : BitVec 16) (u : BitVec 32)
    (d : BitVec 8) (h : s.byr.pos + signatureEnd c p u ≤ s.byr.src.length) :
    Parsed ⟨some (if (signatureFields c p u d).any Prod.snd then 0 else s.hdr.payloadSize), signatureEnd c p u⟩ s
      (takeSignature c p u d s) := by
  have hleft : fieldsEnd (signatureFields c p u d) ≤ bytesLeft s := by
    rw [fieldsEnd_signatureFields]
    exact Nat.le_sub_of_add_le' h
  have hparsed := takeSignature_parsed (.inr (.inr hp)) c p u d
  rwa [fieldsReading_complete _ _ hleft, fieldsEnd_signatureFields] at hparsed

/-- A signature that ends before that. -/
theorem takeSignature_truncated (hp : s.phase = .seiSignature) (c : BitVec 8) (p : BitVec 16) (u : BitVec 32)
    (d : BitVec 8) (hpos : s.byr.pos ≤ s.byr.src.length) (h : s.byr.src.length < s.byr.pos + signatureEnd c p u) :
    Parsed ⟨none, admitted signatureWidths (s.byr.src.length - s.byr.pos)⟩ s (takeSignature c p u d s) := by
  have hleft : bytesLeft s < fieldsEnd (signatureFields c p u d) := by
    rw [fieldsEnd_signatureFields]
    exact Nat.sub_lt_left_of_lt_add hpos h
  have hparsed := takeSignature_parsed (.inr (.inr hp)) c p u d
  rwa [fieldsReading_truncated _ _ hleft] at hparsed

/-- Settles O36: the eight bytes are there and no field differs. -/
theorem signatureMatchReturnsSize : Obligations.SignatureMatchReturnsSize := by
  intro s hp hfit
  exact ⟨_, exec_seihdrMatch hp, (takeSignature_complete hp 0xB5 0x0031 0x47413934 3 hfit).returned⟩

/-- Settles O37: the bytes up to and with a field that differs are there. -/
theorem signatureMismatchReturnsSentinel : Obligations.SignatureMismatchReturnsSentinel := by
  intro c p u d n s hp hfirst hfit
  have hend : signatureEnd c p u = n ∧ (c ≠ 0xB5 ∨ p ≠ 0x0031 ∨ u ≠ 0x47413934 ∨ d ≠ 3) := by
    obtain ⟨hc, rfl⟩ | ⟨rfl, hprovider, rfl⟩ | ⟨rfl, rfl, huserId, rfl⟩ | ⟨rfl, rfl, rfl, hdataType, rfl⟩ := hfirst
    · exact ⟨if_pos hc, .inl hc⟩
    · exact ⟨if_pos hprovider, .inr (.inl hprovider)⟩
    · exact ⟨if_pos huserId, .inr (.inr (.inl huserId))⟩
    · exact ⟨rfl, .inr (.inr (.inr hdataType))⟩
  obtain ⟨rfl, hdiffers⟩ := hend
  have hparsed := takeSignature_complete hp c p u d hfit
  rw [if_pos ((any_signatureFields_iff c p u d).2 hdiffers)] at hparsed
  exact ⟨_, exec_seihdrMismatch hp c p u d, hparsed.returned⟩

/-- Settles O38: the unread bytes are a caption header and what follows it. -/
theorem seiParseAcceptsCaptionHeader : Obligations.SeiParseAcceptsCaptionHeader := by
  intro s pre rest k b hs hb hsize hsrc hpos
  have hread : unread s = 0x04 :: (extBytes k b ++ (signatureBytes ++ rest)) :=
    unread_of_append (by rw [hsrc]; simp) hpos
  obtain ⟨t, hexec, hparsed⟩ := exec_seiParse_parsed hs
  rw [hread, seiReading_captionHeader hb hsize] at hparsed
  have hreturned := hparsed.returned_idle hs
  rw [show s.byr.pos + (1 + (k + 1) + 8) = s.byr.pos + 1 + (k + 1) + 8 by omega] at hreturned
  exact ⟨t, hexec, hreturned⟩

/-- Settles O39: the unread bytes are a type that is not 4, or the type 4 and the size 0. -/
theorem seiParseTypeAndSizeExits : Obligations.SeiParseTypeAndSizeExits := by
  intro s pre rest k b hs hpos hb
  obtain ⟨t, hexec, hparsed⟩ := exec_seiParse_parsed hs
  refine ⟨fun hsrc htype => ⟨t, hexec, ?_⟩, fun hsrc => ⟨t, hexec, ?_⟩⟩
  · rw [unread_of_append (by rw [hsrc, List.append_assoc]) hpos, seiReading_otherType hb htype] at hparsed
    exact hparsed.returned_idle hs
  · rw [unread_of_append hsrc hpos] at hparsed
    exact hparsed.returned_idle hs

/-- A transaction never consumes more than is left to the Byte Reader. -/
theorem Parsed.pos_le {bs : Source} (h : Parsed (seiReading bs) s t) (hbs : unread s = bs)
    (hpos : s.byr.pos ≤ s.byr.src.length) : s.byr.pos ≤ t.byr.pos ∧ t.byr.pos ≤ s.byr.src.length := by
  have hconsumed := seiReading_consumed_le bs
  rw [← hbs, unread, List.length_drop] at hconsumed
  have hcursor : t.byr.pos = s.byr.pos + (seiReading bs).consumed := by rw [h.state]
  rw [← hbs, unread] at hcursor
  omega

/-- Settles O40: the unread bytes are a proper part of a caption header. -/
theorem seiParseTruncatedHeaderUnderruns : Obligations.SeiParseTruncatedHeaderUnderruns := by
  intro s pre k m b hs hb hsize hm hsrc hpos
  obtain ⟨t, hexec, hparsed⟩ := exec_seiParse_parsed hs
  have hvalue : (seiReading (unread s)).value = none := by
    rw [unread_of_append hsrc hpos, seiReading_truncated hb hsize hm]
  have hwithin : s.byr.pos ≤ s.byr.src.length := by
    rw [hpos, hsrc, List.length_append]
    exact Nat.le_add_right _ _
  refine ⟨t, hexec, ?_, ?_, hparsed.pos_le rfl hwithin⟩
  · rw [hparsed.state, hvalue]
    rfl
  · rw [hparsed.state]

/-- Settles O41: the unread bytes decide `RES` and how far the cursor moves. -/
theorem seiParseTouchesOnlyByteReader : Obligations.SeiParseTouchesOnlyByteReader := by
  intro s hs hpos
  obtain ⟨t, hexec, hparsed⟩ := exec_seiParse_parsed hs
  obtain ⟨hforward, hend⟩ := hparsed.pos_le rfl hpos
  refine ⟨t, hexec, ?_, fun hok => hparsed.caption fun hnone => ?_, ?_, hforward, hend, ?_⟩
  · have hstate := hparsed.state
    rw [← hs] at hstate
    rw [hstate]
  · rw [hparsed.state, hnone] at hok
    cases hok
  · rw [hparsed.state]
  · intro s' t' hs' hbyr hexec'
    obtain ⟨u, hu, hparsed'⟩ := exec_seiParse_parsed hs'
    cases hu.symm.trans hexec'
    rw [unread, hbyr, ← unread] at hparsed'
    rw [hparsed.state, hparsed'.state, hbyr]
    exact ⟨rfl, rfl⟩

/-- Settles O50: a type or size byte, or a field of the signature, is missing. -/
theorem truncatedHeaderItemAborts : Obligations.TruncatedHeaderItemAborts := by
  rintro i k s (⟨hi, hp, hnone, rfl⟩ | ⟨hi, hp, hpos, rfl⟩)
  · have hfit : bytesFit 1 s = false := (bytesFit_false_iff 1).2 (by simp [ByteReader.len, hnone])
    have hraise := (raise_parsed (hp.imp_right .inl)).state
    obtain rfl | ⟨b, rfl⟩ := hi
    · exact ⟨_, by rw [exec, execExtCont, inField, if_pos hp, takeBytes_underrun hfit], hraise⟩
    · exact ⟨_, by rw [exec, execExtLast, inField, if_pos hp, takeBytes_underrun hfit], hraise⟩
  · obtain ⟨rfl, hend⟩ | ⟨c, p, u, d, rfl, hend⟩ := hi
    · exact ⟨_, exec_seihdrMatch hp, (takeSignature_truncated hp 0xB5 0x0031 0x47413934 3 hpos hend).state⟩
    · exact ⟨_, exec_seihdrMismatch hp c p u d, (takeSignature_truncated hp c p u d hpos hend).state⟩

end Sys2Proof.Machine
end

section
/-! PROOFS. Single entries of a caption buffer (44_caption_decoder R214 to R224, R231): what an entry whose bits are all
there consumes and collects, and where an item with bits missing stops. -/

namespace Sys2Proof.Machine

variable {s : State}

/-! ## What an entry leaves -/

/-- Past its 24 bits and with its registers written, an entry goes on to the next one (R214, R219). -/
theorem nextEntry_consumed {w : CaptionRegs} (hw : KeepsLoop s w) :
    nextEntry ((s.moveBit 24).setW w) = s.pastEntry w := by
  obtain ⟨hi, hcount, -⟩ := hw
  simp only [nextEntry, State.pastEntry, State.setW_w, hi, hcount]
  rfl

theorem nextEntry_withText (s : State) (a : List CodePoint) (es : List Event) :
    nextEntry (s.withText a es) = (nextEntry s).withText a es := rfl

theorem nextEntry_setAcc (s : State) (a : List CodePoint) : nextEntry (s.setAcc a) = (nextEntry s).setAcc a := rfl

/-- The working registers after the reads of a field-1 entry (R218). -/
def State.field1Regs (s : State) (d1 d2 : BitVec 7) : CaptionRegs :=
  { s.w with ccValid := 1, ccType := 0, ccData1 := d1, ccData2 := d2 }

theorem field1Regs_keepsLoop (s : State) (d1 d2 : BitVec 7) : KeepsLoop s (s.field1Regs d1 d2) := ⟨rfl, rfl, rfl⟩

/-- A field-1 entry whose bits are all there is read into its registers. -/
theorem field1Entry_fits (h : s.br.pos + 24 ≤ 8 * s.br.src.length) (d1 d2 : BitVec 7) (k : State → State) :
    field1Entry d1 d2 s k = k ((s.moveBit 24).setW (s.field1Regs d1 d2)) :=
  takeBits_fits field1Widths s h _

theorem otherEntry_fits (h : s.br.pos + 24 ≤ 8 * s.br.src.length) (t : BitVec 2) :
    otherEntry t s = s.pastEntry { s.w with ccValid := 1, ccType := t } := by
  rw [otherEntry, takeBits_fits otherWidths s h]
  exact nextEntry_consumed ⟨rfl, rfl, rfl⟩

/-- Settles O44: the bits of the class are consumed, its flags are written, and the next entry follows. -/
theorem noEffectEntriesConsumeOnly : Obligations.NoEffectEntriesConsumeOnly := by
  intro mk t p1 d1 p2 d2 s hp h
  refine ⟨?_, ?_, ?_, ?_, ?_⟩
  · rw [exec, execEntryInvalid, inPhase_eq hp, takeBits_fits invalidWidths s h]
    exact congrArg _ (nextEntry_consumed ⟨rfl, rfl, rfl⟩)
  · rw [exec, execEntryOther1, inPhase_eq hp, otherEntry_fits h]
  · rw [exec, execEntryOther2, inPhase_eq hp, otherEntry_fits h]
  · rw [exec, execEntryOther3, inPhase_eq hp, otherEntry_fits h]
  · rw [exec, execPairPad, inPhase_eq hp, field1Entry_fits h, nextEntry_consumed (field1Regs_keepsLoop s 0 0)]
    rfl

/-! ## Text of a pair -/

theorem toNat_dataByte (d : BitVec 7) : (dataByte d).toNat = d.toNat :=
  BitVec.toNat_setWidth_of_le (by decide)

theorem lookupBasic_dataByte_index {d : BitVec 7} (h : 0x20 ≤ d.toNat) :
    lookupBasic (dataByte d) = some (basicTable (d.toNat - 0x20)) := by
  have hd := toNat_dataByte d
  rw [lookupBasic_inRange (by omega) (by omega), hd]

/-- A special pair collects the entry at its low four bits (R222). -/
theorem specialPair_eq (d2 : BitVec 7) (s : State) :
    specialPair d2 s = s.setAcc (s.acc ++ [specialTable (d2.toNat % 16)]) := by
  rw [specialPair, lookupSpecial, specialIndex_eq_mod, toNat_dataByte]
  rfl

/-- A basic pair whose second value is 0 collects one character (R224). -/
theorem basicPair_one {d1 : BitVec 7} (h1 : 0x20 ≤ d1.toNat) (s : State) (k : State → State) :
    basicPair d1 0 s k = k (s.setAcc (s.acc ++ [basicTable (d1.toNat - 0x20)])) := by
  simp only [basicPair, getBasicChar, lookupBasic_dataByte_index h1, if_true]
  rfl

/-- A basic pair with two values that have entries collects both, in order (R224). -/
theorem basicPair_two {d1 d2 : BitVec 7} (h1 : 0x20 ≤ d1.toNat) (h2 : 0x20 ≤ d2.toNat) (s : State)
    (k : State → State) :
    basicPair d1 d2 s k =
      k (s.setAcc (s.acc ++ [basicTable (d1.toNat - 0x20), basicTable (d2.toNat - 0x20)])) := by
  have hne : d2 ≠ 0 := by bv_omega
  simp only [basicPair, getBasicChar, lookupBasic_dataByte_index h1, lookupBasic_dataByte_index h2, if_neg hne,
    appendChar, State.setAcc_acc, List.append_assoc]
  rfl

/-- Settles O45: the special pair's entry is collected past the 24 bits. -/
theorem specialPairAppends : Obligations.SpecialPairAppends := by
  intro mk p1 p2 k s hp h
  have hvalue : ∀ k : BitVec 4, 0b011#3 ++ k = BitVec.ofNat 7 (0x30 + k.toNat) := by decide
  have hindex : ∀ k : BitVec 4, (0b011#3 ++ k).toNat % 16 = k.toNat := by decide
  rw [exec, execPairSpecial, inPhase_eq hp, field1Entry_fits h, specialPair_eq, hindex, hvalue, nextEntry_setAcc,
    nextEntry_consumed (field1Regs_keepsLoop ..)]
  rfl

/-- Settles O46: the control pair's flush and event come past the 24 bits. -/
theorem controlPairFlushesAndEmits : Obligations.ControlPairFlushesAndEmits := by
  intro mk p1 d1 p2 d2 s _ hp h
  rw [exec, execPairControl, inPhase_eq hp, field1Entry_fits h, controlPair_eq,
    nextEntry_withText, nextEntry_consumed (field1Regs_keepsLoop ..), List.append_assoc, BitVec.ofNat_toNat,
    BitVec.ofNat_toNat]
  rfl

/-- Settles O47: the lookups of a basic pair have entries. -/
theorem basicPairsAppend : Obligations.BasicPairsAppend := by
  intro mk p1 d1 p2 d2 s hp h h1
  refine ⟨?_, fun h2 => ?_, fun h2 _ => ?_⟩
  · rw [exec, execPairBasic1, inPhase_eq hp, field1Entry_fits h, basicPair_one h1, nextEntry_setAcc,
      nextEntry_consumed (field1Regs_keepsLoop ..)]
    rfl
  · rw [exec, execPairBasic2A, inPhase_eq hp, field1Entry_fits h, basicPair_two h1 (by omega), nextEntry_setAcc,
      nextEntry_consumed (field1Regs_keepsLoop ..)]
    rfl
  · rw [exec, execPairBasic2B, inPhase_eq hp, field1Entry_fits h, basicPair_two h1 h2, nextEntry_setAcc,
      nextEntry_consumed (field1Regs_keepsLoop ..)]
    rfl

/-! ## An item with bits missing -/

/-- An item of `CC_PARSE` first consumes the widths of its class, which are all its bits (R213, R216 to R218). -/
theorem exec_eq_takeBits {i : Instr} {f : ItemFormat} {bs : Source} {ws : List Nat} (he : encode i = some (f, bs))
    (hws : captionWidths i = some ws) :
    (f = .ccHdr16 ∨ f = .entry24) ∧ ws.sum = 8 * f.bytes ∧
      ∃ k, ∀ s, exec i s = inFormat f s fun s => takeBits ws s k := by
  obtain ⟨v, he⟩ := itemValue_of_encode he
  cases i <;> simp only [captionWidths, Option.some.injEq, reduceCtorEq] at hws <;> subst hws <;>
    simp only [itemValue, Option.some.injEq, Prod.mk.injEq] at he <;> obtain ⟨rfl, -⟩ := he
  case ccHdr => exact ⟨.inl rfl, rfl, _, fun s => by rw [exec, execCcHdr, inPhase_ccHeader]⟩
  case entryInvalid => exact ⟨.inr rfl, rfl, _, fun s => by rw [exec, execEntryInvalid, inPhase_ccEntry]⟩
  case entryOther1 => exact ⟨.inr rfl, rfl, _, fun s => by rw [exec, execEntryOther1, inPhase_ccEntry]; rfl⟩
  case entryOther2 => exact ⟨.inr rfl, rfl, _, fun s => by rw [exec, execEntryOther2, inPhase_ccEntry]; rfl⟩
  case entryOther3 => exact ⟨.inr rfl, rfl, _, fun s => by rw [exec, execEntryOther3, inPhase_ccEntry]; rfl⟩
  case pairPad => exact ⟨.inr rfl, rfl, _, fun s => by rw [exec, execPairPad, inPhase_ccEntry]; rfl⟩
  case pairSpecial => exact ⟨.inr rfl, rfl, _, fun s => by rw [exec, execPairSpecial, inPhase_ccEntry]; rfl⟩
  case pairControl => exact ⟨.inr rfl, rfl, _, fun s => by rw [exec, execPairControl, inPhase_ccEntry]; rfl⟩
  case pairBasic1 => exact ⟨.inr rfl, rfl, _, fun s => by rw [exec, execPairBasic1, inPhase_ccEntry]; rfl⟩
  case pairBasic2A => exact ⟨.inr rfl, rfl, _, fun s => by rw [exec, execPairBasic2A, inPhase_ccEntry]; rfl⟩
  case pairBasic2B => exact ⟨.inr rfl, rfl, _, fun s => by rw [exec, execPairBasic2B, inPhase_ccEntry]; rfl⟩
  case pairIllegal => exact ⟨.inr rfl, rfl, _, fun s => by rw [exec, execPairIllegal, inPhase_ccEntry]; rfl⟩

/-- The phases of `CC_PARSE` (10_state R29). -/
def State.InCaption (s : State) : Prop := s.phase = .ccHeader ∨ s.phase = .ccEntry ∨ s.phase = .ccFinal

theorem inCaption_of_phaseFormat {f : ItemFormat} (hf : f = .ccHdr16 ∨ f = .entry24) (h : phaseFormat s.phase = some f) :
    s.InCaption := by
  unfold State.InCaption
  cases hp : s.phase <;> rcases hf with rfl | rfl <;> simp [hp, phaseFormat] at h ⊢

/-- Settles O49: the item's widths are consumed up to the first that does not fit, and there the fault is taken. -/
theorem truncatedItemAborts : Obligations.TruncatedItemAborts := by
  intro i f bs ws s he hp hws hpos hend
  obtain ⟨hf, hsum, k, hexec⟩ := exec_eq_takeBits he hws
  have hphase : s.InCaption := inCaption_of_phaseFormat hf hp
  have hraise := raise_caption (s := s.moveBit (admitted ws (8 * s.br.len - s.br.pos))) hphase .bitUnderrun
  rw [hexec, inFormat, if_pos hp, takeBits_admitted (by rwa [hsum]) hpos, hraise]
  exact ⟨_, rfl, rfl⟩

end Sys2Proof.Machine
end

section
/-! PROOFS. `CC_PARSE` as one reading of its buffer's bytes (44_caption_decoder R229, R230): how a transaction ends is a
function of those bytes and the timestamp, and the statements about whole buffers are facts about that function. -/

namespace Sys2Proof.Machine

variable {s t u : State}

/-! ## The reading of bytes -/

/-- How `CC_PARSE` ends on the bytes it is given: the events, the fault it takes if any, and the bits consumed. -/
structure CaptionReading where
  events : List Event
  cause : Cause
  consumed : Nat

/-- The reading `r` after `n` bits that were consumed before it with the events `es`. -/
def CaptionReading.after (r : CaptionReading) (n : Nat) (es : List Event) : CaptionReading :=
  ⟨es ++ r.events, r.cause, n + r.consumed⟩

@[simp] theorem CaptionReading.after_events (r : CaptionReading) (n : Nat) (es : List Event) :
    (r.after n es).events = es ++ r.events := rfl
@[simp] theorem CaptionReading.after_consumed (r : CaptionReading) (n : Nat) (es : List Event) :
    (r.after n es).consumed = n + r.consumed := rfl

/-- The widths of an entry, by its first byte (R216 to R218). -/
def entryWidths (head : Byte) : List Nat :=
  if head &&& 0x04 = 0 then invalidWidths else if head &&& 0x03 ≠ 0 then otherWidths else field1Widths

/-- `n` entries, with `acc` collected before them, and the final flush (R214, R227, R231). -/
def entriesReading (ts : Timestamp) : Nat → Source → List CodePoint → CaptionReading
  | 0, _, acc => ⟨textEvents acc ts, .none, 0⟩
  | n + 1, bs, acc =>
    if bs.length < 3 then ⟨[], .bitUnderrun, admitted (entryWidths (srcByte bs 0)) (8 * bs.length)⟩
    else
      match byteEntry ts (srcByte bs 0) (srcByte bs 1) (srcByte bs 2) acc with
      | none => ⟨[], .tableIndexRange, 24⟩
      | some (a, es) => (entriesReading ts n (bs.drop 3) a).after 24 es

/-- `CC_PARSE` with a positive size as a function of buffer and timestamp (R229, R234). -/
def captionReading (ts : Timestamp) (buffer : Source) : CaptionReading :=
  if buffer.length < 2 then ⟨[], .bitUnderrun, admitted headerWidths (8 * buffer.length)⟩
  else (entriesReading ts (byteCount buffer) (buffer.drop 2) []).after 16 []

theorem entryWidths_sum (head : Byte) : (entryWidths head).sum = 24 := by
  unfold entryWidths
  split_ifs <;> rfl

section
variable {ts : Timestamp} {n : Nat} {bs : Source} {acc : List CodePoint}

theorem entriesReading_short (h : bs.length < 3) : entriesReading ts (n + 1) bs acc =
    ⟨[], .bitUnderrun, admitted (entryWidths (srcByte bs 0)) (8 * bs.length)⟩ := if_pos h

theorem entriesReading_fault (h : 3 ≤ bs.length)
    (he : byteEntry ts (srcByte bs 0) (srcByte bs 1) (srcByte bs 2) acc = none) :
    entriesReading ts (n + 1) bs acc = ⟨[], .tableIndexRange, 24⟩ := by
  rw [entriesReading, if_neg (Nat.not_lt.2 h), he]

theorem entriesReading_entry {a : List CodePoint} {es : List Event} (h : 3 ≤ bs.length)
    (he : byteEntry ts (srcByte bs 0) (srcByte bs 1) (srcByte bs 2) acc = some (a, es)) :
    entriesReading ts (n + 1) bs acc = (entriesReading ts n (bs.drop 3) a).after 24 es := by
  rw [entriesReading, if_neg (Nat.not_lt.2 h), he]

/-- The reading of `n + 1` entries, by the first: it is cut short, its lookup faults, or the others follow it. -/
theorem entriesReading_succ_cases (ts : Timestamp) (n : Nat) (bs : Source) (acc : List CodePoint) :
    (bs.length < 3 ∧ entriesReading ts (n + 1) bs acc =
      ⟨[], .bitUnderrun, admitted (entryWidths (srcByte bs 0)) (8 * bs.length)⟩) ∨
    (3 ≤ bs.length ∧ byteEntry ts (srcByte bs 0) (srcByte bs 1) (srcByte bs 2) acc = none ∧
      entriesReading ts (n + 1) bs acc = ⟨[], .tableIndexRange, 24⟩) ∨
    (∃ a es, 3 ≤ bs.length ∧ byteEntry ts (srcByte bs 0) (srcByte bs 1) (srcByte bs 2) acc = some (a, es) ∧
      entriesReading ts (n + 1) bs acc = (entriesReading ts n (bs.drop 3) a).after 24 es) := by
  rcases Nat.lt_or_ge bs.length 3 with h | h
  · exact .inl ⟨h, entriesReading_short h⟩
  · cases he : byteEntry ts (srcByte bs 0) (srcByte bs 1) (srcByte bs 2) acc with
    | none => exact .inr (.inl ⟨h, rfl, entriesReading_fault h he⟩)
    | some p => exact .inr (.inr ⟨p.1, p.2, h, rfl, entriesReading_entry h he⟩)

end

/-! ### Bits consumed -/

theorem admitted_le (ws : List Nat) (left : Nat) : admitted ws left ≤ left := by
  induction ws generalizing left with
  | nil => exact Nat.zero_le _
  | cons n ns ih =>
    rw [admitted]
    split
    · have := ih (left - n)
      omega
    · exact Nat.zero_le _

theorem entriesReading_consumed_le (ts : Timestamp) (n : Nat) (bs : Source) (acc : List CodePoint) :
    (entriesReading ts n bs acc).consumed ≤ 8 * bs.length := by
  induction n generalizing bs acc with
  | zero => exact Nat.zero_le _
  | succ n ih =>
    obtain ⟨-, hr⟩ | ⟨h, -, hr⟩ | ⟨a, es, h, -, hr⟩ := entriesReading_succ_cases ts n bs acc
    · rw [hr]
      exact admitted_le _ _
    · rw [hr]
      exact Nat.mul_le_mul_left 8 h
    · have htail := ih (bs.drop 3) a
      rw [List.length_drop] at htail
      rw [hr, CaptionReading.after_consumed]
      omega

theorem captionReading_consumed_le (ts : Timestamp) (buffer : Source) :
    (captionReading ts buffer).consumed ≤ 8 * buffer.length := by
  unfold captionReading
  split
  · exact admitted_le _ _
  · have htail := entriesReading_consumed_le ts (byteCount buffer) (buffer.drop 2) []
    rw [List.length_drop] at htail
    rw [CaptionReading.after_consumed]
    omega

/-! ### Whole and truncated buffers -/

/-- Where the bytes of all entries are there, the reading is the fold of the claims. -/
theorem entriesReading_whole (ts : Timestamp) {n : Nat} {bs : Source} (acc : List CodePoint) (h : 3 * n ≤ bs.length) :
    entriesReading ts n bs acc =
        ⟨(byteEntries ts n bs acc).events, if (byteEntries ts n bs acc).complete then .none else .tableIndexRange,
          24 * (byteEntries ts n bs acc).entries⟩ ∧
      ((byteEntries ts n bs acc).complete = true → (byteEntries ts n bs acc).entries = n) := by
  induction n generalizing bs acc with
  | zero => exact ⟨rfl, fun _ => rfl⟩
  | succ n ih =>
    match bs, h with
    | b0 :: b1 :: b2 :: bs, h =>
      have hlength : 3 ≤ (b0 :: b1 :: b2 :: bs).length := by simp
      have hbytes : byteEntry ts (srcByte (b0 :: b1 :: b2 :: bs) 0) (srcByte (b0 :: b1 :: b2 :: bs) 1)
        (srcByte (b0 :: b1 :: b2 :: bs) 2) acc = byteEntry ts b0 b1 b2 acc := rfl
      cases he : byteEntry ts b0 b1 b2 acc with
      | none =>
        rw [entriesReading_fault hlength (hbytes.trans he), byteEntries, he]
        exact ⟨rfl, fun hfalse => nomatch hfalse⟩
      | some p =>
        obtain ⟨a, es⟩ := p
        obtain ⟨htail, hentries⟩ := ih (bs := bs) a (by simp at h; omega)
        rw [entriesReading_entry hlength (hbytes.trans he), byteEntries, he]
        refine ⟨?_, fun hcomplete => congrArg (· + 1) (hentries hcomplete)⟩
        have hdrop : (b0 :: b1 :: b2 :: bs).drop 3 = bs := rfl
        rw [hdrop, htail, CaptionReading.after, Nat.mul_succ, Nat.add_comm]

theorem entriesReading_truncated (ts : Timestamp) {n : Nat} {bs : Source} (acc : List CodePoint)
    (h : bs.length < 3 * n) :
    (entriesReading ts n bs acc).cause = .bitUnderrun ∨ (entriesReading ts n bs acc).cause = .tableIndexRange := by
  induction n generalizing bs acc with
  | zero => exact absurd h (Nat.not_lt_zero _)
  | succ n ih =>
    obtain ⟨-, hr⟩ | ⟨-, -, hr⟩ | ⟨a, es, h3, -, hr⟩ := entriesReading_succ_cases ts n bs acc
    · exact .inl (by rw [hr])
    · exact .inr (by rw [hr])
    · rw [hr]
      exact ih a (by rw [List.length_drop]; omega)

theorem captionReading_truncated (ts : Timestamp) {buffer : Source} (h : buffer.length < 2 + 3 * byteCount buffer) :
    (captionReading ts buffer).cause = .bitUnderrun ∨ (captionReading ts buffer).cause = .tableIndexRange := by
  unfold captionReading
  split
  · exact .inl rfl
  · exact entriesReading_truncated ts [] (by rw [List.length_drop]; omega)

/-! ### Events -/

/-- An entry collects text without an event, or flushes what is collected and emits a control event (R216 to R224). -/
theorem byteEntry_events {ts : Timestamp} {b0 b1 b2 : Byte} {acc a : List CodePoint} {es : List Event}
    (h : byteEntry ts b0 b1 b2 acc = some (a, es)) :
    es = [] ∨ (a = [] ∧ ∃ x y, es = textEvents acc ts ++ [.control x y ts]) := by
  unfold byteEntry bytePair at h
  split_ifs at h with hinvalid hother hpad hspecial hcontrol hone hlow <;> cases h
  · exact .inl rfl
  · exact .inl rfl
  · exact .inl rfl
  · exact .inl rfl
  · exact .inr ⟨rfl, _, _, rfl⟩
  · exact .inl rfl
  · exact .inl rfl

theorem textEvents_nil (ts : Timestamp) : textEvents [] ts = [] := rfl

theorem textEvents_length_le (acc : List CodePoint) (ts : Timestamp) : (textEvents acc ts).length ≤ 1 := by
  unfold textEvents
  split <;> simp

/-- An event as one call emits it: text or a control pair with the call's timestamp (R223, R225). -/
def Event.IsAt (ts : Timestamp) (e : Event) : Prop := (∃ c, e = .text c ts) ∨ ∃ x y, e = .control x y ts

theorem textEvents_isAt (acc : List CodePoint) (ts : Timestamp) : ∀ e ∈ textEvents acc ts, e.IsAt ts := by
  intro e he
  unfold textEvents at he
  split at he
  · cases he
  · exact .inl ⟨acc, List.mem_singleton.1 he⟩

/-- A control event separates the text before it from what follows. -/
theorem noAdjacentText_control (acc : List CodePoint) (ts : Timestamp) (x y : Byte) {es : List Event}
    (h : noAdjacentText es = true) : noAdjacentText (textEvents acc ts ++ .control x y ts :: es) = true := by
  have hcontrol : noAdjacentText (.control x y ts :: es) = true := by
    cases es with
    | nil => rfl
    | cons e es => exact h
  unfold textEvents
  split
  · exact hcontrol
  · exact hcontrol

/-- What R228 and R232 say of the events `es` of `n` entries, with the text that stands before them. -/
structure OrderedEvents (ts : Timestamp) (acc : List CodePoint) (n : Nat) (es : List Event) : Prop where
  length : es.length ≤ (textEvents acc ts).length + n
  separate : noAdjacentText es = true
  isAt : ∀ e ∈ es, e.IsAt ts

theorem OrderedEvents.nil (ts : Timestamp) (acc : List CodePoint) (n : Nat) : OrderedEvents ts acc n [] :=
  ⟨Nat.zero_le _, rfl, fun _ he => nomatch he⟩

/-- The final flush emits the one text that is left. -/
theorem OrderedEvents.flush (ts : Timestamp) (acc : List CodePoint) : OrderedEvents ts acc 0 (textEvents acc ts) := by
  refine ⟨le_rfl, ?_, textEvents_isAt acc ts⟩
  unfold textEvents
  split <;> rfl

theorem OrderedEvents.collect {ts : Timestamp} {acc a : List CodePoint} {n : Nat} {es : List Event}
    (h : OrderedEvents ts a n es) : OrderedEvents ts acc (n + 1) es := by
  have hone := textEvents_length_le a ts
  have hlength := h.length
  exact ⟨by omega, h.separate, h.isAt⟩

theorem OrderedEvents.control {ts : Timestamp} {n : Nat} {es : List Event} (h : OrderedEvents ts [] n es)
    (acc : List CodePoint) (x y : Byte) :
    OrderedEvents ts acc (n + 1) (textEvents acc ts ++ .control x y ts :: es) := by
  have hlength := h.length
  rw [textEvents_nil, List.length_nil] at hlength
  refine ⟨?_, noAdjacentText_control acc ts x y h.separate, fun e he => ?_⟩
  · rw [List.length_append, List.length_cons]
    omega
  · obtain he | he | ⟨-, he⟩ := List.mem_append.1 he
    · exact textEvents_isAt acc ts e he
    · exact .inr ⟨x, y, rfl⟩
    · exact h.isAt e ‹_›

theorem entriesReading_ordered (ts : Timestamp) (n : Nat) (bs : Source) (acc : List CodePoint) :
    OrderedEvents ts acc n (entriesReading ts n bs acc).events := by
  induction n generalizing bs acc with
  | zero => exact .flush ts acc
  | succ n ih =>
    obtain ⟨-, hr⟩ | ⟨-, -, hr⟩ | ⟨a, es, -, he, hr⟩ := entriesReading_succ_cases ts n bs acc
    · rw [hr]
      exact .nil ..
    · rw [hr]
      exact .nil ..
    · rw [hr, CaptionReading.after_events]
      have htail := ih (bs.drop 3) a
      obtain rfl | ⟨rfl, x, y, rfl⟩ := byteEntry_events he
      · exact htail.collect
      · rw [List.append_assoc]
        exact htail.control acc x y

theorem captionReading_ordered (ts : Timestamp) (buffer : Source) :
    OrderedEvents ts [] (byteCount buffer) (captionReading ts buffer).events := by
  unfold captionReading
  split
  · exact .nil ..
  · exact entriesReading_ordered ts _ _ []

/-! ## The bits of an entry as its bytes -/

/-- The Bit Reader stands at a byte boundary and `bs` is what it has still to read. -/
def State.AtBytes (s : State) (bs : Source) : Prop := ∃ pre, s.br.src = pre ++ bs ∧ s.br.pos = 8 * pre.length

theorem srcByte_append_right (pre bs : Source) (k : Nat) : srcByte (pre ++ bs) (pre.length + k) = srcByte bs k := by
  rw [srcByte, List.getD_append_right _ _ _ _ (Nat.le_add_right _ _), Nat.add_sub_cancel_left, srcByte]

section
variable {bs : Source} (h : s.AtBytes bs)
include h

theorem State.AtBytes.bitsLeft : 8 * s.br.len = s.br.pos + 8 * bs.length := by
  obtain ⟨pre, hsrc, hpos⟩ := h
  rw [BitReader.len, hsrc, hpos, List.length_append, Nat.mul_add]

theorem State.AtBytes.moveBit {n : Nat} (hn : n ≤ bs.length) : (s.moveBit (8 * n)).AtBytes (bs.drop n) := by
  obtain ⟨pre, hsrc, hpos⟩ := h
  refine ⟨pre ++ bs.take n, ?_, ?_⟩
  · rw [State.moveBit_br, hsrc, List.append_assoc, List.take_append_drop]
  · rw [State.moveBit_br, hpos, List.length_append, List.length_take_of_le hn, Nat.mul_add]

/-- A bit still to be read is a bit of its byte. -/
theorem State.AtBytes.bit (k r : Nat) {p : Nat} (hr : r < 8) (hp : p = 8 * k + r) :
    srcBit s.br.src (s.br.pos + p) = (srcByte bs k).getLsbD (7 - r) := by
  obtain ⟨pre, hsrc, hpos⟩ := h
  have hbyte : srcByte s.br.src (pre.length + k) = srcByte bs k := by rw [hsrc, srcByte_append_right]
  rw [hp, hpos, ← Nat.add_assoc, ← Nat.mul_add, srcBit_of_byte _ _ hr, hbyte]

/-- The low `m` bits of a byte still to be read. -/
theorem State.AtBytes.lowBits (k : Nat) {m p : Nat} (hm : m ≤ 8) (hp : p = 8 * k + (8 - m)) :
    srcBits s.br.src (s.br.pos + p) m = (srcByte bs k).toNat % 2 ^ m := by
  obtain ⟨pre, hsrc, hpos⟩ := h
  have hbyte : srcByte s.br.src (pre.length + k) = srcByte bs k := by rw [hsrc, srcByte_append_right]
  have hsplit := srcBits_add s.br.src (8 * (pre.length + k)) (8 - m) m
  rw [Nat.sub_add_cancel hm, srcBits_byte, hbyte] at hsplit
  rw [hsplit, Nat.mul_add_mod_self_right, Nat.mod_eq_of_lt (srcBits_lt _ _ _), hp, hpos, Nat.mul_add, Nat.add_assoc]

end

/-! ### Pairs -/

theorem dataByte_eq_zero_iff : ∀ d : BitVec 7, dataByte d = 0 ↔ d = 0 := by decide

theorem dataByte_eq_special_iff : ∀ d : BitVec 7, dataByte d = 0x11 ↔ d = 0x11 := by decide

theorem dataByte_and_special_iff : ∀ d : BitVec 7, dataByte d &&& 0x70 = 0x30 ↔ d &&& 0x70 = 0x30 := by decide

theorem dataByte_lt_iff : ∀ d : BitVec 7, dataByte d < 0x20 ↔ d < 0x20 := by decide

/-- A byte's low seven bits as a data value (30_encoding R96, R100). -/
theorem dataByte_ofNat : ∀ x : Byte, dataByte (BitVec.ofNat 7 (x.toNat % 2 ^ 7)) = x &&& 0x7F := by decide

/-- Goes on with the text and events of an entry, or faults if it has none. -/
def afterText (o : Option (List CodePoint × List Event)) (s : State) (k : State → State) : State :=
  match o with
  | none => raise .tableIndexRange s
  | some (a, es) => k (s.withText a es)

theorem afterText_some (a : List CodePoint) (es : List Event) (s : State) (k : State → State) :
    afterText (some (a, es)) s k = k (s.withText a es) := rfl

/-- A fault discards the text collected (60_exceptions R280). -/
theorem raise_setAcc (hp : s.InCaption) (c : Cause) (a : List CodePoint) : raise c (s.setAcc a) = raise c s := by
  rw [raise_caption hp, raise_caption (s := s.setAcc a) hp]
  rfl

/-- The pair map of the machine is the one of the claims (R220 to R224). -/
theorem interpretPair_eq_bytePair (hp : s.InCaption) (d1 d2 : BitVec 7) (k : State → State) :
    interpretPair d1 d2 s k = afterText (bytePair s.w.ts (dataByte d1) (dataByte d2) s.acc) s k := by
  unfold interpretPair bytePair
  simp only [dataByte_eq_zero_iff, dataByte_eq_special_iff, dataByte_and_special_iff, dataByte_lt_iff, toNat_dataByte]
  split_ifs with hpad hspecial hcontrol hone hlow
  · rw [afterText_some, withText_nil]
    rfl
  · have hindex : (dataByte d2 &&& 0x0F).toNat = d2.toNat % 16 := by
      rw [← toNat_dataByte d2]
      exact specialIndex_eq_mod _
    rw [specialPair_eq, afterText_some, withText_nil, hindex]
  · rw [controlPair_eq, afterText_some]
  · subst hone
    rw [basicPair_one (Nat.le_of_not_lt hcontrol), afterText_some, withText_nil]
  · rw [basicPair_illegal (BitVec.not_lt.1 hcontrol) (by bv_omega) hlow]
    exact raise_setAcc hp _ _
  · rw [basicPair_two (Nat.le_of_not_lt hcontrol) (Nat.le_of_not_lt hlow), afterText_some, withText_nil]

/-! ### Entries -/

theorem headValid_eq_false_iff : ∀ x : Byte, x.getLsbD 2 = false ↔ x &&& 0x04 = 0 := by decide

theorem headType_eq_zero_iff : ∀ x : Byte, x.toNat % 2 ^ 2 = 0 ↔ x &&& 0x03 = 0 := by decide

/-- One iteration of the loop consumes the widths that the entry's first byte names and then does what its three bytes
say (R230). -/
theorem parseEntry_bytes {bs : Source} (hp : s.phase = .ccEntry) (h : s.AtBytes bs) (k : State → State) :
    ∃ f, parseEntry s k = takeBits (entryWidths (srcByte bs 0)) s f ∧
      ∀ u : State, u.phase = .ccEntry → ∃ w, KeepsLoop u w ∧
        f u = afterText (byteEntry u.w.ts (srcByte bs 0) (srcByte bs 1) (srcByte bs 2) u.acc) (u.setW w) k := by
  have hvalid : srcBit s.br.src (s.br.pos + 5) = (srcByte bs 0).getLsbD 2 := h.bit 0 5 (by decide) rfl
  have htype : srcBits s.br.src (s.br.pos + 6) 2 = (srcByte bs 0).toNat % 2 ^ 2 := h.lowBits 0 (by decide) rfl
  have hdata1 : srcBits s.br.src (s.br.pos + 9) 7 = (srcByte bs 1).toNat % 2 ^ 7 := h.lowBits 1 (by decide) rfl
  have hdata2 : srcBits s.br.src (s.br.pos + 17) 7 = (srcByte bs 2).toNat % 2 ^ 7 := h.lowBits 2 (by decide) rfl
  rw [parseEntry_eq hp, hvalid, htype, hdata1, hdata2]
  simp only [headValid_eq_false_iff, ne_eq, headType_eq_zero_iff, entryWidths, byteEntry, ← dataByte_ofNat]
  generalize BitVec.ofNat 7 ((srcByte bs 1).toNat % 2 ^ 7) = d1
  generalize BitVec.ofNat 7 ((srcByte bs 2).toNat % 2 ^ 7) = d2
  split_ifs with hinvalid hother
  · exact ⟨_, rfl, fun u _ => ⟨{ u.w with ccValid := 0 }, ⟨rfl, rfl, rfl⟩, by
      rw [afterText_some, withText_nil]; rfl⟩⟩
  · exact ⟨_, rfl, fun u hu => ⟨u.field1Regs d1 d2, field1Regs_keepsLoop u d1 d2,
      interpretPair_eq_bytePair (s := u.setW (u.field1Regs d1 d2)) (.inr (.inl hu)) d1 d2 k⟩⟩
  · exact ⟨_, rfl, fun u _ => ⟨{ u.w with ccValid := 1, ccType := _ }, ⟨rfl, rfl, rfl⟩, by
      rw [afterText_some, withText_nil]; rfl⟩⟩

/-! ## What the machine does is that reading -/

/-- `RES` for a transaction of `CC_PARSE` that ends without a fault, or with one (R229, R231). -/
def captionResult : Cause → Result
  | .none => ⟨.ok, .none, 0⟩
  | c => ⟨.malformedData, c, 0⟩

/-- `t` is where `CC_PARSE` ends from `s` if the bytes still to be read are read as `r` says; the working registers are left
open, but those of headers only by a fault (60_exceptions R280). -/
structure Captioned (r : CaptionReading) (s t : State) : Prop where
  state : t = { s with
    br := ⟨s.br.src, s.br.pos + r.consumed⟩
    acc := []
    out := s.out ++ r.events
    res := captionResult r.cause
    phase := .idle
    w := t.w
    hdr := t.hdr
    draws := t.draws }
  header : r.cause = .none → t.hdr = s.hdr

/-- The reading from a state further on, but the same in what the transaction keeps. -/
theorem Captioned.of_consumed {r : CaptionReading} {n : Nat} {es : List Event} (h : Captioned r u t)
    (hbr : u.br = ⟨s.br.src, s.br.pos + n⟩) (hout : u.out = s.out ++ es) (hbyr : u.byr = s.byr) (hhdr : u.hdr = s.hdr)
    (hcmds : u.cmds = s.cmds) : Captioned (r.after n es) s t := by
  obtain ⟨hstate, hheader⟩ := h
  refine ⟨hstate.trans ?_, fun hc => (hheader hc).trans hhdr⟩
  simp only [hbr, hout, hbyr, hcmds, CaptionReading.after, Nat.add_assoc, List.append_assoc]

theorem captionResult_fault {c : Cause} (hc : c ≠ .none) : captionResult c = ⟨.malformedData, c, 0⟩ := by
  cases c with
  | none => exact absurd rfl hc
  | bitUnderrun | byteUnderrun | tableIndexRange => rfl

theorem raise_captioned (hp : s.InCaption) {c : Cause} (hc : c ≠ .none) : Captioned ⟨[], c, 0⟩ s (raise c s) := by
  rw [raise_caption hp]
  exact ⟨by rw [List.append_nil, captionResult_fault hc]; rfl, fun hnone => absurd hnone hc⟩

/-- A fault after bits that were consumed. -/
theorem raise_moveBit_captioned (hp : s.InCaption) {c : Cause} (hc : c ≠ .none) (n : Nat) (w : CaptionRegs) :
    Captioned ⟨[], c, n⟩ s (raise c ((s.moveBit n).setW w)) :=
  (raise_captioned (s := (s.moveBit n).setW w) hp hc).of_consumed rfl (List.append_nil _).symm rfl rfl rfl

theorem finishCaption_captioned (hp : s.phase = .ccFinal) :
    Captioned ⟨textEvents s.acc s.w.ts, .none, 0⟩ s (finishCaption s) := by
  obtain ⟨t, hstep, ht⟩ := finalPhaseFlushes s hp
  cases (step_final hp).symm.trans hstep
  have hhdr : (finishCaption s).hdr = s.hdr := flush_hdr s
  refine ⟨?_, fun _ => hhdr⟩
  rw [hhdr]
  exact ht

/-- An item with bits missing ends the transaction at the first read or skip that does not fit. -/
theorem takeBits_captioned {ws : List Nat} {bs : Source} (hp : s.InCaption) (h : s.AtBytes bs)
    (hshort : 8 * bs.length < ws.sum) (k : State → State) :
    Captioned ⟨[], .bitUnderrun, admitted ws (8 * bs.length)⟩ s (takeBits ws s k) := by
  have hleft := h.bitsLeft
  rw [takeBits_admitted (by omega) (by omega), hleft, Nat.add_sub_cancel_left]
  exact raise_moveBit_captioned hp (by decide) _ s.w

/-- The loop with `n` entries left (R214). -/
structure EntriesLeft (n : Nat) (s : State) : Prop where
  phase : s.phase = entryOrFinal s.w.i.toNat s.w.ccCount.toNat
  count : s.w.ccCount.toNat = s.w.i.toNat + n

theorem EntriesLeft.final (h : EntriesLeft 0 s) : s.phase = .ccFinal := by
  rw [h.phase, entryOrFinal, if_neg (by have := h.count; omega)]

theorem EntriesLeft.entry {n : Nat} (h : EntriesLeft (n + 1) s) : s.phase = .ccEntry := by
  rw [h.phase, entryOrFinal, if_pos (by have := h.count; omega)]

theorem EntriesLeft.next {n : Nat} {w : CaptionRegs} (h : EntriesLeft (n + 1) s) (hw : KeepsLoop s w)
    (hu : u.w = w) : EntriesLeft n (nextEntry u) := by
  obtain ⟨hi, hcount, -⟩ := hw
  have hleft := h.count
  have hsucc : (u.w.i + 1).toNat = u.w.i.toNat + 1 :=
    loopCounter_succ (count := u.w.ccCount) (by rw [hu, hi, hcount]; omega)
  refine ⟨congrArg (entryOrFinal · _) hsucc.symm, ?_⟩
  change u.w.ccCount.toNat = (u.w.i + 1).toNat + n
  rw [hsucc, hu, hi, hcount]
  omega

/-- The loop and step 7 end as the reading of the bytes still to be read says. -/
theorem parseEntries_captioned (n : Nat) (s : State) {bs : Source} (hloop : EntriesLeft n s) (h : s.AtBytes bs) :
    Captioned (entriesReading s.w.ts n bs s.acc) s (parseEntries n s) := by
  induction n generalizing s bs with
  | zero => exact finishCaption_captioned hloop.final
  | succ n ih =>
    have hentry := hloop.entry
    have hcaption : s.InCaption := .inr (.inl hentry)
    obtain ⟨f, hparse, hf⟩ := parseEntry_bytes hentry h fun s => parseEntries n (nextEntry s)
    rw [parseEntries, hparse]
    have hsum := entryWidths_sum (srcByte bs 0)
    rcases Nat.lt_or_ge bs.length 3 with hshort | hlength
    · rw [entriesReading_short hshort]
      exact takeBits_captioned hcaption h (by omega) f
    · have hleft := h.bitsLeft
      rw [takeBits_fits _ s (by omega), hsum]
      obtain ⟨w, hw, hu⟩ := hf (s.moveBit 24) hentry
      rw [hu, State.moveBit_w, State.moveBit_acc]
      cases he : byteEntry s.w.ts (srcByte bs 0) (srcByte bs 1) (srcByte bs 2) s.acc with
      | none =>
        rw [entriesReading_fault hlength he]
        exact raise_moveBit_captioned hcaption (by decide) 24 w
      | some p =>
        obtain ⟨a, es⟩ := p
        have hts : (nextEntry (((s.moveBit 24).setW w).withText a es)).w.ts = s.w.ts := hw.2.2
        have htail := ih (nextEntry (((s.moveBit 24).setW w).withText a es)) (hloop.next hw rfl) (h.moveBit hlength)
        rw [hts] at htail
        rw [entriesReading_entry hlength he]
        exact htail.of_consumed rfl rfl rfl rfl rfl

theorem toNat_and_count : ∀ x : Byte, (x &&& 0x1F).toNat = x.toNat % 2 ^ 5 := by decide

/-- Steps 3 to 7 end as the reading of the buffer says. -/
theorem parseCaption_captioned {buffer : Source} (hp : s.phase = .ccHeader) (h : s.AtBytes buffer) (hacc : s.acc = []) :
    Captioned (captionReading s.w.ts buffer) s (parseCaption s) := by
  have hcount : srcBits s.br.src (s.br.pos + 3) 5 = byteCount buffer :=
    (h.lowBits 0 (by decide) rfl).trans (toNat_and_count _).symm
  rw [parseCaption_eq, hcount, captionReading]
  split
  next hshort => exact takeBits_captioned (.inl hp) h (by change _ < 16; omega) _
  next hlong =>
    have hleft := h.bitsLeft
    rw [takeBits_fits headerWidths s (by change _ + 16 ≤ _; omega)]
    have htoNat : (BitVec.ofNat 5 (byteCount buffer)).toNat = byteCount buffer := by
      rw [BitVec.toNat_ofNat, ← hcount, Nat.mod_eq_of_lt (srcBits_lt _ _ 5)]
    have hloop : EntriesLeft (byteCount buffer) (startEntries (BitVec.ofNat 5 (byteCount buffer)) (s.moveBit 16)) :=
      ⟨rfl, htoNat.trans (Nat.zero_add _).symm⟩
    have hentries := parseEntries_captioned _ _ hloop (h.moveBit (n := 2) (by omega))
    have hempty : (startEntries (BitVec.ofNat 5 (byteCount buffer)) (s.moveBit 16)).acc = [] := hacc
    rw [hempty] at hentries
    exact hentries.of_consumed rfl (List.append_nil _).symm rfl rfl rfl

/-! ## The statements -/

section
variable {buffer : Source} {size : SizeWord} {ts : Timestamp}

/-- A `CC_PARSE` with a positive size that is not refused ends as the reading of its buffer says. -/
theorem exec_ccParse_captioned (hs : s.phase = .idle) (hsize : 0 < size.toInt)
    (h : exec (.ccParse buffer size ts) s = .next t) :
    t = { s with
      br := ⟨buffer, (captionReading ts buffer).consumed⟩
      acc := []
      out := s.out ++ (captionReading ts buffer).events
      res := captionResult (captionReading ts buffer).cause
      w := t.w
      hdr := t.hdr
      draws := t.draws } ∧
    ((captionReading ts buffer).cause = .none → t.hdr = s.hdr) := by
  obtain rfl := exec_ccParse_next hs hsize h
  obtain ⟨hstate, hheader⟩ :=
    parseCaption_captioned (s := beginCaption buffer size ts s) rfl ⟨[], rfl, rfl⟩ rfl
  rw [beginCaption_ts, beginCaption_br, Nat.zero_add, ← hs] at hstate
  exact ⟨hstate, hheader⟩

/-- Within `MAX_BUF_BYTES` it is not refused. -/
theorem exec_ccParse_admitted (hs : s.phase = .idle) (hsize : 0 < size.toInt)
    (hlength : buffer.length ≤ Config.maxBufBytes) :
    exec (.ccParse buffer size ts) s = .next (parseCaption (beginCaption buffer size ts s)) := by
  rw [exec_ccParse_positive hs buffer hsize, if_pos ((Config.bufferFits_iff _).2 hlength)]

end

/-- Settles O53: a size that is not positive is tested first. -/
theorem ccParseWithoutSizeDoesNothing : Obligations.CcParseWithoutSizeDoesNothing := by
  intro buffer size ts s hs hsize
  have hnot : sizeNotPositive size = true := decide_eq_true hsize
  rw [exec, execCcParse, whenIdle_idle hs, if_pos hnot]
  rfl

/-- Settles O54: on a whole buffer the reading is the fold over the entries' bytes. -/
theorem ccParseReadsEntriesAsBytes : Obligations.CcParseReadsEntriesAsBytes := by
  intro buffer size ts s hs hsize hmax hwhole r
  have hexec := exec_ccParse_admitted (ts := ts) hs hsize hmax
  obtain ⟨hstate, hheader⟩ := exec_ccParse_captioned hs hsize hexec
  obtain ⟨hentries, hall⟩ := entriesReading_whole ts (n := byteCount buffer) (bs := buffer.drop 2) []
    (by rw [List.length_drop]; omega)
  have hreading : captionReading ts buffer =
      ⟨r.events, if r.complete then .none else .tableIndexRange, 16 + 24 * r.entries⟩ := by
    rw [captionReading, if_neg (by omega), hentries]
    rfl
  rw [hreading] at hstate hheader
  refine ⟨_, hexec, ?_, fun hcomplete => ⟨hheader (if_pos hcomplete), hall hcomplete⟩⟩
  rw [apply_ite captionResult] at hstate
  exact hstate

/-- Settles O56: the reading of a short buffer ends in a fault, within the buffer. -/
theorem ccParseTruncatedIsMalformed : Obligations.CcParseTruncatedIsMalformed := by
  intro buffer size ts s hs hsize hmax hshort
  have hexec := exec_ccParse_admitted (ts := ts) hs hsize hmax
  obtain ⟨hstate, -⟩ := exec_ccParse_captioned hs hsize hexec
  have hcause := captionReading_truncated ts hshort
  have hfault : (captionReading ts buffer).cause ≠ .none := by
    obtain hc | hc := hcause <;> rw [hc] <;> decide
  refine ⟨_, _, hexec, ?_, hcause, ?_, ?_, ?_⟩
  · rw [hstate, captionResult_fault hfault]
  · rw [hstate]
  · rw [hstate]
  · rw [hstate]
    exact captionReading_consumed_le ts buffer

/-- Settles O57: the events of a reading are in order. -/
theorem ccParseEventsOrdered : Obligations.CcParseEventsOrdered := by
  intro buffer size ts s t hs hsize h
  obtain ⟨hstate, -⟩ := exec_ccParse_captioned hs hsize h
  obtain ⟨hlength, hseparate, hat⟩ := captionReading_ordered ts buffer
  rw [textEvents_nil, List.length_nil, Nat.zero_add] at hlength
  rw [hstate]
  exact ⟨_, rfl, hlength, hseparate, hat, rfl, hs, rfl, rfl⟩

/-- Settles O58: both runs end as the one reading of buffer and timestamp says. -/
theorem ccParseForgetsHistory : Obligations.CcParseForgetsHistory := by
  intro buffer z z' ts s s' t t' hs hs' hz hz' h h'
  obtain ⟨hstate, -⟩ := exec_ccParse_captioned hs hz h
  obtain ⟨hstate', -⟩ := exec_ccParse_captioned hs' hz' h'
  rw [hstate, hstate']
  exact ⟨rfl, rfl, _, rfl, rfl⟩

end Sys2Proof.Machine
end

section
/-! PROOFS. The block between transactions (45_host_commands R250, R252, R256; 70_reset_and_hazards R310): which of the
host's commands a step runs, and what `CAN_PARSE` answers. -/

namespace Sys2Proof.Machine

variable {s : State}

/-! ## The host's command list -/

/-- With no command to take the block waits (R310). -/
theorem step_idle_nil (hs : s.phase = .idle) (hcmds : s.cmds = []) : step s = .next s := by
  unfold step
  rw [hs, hcmds]
  rfl

/-- With a command at the head of the list the step is its `exec`, on the state that holds the rest (R250, R252). -/
theorem step_idle_cons {i : Instr} {rest : List Instr} (hs : s.phase = .idle) (hcmds : s.cmds = i :: rest)
    (hcommand : i.isCommand = true) : step s = exec i (s.setCmds rest) := by
  unfold step
  rw [hs, hcmds]
  exact if_pos hcommand

/-- Settles O8: the list is empty, and the block waits, or its head is the command that the step runs. -/
theorem stepTakesHostCommand : Obligations.StepTakesHostCommand :=
  fun _ hs => ⟨step_idle_nil hs, fun _ _ => step_idle_cons hs⟩

/-! ## The capability predicate -/

theorem canParse_iff (formatId : String) : canParse formatId = true ↔ formatId = Config.supportedFormatId :=
  decide_eq_true_iff

theorem exec_canParse_idle (hs : s.phase = .idle) (formatId : String) :
    exec (.canParse formatId) s = .next (answer (boolValue (canParse formatId)) s) := by
  rw [exec, execCanParse, whenIdle_idle hs]

/-- Settles O33: the predicate is the equality of the identifiers, and an answer writes `RES` alone. -/
theorem canParseComparesIdentifiers : Obligations.CanParseComparesIdentifiers := by
  intro formatId s hs
  rw [exec_canParse_idle hs]
  refine ⟨fun heq => ?_, fun hne => ?_⟩
  · rw [(canParse_iff formatId).2 heq]
    rfl
  · rw [Bool.eq_false_iff.2 (mt (canParse_iff formatId).1 hne)]
    rfl

end Sys2Proof.Machine
end

section
/-! PROOFS. A fault status is not sticky (60_exceptions R283): nothing that a host command runs looks at `RES`, and each
way of ending one but `BR.RESET` writes it, so the `RES` found at its start leaves no trace. -/

namespace Sys2Proof.Machine

/-- What `k` answers does not depend on the `RES` it finds. -/
def ForgetsRes {α : Type} (k : State → α) : Prop := ∀ (s : State) (r : Result), k (s.setRes r) = k s

/-! ## The ends of a transaction write `RES` -/

theorem raise_forgetsRes (c : Cause) : ForgetsRes (raise c) := by
  rintro ⟨_, _, _, _, _, _, _, phase, _, _⟩ r
  cases phase <;> rfl

theorem answer_forgetsRes (v : Nat) : ForgetsRes (answer v) := fun _ _ => rfl

theorem answerNoValue_forgetsRes : ForgetsRes answerNoValue := fun _ _ => rfl

theorem flush_setRes (s : State) (r : Result) : flush (s.setRes r) = (flush s).setRes r := by
  by_cases h : s.acc = []
  · rw [flush_empty h, flush_empty (s := s.setRes r) h]
  · rw [flush_text h, flush_text (s := s.setRes r) h]
    rfl

theorem finishCaption_forgetsRes : ForgetsRes finishCaption := by
  intro s r
  rw [finishCaption, flush_setRes]
  rfl

/-! ## What comes before an end hands `RES` on -/

/-- An update that leaves `RES` as it is may come first. -/
theorem ForgetsRes.after {α : Type} {k : State → α} {f : State → State} (hk : ForgetsRes k)
    (hf : ∀ s r, f (s.setRes r) = (f s).setRes r) : ForgetsRes fun s => k (f s) := by
  intro s r
  beta_reduce
  rw [hf, hk]

theorem ForgetsRes.ite {α : Type} {k l : State → α} {p : Prop} [Decidable p] (hk : ForgetsRes k) (hl : ForgetsRes l) :
    ForgetsRes fun s => if p then k s else l s := by
  by_cases hp : p
  · simpa only [if_pos hp] using hk
  · simpa only [if_neg hp] using hl

theorem skipBits_forgetsRes (n : Nat) {k : State → State} (hk : ForgetsRes k) : ForgetsRes fun s => skipBits n s k :=
  fun s r => ite_congr rfl (fun _ => hk (s.moveBit n) r) fun _ => raise_forgetsRes _ s r

theorem readBits_forgetsRes (n : Nat) {k : Nat → State → State} (hk : ∀ v, ForgetsRes (k v)) :
    ForgetsRes fun s => readBits n s k :=
  fun s r => skipBits_forgetsRes n (hk (srcBits s.br.src s.br.pos n)) s r

theorem readBit_forgetsRes {k : Bool → State → State} (hk : ∀ v, ForgetsRes (k v)) : ForgetsRes fun s => readBit s k :=
  fun s r => skipBits_forgetsRes 1 (hk (srcBit s.br.src s.br.pos)) s r

theorem readBytes_forgetsRes (n : Nat) {k : Nat → State → State} (hk : ∀ v, ForgetsRes (k v)) :
    ForgetsRes fun s => readBytes n s k :=
  fun s r => ite_congr rfl (fun _ => hk _ (s.moveByte n) r) fun _ => raise_forgetsRes _ s r

theorem getBasicChar_forgetsRes (x : Byte) {k : CodePoint → State → State} (hk : ∀ c, ForgetsRes (k c)) :
    ForgetsRes fun s => getBasicChar x s k := by
  unfold getBasicChar
  cases lookupBasic x with
  | some c => exact hk c
  | none => exact raise_forgetsRes _

/-! ## `CC_PARSE` -/

section
variable {k : State → State}

/-- Working registers may be written first. -/
theorem ForgetsRes.setW (hk : ForgetsRes k) (w : CaptionRegs → CaptionRegs) : ForgetsRes fun s => k (s.setW (w s.w)) :=
  hk.after fun _ _ => rfl

theorem controlPair_setRes (d1 d2 : BitVec 7) (s : State) (r : Result) :
    controlPair d1 d2 (s.setRes r) = (controlPair d1 d2 s).setRes r := by
  rw [controlPair, flush_setRes]
  rfl

theorem basicPair_forgetsRes (hk : ForgetsRes k) (d1 d2 : BitVec 7) : ForgetsRes fun s => basicPair d1 d2 s k := by
  have append (c : CodePoint) : ForgetsRes fun s => k (appendChar c s) := hk.after fun _ _ => rfl
  refine getBasicChar_forgetsRes _ fun c s r => ite_congr rfl (fun _ => append c s r) fun _ => ?_
  exact getBasicChar_forgetsRes _ append (appendChar c s) r

theorem interpretPair_forgetsRes (hk : ForgetsRes k) (d1 d2 : BitVec 7) :
    ForgetsRes fun s => interpretPair d1 d2 s k :=
  hk.ite (.ite (hk.after fun _ _ => rfl) (.ite (hk.after (controlPair_setRes d1 d2)) (basicPair_forgetsRes hk d1 d2)))

/-- An entry is tested on the flags just read, which `RES` has no part in (44_caption_decoder R215 to R218). -/
theorem parseEntry_forgetsRes (hk : ForgetsRes k) : ForgetsRes fun s => parseEntry s k := by
  unfold parseEntry
  simp only [State.setW_w, validFlag_bit]
  refine skipBits_forgetsRes 5 (readBit_forgetsRes fun v => .ite ?_ ?_)
  · exact (skipBits_forgetsRes 18 hk).setW fun w => { w with ccValid := if v then 1 else 0 }
  refine (readBits_forgetsRes 2 fun t => .ite ?_ ?_).setW fun w => { w with ccValid := if v then 1 else 0 }
  · exact (skipBits_forgetsRes 16 hk).setW fun w => { w with ccType := BitVec.ofNat 2 t }
  refine .setW (skipBits_forgetsRes 1 (readBits_forgetsRes 7 fun d1 => ?_))
    fun w => { w with ccType := BitVec.ofNat 2 t }
  refine .setW (skipBits_forgetsRes 1 (readBits_forgetsRes 7 fun d2 => ?_))
    fun w => { w with ccData1 := BitVec.ofNat 7 d1 }
  exact (interpretPair_forgetsRes hk _ _).setW fun w => { w with ccData2 := BitVec.ofNat 7 d2 }

end

theorem parseEntries_forgetsRes (n : Nat) : ForgetsRes (parseEntries n) := by
  induction n with
  | zero => exact finishCaption_forgetsRes
  | succ n ih => exact parseEntry_forgetsRes (ih.after fun _ _ => rfl)

theorem parseCaption_forgetsRes : ForgetsRes parseCaption :=
  skipBits_forgetsRes 3 (readBits_forgetsRes 5 fun n =>
    skipBits_forgetsRes 8 ((parseEntries_forgetsRes n).after fun _ _ => rfl))

/-! ## `SEI_PARSE`

After each field the operation returns, and so writes `RES`, or goes on (43_sei_header R193 to R196). -/

theorem readExt_forgetsRes {k : Nat → State → State} (hk : ∀ v, ForgetsRes (k v)) (fuel acc : Nat) :
    ForgetsRes fun s => readExt fuel acc s k := by
  induction fuel generalizing acc with
  | zero => exact raise_forgetsRes _
  | succ fuel ih =>
    refine readBytes_forgetsRes 1 fun v s r => ite_congr rfl (fun _ => ?_) fun _ => ?_
    · exact ih (acc + v) (s.setHdr { s.hdr with b := BitVec.ofNat 8 v }) r
    · exact hk (acc + v) (s.setHdr { s.hdr with b := BitVec.ofNat 8 v }) r

theorem readSignature_forgetsRes : ForgetsRes readSignature := by
  refine readBytes_forgetsRes 1 fun country s r => ?_
  refine ite_congr rfl (fun _ => rfl) fun _ => readBytes_forgetsRes 2 (fun provider s r => ?_) (s.setHdr _) r
  refine ite_congr rfl (fun _ => rfl) fun _ => readBytes_forgetsRes 4 (fun userId s r => ?_) (s.setHdr _) r
  refine ite_congr rfl (fun _ => rfl) fun _ => readBytes_forgetsRes 1 (fun dataType s r => ?_) (s.setHdr _) r
  exact ite_congr rfl (fun _ => rfl) fun _ => rfl

theorem afterSize_forgetsRes (v : Nat) : ForgetsRes (afterSize v) :=
  fun s r => ite_congr rfl (fun _ => rfl) fun _ => readSignature_forgetsRes (s.setHdr { s.hdr with payloadSize := v }) r

/-- The bytes left to the Byte Reader bound the loop of `READEXT`. -/
theorem readField_forgetsRes {k : Nat → State → State} (hk : ∀ v, ForgetsRes (k v)) :
    ForgetsRes fun s => readExt (bytesLeft s) 0 s k :=
  fun s r => readExt_forgetsRes hk (bytesLeft s) 0 s r

theorem afterType_forgetsRes (v : Nat) : ForgetsRes (afterType v) :=
  fun s r => ite_congr rfl (fun _ => rfl) fun _ =>
    readField_forgetsRes afterSize_forgetsRes (s.setHdr { s.hdr with payloadType := v }) r

theorem parseSei_forgetsRes : ForgetsRes parseSei := readField_forgetsRes afterType_forgetsRes

/-! ## The commands -/

theorem whenIdle_forgetsRes {k : State → StepResult} (hk : ForgetsRes k) : ForgetsRes fun s => whenIdle s k :=
  fun s r => ite_congr rfl (fun _ => hk s r) fun _ => rfl

theorem next_forgetsRes {k : State → State} (hk : ForgetsRes k) : ForgetsRes fun s => (.next (k s) : StepResult) :=
  fun s r => congrArg Host.Outcome.next (hk s r)

/-- The commands in turn: each is admitted or refused without a look at `RES`, and what is admitted writes it. -/
theorem exec_forgetsRes {i : Instr} (hcommand : i.isCommand = true) (hreset : ∀ src, i ≠ .brReset src) :
    ForgetsRes (exec i) := by
  have refused : ∀ e, ForgetsRes fun _ => (.refused e : StepResult) := fun _ _ _ => rfl
  cases i
  case brReset src => exact absurd rfl (hreset src)
  case brReadBit => exact whenIdle_forgetsRes (next_forgetsRes (readBit_forgetsRes fun _ => answer_forgetsRes _))
  case brReadBits n =>
    exact whenIdle_forgetsRes (.ite (next_forgetsRes (readBits_forgetsRes n answer_forgetsRes)) (refused _))
  case brSkipBits n => exact whenIdle_forgetsRes (next_forgetsRes (skipBits_forgetsRes n answerNoValue_forgetsRes))
  case byBind src p =>
    have bound : ForgetsRes fun s => answerNoValue (s.bindByte src p) :=
      answerNoValue_forgetsRes.after fun _ _ => rfl
    exact whenIdle_forgetsRes (.ite (.ite (next_forgetsRes bound) (refused _)) (refused _))
  case byReadU8 => exact whenIdle_forgetsRes (next_forgetsRes (readBytes_forgetsRes 1 answer_forgetsRes))
  case byReadU16 => exact whenIdle_forgetsRes (next_forgetsRes (readBytes_forgetsRes 2 answer_forgetsRes))
  case byReadI32 => exact whenIdle_forgetsRes (next_forgetsRes (readBytes_forgetsRes 4 answer_forgetsRes))
  case byPos => exact whenIdle_forgetsRes (next_forgetsRes fun s r => answer_forgetsRes s.byr.pos s r)
  case getBasic x =>
    exact whenIdle_forgetsRes (next_forgetsRes (getBasicChar_forgetsRes x fun c => answer_forgetsRes c.toNat))
  case getSpecial y => exact whenIdle_forgetsRes (next_forgetsRes (answer_forgetsRes _))
  case seiParse => exact whenIdle_forgetsRes (next_forgetsRes (parseSei_forgetsRes.after fun _ _ => rfl))
  case ccParse buffer size ts =>
    have parsed : ForgetsRes fun s => parseCaption (beginCaption buffer size ts s) :=
      parseCaption_forgetsRes.after fun _ _ => rfl
    exact whenIdle_forgetsRes (.ite (fun _ _ => rfl) (.ite (next_forgetsRes parsed) (refused _)))
  case canParse formatId => exact whenIdle_forgetsRes (next_forgetsRes (answer_forgetsRes _))
  all_goals exact absurd hcommand Bool.false_ne_true

/-- Settles O17: a command other than `BR.RESET` forgets the `RES` it finds. -/
theorem faultStatusNotSticky : Obligations.FaultStatusNotSticky :=
  fun _ s r hcommand hreset => exec_forgetsRes hcommand hreset s r

end Sys2Proof.Machine
end

section
/-! PROOFS. The readers before any bind (70_reset_and_hazards R310): the empty source at reset has nothing past the cursor,
so every request for a bit or a byte is beyond the end, where a reader command writes `RES` alone. -/

namespace Sys2Proof.Machine

theorem reset_bits_exhausted {n : Nat} (hn : 1 ≤ n) :
    8 * State.reset.br.src.length < State.reset.br.pos + n := by
  simp only [State.reset, List.length_nil]
  omega

theorem reset_bytes_exhausted {n : Nat} (hn : 1 ≤ n) :
    State.reset.byr.src.length < State.reset.byr.pos + n := by
  simp only [State.reset, List.length_nil]
  omega

/-- Settles O12: at reset every request is past the end, where a reader command faults and writes `RES` alone. -/
theorem unboundReadersUnderrun : Obligations.UnboundReadersUnderrun := by
  have bits {n : Nat} (hn : 1 ≤ n) := bitUnderrunTouchesNothing n State.reset rfl (reset_bits_exhausted hn)
  obtain ⟨readU8, readU16, readI32⟩ := byteUnderrunTouchesNothing State.reset rfl
  constructor
  · rintro i (rfl | ⟨n, hn, hmax, rfl⟩ | ⟨n, hn, rfl⟩)
    · obtain ⟨readBit, -, -⟩ := bits le_rfl
      exact readBit rfl
    · obtain ⟨-, readBits, -⟩ := bits hn
      exact readBits hmax
    · obtain ⟨-, -, skipBits⟩ := bits hn
      exact skipBits
  · rintro i (rfl | rfl | rfl)
    · exact readU8 (reset_bytes_exhausted (by decide))
    · exact readU16 (reset_bytes_exhausted (by decide))
    · exact readI32 (reset_bytes_exhausted (by decide))

end Sys2Proof.Machine
end
